-- ==== Sys2Proof/Word.lean ====
section
/-! DEFINITION. The word types of HUFFCORE (00_scope.md R9): every value is unsigned, bit 0 is the least significant. -/

namespace Sys2Proof

/-- A byte: a symbol, or one byte of the packed stream (R9). -/
abbrev Byte := BitVec 8

/-- A 32-bit word: a register, a command, a count or a node weight (R9, R58, R7 COUNT_W). -/
abbrev Word := BitVec 32

/-- A code pattern `CODE_PAT[s]` (10_state.md R35). -/
abbrev Pattern := BitVec 256

/-- The index of a slot of the node arena, 0 to 510 (10_state.md R32). -/
abbrev NodeIdx := Fin 511

/-- A 9-bit arena reference of the spec: a slot, or NONE, which the spec encodes as 511 (10_state.md R32). -/
abbrev NodeRef := Option NodeIdx

end Sys2Proof
end

