-- ==== Sys2Proof/Config.lean ====
section
/-! DEFINITION. The implementation parameters (00_scope.md R7, R8), the hard-wired registers, and the values the spec leaves open. -/

namespace Sys2Proof.Config

/-- NUM_SYMBOLS (R7). -/
def numSymbols : Nat := 256

/-- COUNT_W (R7): the width of counts and weights; `Word` has this width. -/
def countW : Nat := 32

/-- MAX_CODE_LEN (R7). -/
def maxCodeLen : Nat := 255

/-- OUT_DEPTH (R7, R8): the spec's default, within 32 to 255.
DESIGN CHOICE (entry 9): the model is built with the default. -/
def outDepth : Nat := 64

/-- HEAP_CAP (R7): `Vector NodeIdx 511` in the state. -/
def heapCap : Nat := 511

/-- ARENA_CAP (R7): `Vector Node 511` in the state. -/
def arenaCap : Nat := 511

/-- ENC_ROOM (R7): free FIFO entries that ENC requires. -/
def encRoom : Nat := 32

/-- DEC_ROOM (R7): free FIFO entries that DFEED and DLAST require. -/
def decRoom : Nat := 8

/-- The ID register (10_state.md R16): "HUF1". -/
def idWord : Word := 0x48554631#32

/-- The PARAMS register (10_state.md R17): NUM_SYMBOLS_M1, COUNT_W, MAX_CODE_LEN, OUT_DEPTH from bit 31 down. -/
def paramsWord : Word :=
  BitVec.ofNat 8 (numSymbols - 1) ++ BitVec.ofNat 8 countW ++ BitVec.ofNat 8 maxCodeLen ++ BitVec.ofNat 8 outDepth

/-- REG_BASE (R7, I12): the window's base address on the host bus, OPEN.
DESIGN CHOICE (entry 9): an uninterpreted constant, so no proof can use a value of it. -/
opaque regBase : Nat

/-- What a read of a register other than ID, PARAMS and STATUS returns while BUSY = 1 (I8, R119): a free value for
the n-th such read at the given offset. DESIGN CHOICE (entry 4): uninterpreted. -/
opaque busyRead : Nat → Byte → Word

end Sys2Proof.Config
end

