-- ==== Sys2Proof/Syntax.lean ====
section
/-! DEFINITION. The commands of the block (30_encoding.md R64) and the accesses of the host (20_memory.md R57). -/

namespace Sys2Proof

/-- The seventeen commands, one constructor per row of the opcode table (30_encoding.md R64). `s` is the symbol or byte
operand S[7:0] and `k` the word index K[10:8] (R63): the fields have exactly the widths of the encoding, so every term
is an instruction the block has. -/
inductive Instr where
  | nop
  | clear
  | feed (s : Byte)
  | hadd (s : Byte)
  | setlen
  | setpad
  | builde
  | buildd
  | enc (s : Byte)
  | final
  | dfeed (s : Byte)
  | dlast (s : Byte)
  | dend
  | hrd (s : Byte)
  | clrd (s : Byte)
  | cbrd (s : Byte) (k : BitVec 3)
  | pop
deriving DecidableEq, Repr

/-- The fifteen registers of the window (10_state.md R15). -/
inductive Reg where
  | id | params | status | errcode | errcmd | arg | cmd | result | total | origLen | symcnt | nsym | pad
  | bitcntLo | bitcntHi
deriving DecidableEq, Repr

/-- The width of a host access. Only `word` is admitted (20_memory.md R43). -/
inductive Width where
  | byte | half | word
deriving DecidableEq, Repr

/-- One move of the host (20_memory.md R57, 70_reset_and_hazards.md R118): a read or a write of the register window at a
byte offset 0x00 to 0xFF, or the reset input asserted and deasserted. -/
inductive Access where
  | read (width : Width) (off : Byte)
  | write (width : Width) (off : Byte) (v : Word)
  | reset
deriving DecidableEq, Repr

end Sys2Proof
end

