-- ==== Sys2Proof/WellFormed.lean ====
section
/-! DEFINITION. Which host accesses are admitted (20_memory.md R43). A command needs no check of its own: the fields of
`Instr` have exactly the widths of the encoding, and the words that are no command are refused by the decoder. -/

namespace Sys2Proof

/-- R43: "Every host access to the register window is a 32-bit access". -/
def Width.isWord : Width → Bool
  | .byte => false
  | .half => false
  | .word => true

/-- R43: "at an offset that is a multiple of 4". -/
def offsetAligned (off : Byte) : Bool := off.toNat % 4 == 0

/-- The accesses of the admitted host programs (R43). Reset is no access to the window. -/
def Access.wellFormed : Access → Bool
  | .read w off => w.isWord && offsetAligned off
  | .write w off _ => w.isWord && offsetAligned off
  | .reset => true

/-- Every command of `Instr` is well formed (its field types are the operand widths of R59 and R63). -/
def Instr.wellFormed : Instr → Bool
  | .nop | .clear | .feed _ | .hadd _ | .setlen | .setpad | .builde | .buildd | .enc _ | .final | .dfeed _ | .dlast _
  | .dend | .hrd _ | .clrd _ | .cbrd _ _ | .pop => true

end Sys2Proof
end

