-- ==== Sys2Proof/Decode.lean ====
section
/-! DEFINITION. The command decoder (30_encoding.md R58 to R67), then the encoder, and the register offsets (10_state.md R15). -/

namespace Sys2Proof

/-- Why a command word is illegal (R65, R66). -/
inductive DecodeError where
  /-- The opcode is not in the table of R64. -/
  | reservedOpcode
  /-- A reserved bit of the command's format is nonzero. -/
  | reservedBits
deriving DecidableEq, Repr

/-- The three formats of R60 to R62. -/
inductive Format where
  | n | b | bk
deriving DecidableEq, Repr

/-- OPC[31:24] (R59). -/
def opcField (c : Word) : Byte := c.extractLsb' 24 8

/-- S[7:0] (R59). -/
def sField (c : Word) : Byte := c.extractLsb' 0 8

/-- K[10:8] (R59). -/
def kField (c : Word) : BitVec 3 := c.extractLsb' 8 3

/-- The bits that must be 0 in a format are 0 (R60 to R62): [23:0] in N, [23:8] in B, [23:11] in BK. -/
def reservedZero : Format → Word → Bool
  | .n, c => c.extractLsb' 0 24 == 0
  | .b, c => c.extractLsb' 8 16 == 0
  | .bk, c => c.extractLsb' 11 13 == 0

/-- A command with its format, the opcode being given (R64). -/
def opcodeRow (opc s : Byte) (k : BitVec 3) : Option (Format × Instr) :=
  match opc with
  | 0x00#8 => some (.n, .nop)
  | 0x01#8 => some (.n, .clear)
  | 0x10#8 => some (.b, .feed s)
  | 0x11#8 => some (.b, .hadd s)
  | 0x12#8 => some (.n, .setlen)
  | 0x13#8 => some (.n, .setpad)
  | 0x20#8 => some (.n, .builde)
  | 0x21#8 => some (.n, .buildd)
  | 0x30#8 => some (.b, .enc s)
  | 0x31#8 => some (.n, .final)
  | 0x40#8 => some (.b, .dfeed s)
  | 0x41#8 => some (.b, .dlast s)
  | 0x42#8 => some (.n, .dend)
  | 0x50#8 => some (.b, .hrd s)
  | 0x51#8 => some (.b, .clrd s)
  | 0x52#8 => some (.bk, .cbrd s k)
  | 0x53#8 => some (.n, .pop)
  | _ => none

/-- Decoding a command word (R65). It depends on the word alone, never on PHASE. -/
def decode (c : Word) : Except DecodeError Instr :=
  match opcodeRow (opcField c) (sField c) (kField c) with
  | none => .error .reservedOpcode
  | some (f, i) => if reservedZero f c then .ok i else .error .reservedBits

/-- A word of format N (R60). -/
def wordN (opc : Byte) : Word := opc ++ 0#24

/-- A word of format B (R61). -/
def wordB (opc s : Byte) : Word := opc ++ 0#16 ++ s

/-- A word of format BK (R62). -/
def wordBK (opc s : Byte) (k : BitVec 3) : Word := opc ++ 0#13 ++ k ++ s

/-- The word of a command (R60 to R64). -/
def encode : Instr → Word
  | .nop => wordN 0x00#8
  | .clear => wordN 0x01#8
  | .feed s => wordB 0x10#8 s
  | .hadd s => wordB 0x11#8 s
  | .setlen => wordN 0x12#8
  | .setpad => wordN 0x13#8
  | .builde => wordN 0x20#8
  | .buildd => wordN 0x21#8
  | .enc s => wordB 0x30#8 s
  | .final => wordN 0x31#8
  | .dfeed s => wordB 0x40#8 s
  | .dlast s => wordB 0x41#8 s
  | .dend => wordN 0x42#8
  | .hrd s => wordB 0x50#8 s
  | .clrd s => wordB 0x51#8 s
  | .cbrd s k => wordBK 0x52#8 s k
  | .pop => wordN 0x53#8

/-- The command word whose lowest `nbits` bits are those of `w`, every bit above them 0: a command is one 32-bit word,
bit 0 its least significant (R58, R59). -/
def tableWord (nbits w : Nat) : Word := BitVec.ofNat 32 (w % 2 ^ nbits)

/-- The host's view of the decoder: the command in an opcode-table word. -/
def decodeTableWord (nbits w : Nat) : Option Instr :=
  match decode (tableWord nbits w) with
  | .ok i => some i
  | .error _ => none

/-- The register at a window offset, or none for a reserved offset (10_state.md R15). -/
def regAt (off : Byte) : Option Reg :=
  match off with
  | 0x00#8 => some .id
  | 0x04#8 => some .params
  | 0x08#8 => some .status
  | 0x0C#8 => some .errcode
  | 0x10#8 => some .errcmd
  | 0x14#8 => some .arg
  | 0x18#8 => some .cmd
  | 0x1C#8 => some .result
  | 0x20#8 => some .total
  | 0x24#8 => some .origLen
  | 0x28#8 => some .symcnt
  | 0x2C#8 => some .nsym
  | 0x30#8 => some .pad
  | 0x34#8 => some .bitcntLo
  | 0x38#8 => some .bitcntHi
  | _ => none

/-- The window offset of a register (10_state.md R15). -/
def regOffset : Reg → Byte
  | .id => 0x00#8
  | .params => 0x04#8
  | .status => 0x08#8
  | .errcode => 0x0C#8
  | .errcmd => 0x10#8
  | .arg => 0x14#8
  | .cmd => 0x18#8
  | .result => 0x1C#8
  | .total => 0x20#8
  | .origLen => 0x24#8
  | .symcnt => 0x28#8
  | .nsym => 0x2C#8
  | .pad => 0x30#8
  | .bitcntLo => 0x34#8
  | .bitcntHi => 0x38#8

end Sys2Proof
end

