-- ==== Sys2Proof/Machine/State.lean ====
section
/-! DEFINITION. The state of the machine as plain data (10_state.md), its reset value (R40), and the reasons a step can stop. -/

namespace Sys2Proof.Machine

/-- PHASE (10_state.md R28). The values 5 and 6 are never taken. -/
inductive Phase where
  | load | encode | encDone | decode | decDone | error
deriving DecidableEq, Repr

/-- The error codes (60_exceptions.md R106). `none` is "no error recorded"; the codes 10 to 15 are never recorded.
`busy` is recorded by hardware only (R112). -/
inductive ErrCode where
  | none | illegal | sequence | overflow | corrupt | truncated | noCode | length | overrun | busy
deriving DecidableEq, Repr

/-- A node of the arena (10_state.md R32): the fields of each kind are those the spec calls meaningful for it. -/
inductive Node where
  | leaf (sym : Byte) (weight : Word)
  | internal (weight : Word) (left right : NodeRef)
deriving DecidableEq, Repr

/-- The tree memories (10_state.md R32 to R34): NODE, NN, H, HS and ROOT. -/
structure TreeMem where
  node : Vector Node 511
  nn : Nat
  heap : Vector NodeIdx 511
  hs : Nat
  root : NodeRef
deriving DecidableEq, Repr

/-- The code table (10_state.md R35): CODE_LEN and CODE_PAT. -/
structure CodeTable where
  len : Vector Byte 256
  pat : Vector Pattern 256
deriving DecidableEq, Repr

/-- The whole state. The fields from `bus` on are the host's side (entry 1) and the model's own counter (entry 4); the
others are the six classes of 10_state.md R14. -/
structure State where
  /-- the first-error record (R19, R20) -/
  errcode : ErrCode
  errcmd : Word
  /-- ARG (R21), RESULT (R23), TOTAL (R24), ORIG_LEN (R25), SYMCNT (R26), PAD and BITCNT (R27) -/
  arg : Word
  result : Word
  total : Word
  origLen : Word
  symcnt : Word
  pad : BitVec 3
  bitcnt : BitVec 64
  /-- PHASE (R28), STATUS.CT_VALID and STATUS.EXCESS (R30), STATUS.BUSY (R18, R29) -/
  phase : Phase
  ctValid : Bool
  excess : Bool
  busy : Bool
  /-- HIST (R31) -/
  hist : Vector Word 256
  /-- NODE, NN, H, HS and ROOT (R32 to R34) -/
  tree : TreeMem
  /-- CODE_LEN and CODE_PAT (R35) -/
  codes : CodeTable
  /-- the output FIFO, oldest byte first (R36) -/
  fifo : List Byte
  /-- BITBUF and FILL (R37) -/
  bitbuf : Byte
  fill : BitVec 3
  /-- CUR (R38) -/
  cur : NodeRef
  /-- the accesses the host has still to make, in program order (20_memory.md R53, R57) -/
  bus : List Access
  /-- the values the host's reads returned, oldest first (70_reset_and_hazards.md R123) -/
  observed : List Word
  /-- how many unspecified reads have been made (93_implementation_defined.md I8) -/
  freeReads : Nat
deriving DecidableEq, Repr

/-- Why the machine stops with a fault. Every error of the spec is a next state (60_exceptions.md R107), not a fault. -/
inductive Fault where
  /-- Raised by DFEED and DLAST when the walk of R96 stands on no internal node: R96 derives that this never happens, and
  no state a run reaches does it (entry 7). Safe. -/
  | walkNotInternal
deriving DecidableEq, Repr

/-- Why the model has no next state. -/
inductive Refusal where
  /-- An instruction without a meaning. No arm of `exec` uses it. Safe. -/
  | notModelled (mnemonic : String)
  /-- Raised by the bus for an 8-bit, 16-bit or misaligned access (20_memory.md R43, I10; entry 6). Safe. -/
  | accessNotAdmitted
  /-- Raised by the bus for a write of CMD or ARG while BUSY = 1 (70_reset_and_hazards.md R119, I9; entry 3). Safe. -/
  | writeWhileBusy
deriving DecidableEq, Repr

/-- The tree memories after reset (R40). The contents of NODE and H are unspecified there. DESIGN CHOICE (entry 5). -/
def TreeMem.reset : TreeMem :=
  { node := Vector.replicate 511 (.leaf 0 0), nn := 0, heap := Vector.replicate 511 0, hs := 0, root := none }

/-- The code table after reset: unspecified by R40. DESIGN CHOICE (entry 5): all zero. -/
def CodeTable.reset : CodeTable :=
  { len := Vector.replicate 256 0, pat := Vector.replicate 256 0 }

/-- The state after reset (10_state.md R40, 70_reset_and_hazards.md R116), the host having no access to make. -/
def State.reset : State :=
  { errcode := .none, errcmd := 0, arg := 0, result := 0, total := 0, origLen := 0, symcnt := 0, pad := 0, bitcnt := 0,
    phase := .load, ctValid := false, excess := false, busy := false, hist := Vector.replicate 256 0,
    tree := TreeMem.reset, codes := CodeTable.reset, fifo := [], bitbuf := 0, fill := 0, cur := none,
    bus := [], observed := [], freeReads := 0 }

end Sys2Proof.Machine
end

