-- ==== Sys2Proof/Machine/Flags.lean ====
section
/-! DEFINITION. The codes of PHASE and ERRCODE, the STATUS word, NSYM, and the phase acceptance matrix. -/

namespace Sys2Proof.Machine

/-- The encoding of PHASE (10_state.md R28). -/
def phaseCode : Phase → BitVec 3
  | .load => 0
  | .encode => 1
  | .encDone => 2
  | .decode => 3
  | .decDone => 4
  | .error => 7

/-- The encoding of an error (60_exceptions.md R106). -/
def errCodeBits : ErrCode → BitVec 4
  | .none => 0
  | .illegal => 1
  | .sequence => 2
  | .overflow => 3
  | .corrupt => 4
  | .truncated => 5
  | .noCode => 6
  | .length => 7
  | .overrun => 8
  | .busy => 9

/-- STATUS.ERR (10_state.md R18): 1 exactly when PHASE = ERROR. -/
def errFlag (s : State) : Bool := decide (s.phase = .error)

/-- The STATUS word (10_state.md R18), from bit 31 down: reserved, OUT_COUNT, reserved, EXCESS, CT_VALID, ERR, BUSY, PHASE. -/
def statusWord (s : State) : Word :=
  0#16 ++ BitVec.ofNat 8 s.fifo.length ++ 0#1 ++ BitVec.ofBool s.excess ++ BitVec.ofBool s.ctValid
    ++ BitVec.ofBool (errFlag s) ++ BitVec.ofBool s.busy ++ phaseCode s.phase

/-- NSYM (10_state.md R27): the number of nonzero HIST entries. -/
def nsym (s : State) : Nat := s.hist.toList.countP (· != 0)

/-- The phase acceptance matrix (30_encoding.md R68): the entries A. -/
def acceptedIn : Instr → Phase → Bool
  | .nop, _ => true
  | .clear, _ => true
  | .feed _, p => p == .load
  | .hadd _, p => p == .load
  | .setlen, p => p == .load
  | .setpad, p => p == .load || p == .decode
  | .builde, p => p == .load
  | .buildd, p => p == .load
  | .enc _, p => p == .encode
  | .final, p => p == .encode
  | .dfeed _, p => p == .decode
  | .dlast _, p => p == .decode
  | .dend, p => p == .decode
  | .hrd _, _ => true
  | .clrd _, _ => true
  | .cbrd _ _, _ => true
  | .pop, _ => true

end Sys2Proof.Machine
end

