-- ==== Sys2Proof/Machine/Operands.lean ====
section
/-! DEFINITION. The operands of the commands (30_encoding.md R63): the entry a symbol selects, the word of a pattern,
the bits of a code and of a stream byte, and the room in the FIFO. -/

namespace Sys2Proof.Machine

/-- HIST[s] (10_state.md R31). -/
def histAt (s : State) (b : Byte) : Word := s.hist[b.toNat]'b.isLt

/-- HIST[s] <- v. -/
def setHist (b : Byte) (v : Word) (s : State) : State := { s with hist := s.hist.set b.toNat v b.isLt }

/-- CODE_LEN[s] (10_state.md R35). -/
def codeLenAt (c : CodeTable) (b : Byte) : Byte := c.len[b.toNat]'b.isLt

/-- CODE_PAT[s] (10_state.md R35). -/
def codePatAt (c : CodeTable) (b : Byte) : Pattern := c.pat[b.toNat]'b.isLt

/-- CODE_LEN[s] <- len; CODE_PAT[s] <- pat. -/
def setCode (b : Byte) (len : Byte) (pat : Pattern) (c : CodeTable) : CodeTable :=
  { len := c.len.set b.toNat len b.isLt, pat := c.pat.set b.toNat pat b.isLt }

/-- Bits [32k+31:32k] of a pattern (R63). -/
def patternWord (p : Pattern) (k : BitVec 3) : Word := p.extractLsb' (32 * k.toNat) 32

/-- The lowest `n` bits of a pattern, bit n-1 first: the order in which ENC emits a code of length n (10_state.md R35,
43_encode.md R93). -/
def codeBits : Nat → Pattern → List Bool
  | 0, _ => []
  | n + 1, p => p.getLsbD n :: codeBits n p

/-- The first `n` logical bits of a stream byte, most significant first (44_decode.md R97, 20_memory.md R46). -/
def byteBits (v : Byte) (n : Nat) : List Bool := (List.range n).map fun j => v.getLsbD (7 - j)

/-- FifoCount (00_scope.md R10). -/
def fifoCount (s : State) : Nat := s.fifo.length

/-- OUT_DEPTH - FifoCount, the free entries of the FIFO. -/
def fifoRoom (s : State) : Nat := Config.outDepth - fifoCount s

end Sys2Proof.Machine
end

