-- ==== Sys2Proof/Machine/Ops.lean ====
section
/-! DEFINITION. The shared operations: the command step with its phase check and error entry, the FIFO, the registers of
the window, and reset. -/

namespace Sys2Proof.Machine

/-- How a command's rule ends when it is run on a copy of the state (40_control.md R72): with the copy, with
`raise Error(e)`, or not at all (a precondition of the walk fails, entry 7). -/
inductive Result where
  | done (s : State)
  | raise (e : ErrCode)
  | stuck (f : Fault)
deriving DecidableEq, Repr

/-- Error entry (60_exceptions.md R107): in ERROR nothing, otherwise ERRCODE, ERRCMD and PHASE and nothing else. -/
def recordError (e : ErrCode) (c : Word) (s : State) : State :=
  if s.phase = .error then s else { s with errcode := e, errcmd := c, phase := .error }

/-- The step of a decoded command (40_control.md R72). An accepted command runs its rule: if it completes, the copy
becomes the state, and if it raises, the copy is discarded and the error is recorded with the command's word (entry 12).
A command that is not accepted is ignored in ERROR (60_exceptions.md R108) and raises SEQUENCE elsewhere. -/
def runCommand (i : Instr) (rule : State → Result) (s : State) : Host.Outcome State Fault Refusal :=
  if acceptedIn i s.phase then
    match rule s with
    | .done t => .next t
    | .raise e => .next (recordError e (encode i) s)
    | .stuck f => .fault f
  else if s.phase = .error then .next s
  else .next (recordError .sequence (encode i) s)

/-- FifoPush (00_scope.md R10). -/
def fifoPush (b : Byte) (s : State) : State := { s with fifo := s.fifo ++ [b] }

/-- The value of a register, BUSY being 0 (20_memory.md R44). CMD reads 0 (10_state.md R22). -/
def readReg (r : Reg) (s : State) : Word :=
  match r with
  | .id => Config.idWord
  | .params => Config.paramsWord
  | .status => statusWord s
  | .errcode => (errCodeBits s.errcode).setWidth 32
  | .errcmd => s.errcmd
  | .arg => s.arg
  | .cmd => 0
  | .result => s.result
  | .total => s.total
  | .origLen => s.origLen
  | .symcnt => s.symcnt
  | .nsym => BitVec.ofNat 32 (nsym s)
  | .pad => s.pad.setWidth 32
  | .bitcntLo => s.bitcnt.extractLsb' 0 32
  | .bitcntHi => s.bitcnt.extractLsb' 32 32

/-- The value at a window offset, BUSY being 0: a reserved offset reads 0 (20_memory.md R44). -/
def readOffset (off : Byte) (s : State) : Word :=
  match regAt off with
  | some r => readReg r s
  | none => 0

/-- The window as bytes, little-endian: byte off + i carries bits [8i+7:8i] of the register at off (20_memory.md R47). -/
def windowByte (off : Byte) (s : State) : Byte :=
  (readOffset (off &&& 0xFC#8) s).extractLsb' (8 * (off.toNat % 4)) 8

/-- The byte the window drives at a host-bus address, none outside REG_BASE to REG_BASE + 255 (20_memory.md R41, R47). -/
def busByte (a : Nat) (s : State) : Option Byte :=
  if Config.regBase ≤ a ∧ a < Config.regBase + 256 then some (windowByte (BitVec.ofNat 8 (a - Config.regBase)) s) else none

/-- The registers that still read their own value while BUSY = 1 (70_reset_and_hazards.md R119). -/
def readableWhileBusy (off : Byte) : Bool :=
  match regAt off with
  | some .id | some .params | some .status => true
  | _ => false

/-- The reset event (70_reset_and_hazards.md R116): every piece of the block's state at its value of 10_state.md R40. The
host keeps its accesses and what it observed (entry 1). -/
def resetBlock (s : State) : State :=
  { State.reset with bus := s.bus, observed := s.observed, freeReads := s.freeReads }

end Sys2Proof.Machine
end

