-- ==== Sys2Proof/Machine/Control.lean ====
section
/-! DEFINITION. The control commands NOP and CLEAR (40_control.md). -/

namespace Sys2Proof.Machine

/-- NOP (40_control.md R74). -/
def execNop (s : State) : Host.Outcome State Fault Refusal := runCommand .nop .done s

/-- The effect of CLEAR (40_control.md R75): the assignments of its pseudocode. NODE, H and the code table are not among
them (entry 10). -/
def clearBlock (s : State) : State :=
  { s with
    hist := Vector.replicate 256 0
    total := 0, origLen := 0, symcnt := 0, pad := 0, bitcnt := 0
    arg := 0, result := 0, errcode := .none, errcmd := 0
    tree := { s.tree with nn := 0, hs := 0, root := none }, cur := none
    bitbuf := 0, fill := 0
    fifo := []
    ctValid := false, excess := false
    phase := .load }

/-- CLEAR (40_control.md R75). -/
def execClear (s : State) : Host.Outcome State Fault Refusal := runCommand .clear (fun s => .done (clearBlock s)) s

end Sys2Proof.Machine
end

