-- ==== Sys2Proof/Machine/TreeBuild.lean ====
section
/-! DEFINITION. The priority queue, the tree builder and the code-table generator, and the commands BUILDE and BUILDD
(42_tree_build.md). Every loop of the spec is a structural recursion on a bound the loop cannot reach (entry 8). -/

namespace Sys2Proof.Machine

/-- w(n), the weight of a node (00_scope.md R10). -/
def nodeWeight : Node → Word
  | .leaf _ w => w
  | .internal w _ _ => w

/-- NODE[i]. -/
def nodeAt (t : TreeMem) (i : NodeIdx) : Node := t.node[i.val]'i.isLt

/-- H[i]. The heap procedures ask only for slots below HS (entry 8). -/
def heapAt (t : TreeMem) (i : Nat) : NodeIdx := t.heap[i]?.getD 0

/-- w(H[i]). -/
def slotWeight (t : TreeMem) (i : Nat) : Word := nodeWeight (nodeAt t (heapAt t i))

/-- H[i] <- x. -/
def setHeap (i : Nat) (x : NodeIdx) (t : TreeMem) : TreeMem := { t with heap := t.heap.setIfInBounds i x }

/-- swap H[i], H[j]. -/
def swapHeap (i j : Nat) (t : TreeMem) : TreeMem := setHeap j (heapAt t i) (setHeap i (heapAt t j) t)

/-- The loop of HeapInsert (42_tree_build.md R86): sift up while the parent is strictly heavier. The slot index falls at
every turn, so `fuel = i` turns are enough. -/
def siftUp : Nat → Nat → TreeMem → TreeMem
  | 0, _, t => t
  | fuel + 1, i, t =>
    if 0 < i ∧ slotWeight t ((i - 1) / 2) > slotWeight t i then
      siftUp fuel ((i - 1) / 2) (swapHeap ((i - 1) / 2) i t)
    else t

/-- HeapInsert (42_tree_build.md R86). -/
def heapInsert (x : NodeIdx) (t : TreeMem) : TreeMem :=
  siftUp t.hs t.hs { setHeap t.hs x t with hs := t.hs + 1 }

/-- The smaller child of slot i, whose left child is below HS; equal children: the left (42_tree_build.md R87). -/
def smallerChild (t : TreeMem) (i : Nat) : Nat :=
  if 2 * i + 2 < t.hs ∧ slotWeight t (2 * i + 2) < slotWeight t (2 * i + 1) then 2 * i + 2 else 2 * i + 1

/-- The loop of HeapExtractMin (42_tree_build.md R87): sift down while the smaller child is strictly lighter. The slot
index grows at every turn, so `fuel = HS` turns are enough. -/
def siftDown : Nat → Nat → TreeMem → TreeMem
  | 0, _, t => t
  | fuel + 1, i, t =>
    if 2 * i + 1 ≥ t.hs then t
    else if slotWeight t (smallerChild t i) < slotWeight t i then
      siftDown fuel (smallerChild t i) (swapHeap (smallerChild t i) i t)
    else t

/-- The node HeapExtractMin returns: m <- H[0] (42_tree_build.md R87). -/
def heapMin (t : TreeMem) : NodeIdx := heapAt t 0

/-- What HeapExtractMin leaves (42_tree_build.md R87), HS > 0 being its precondition: the last element moves to the root
and sifts down. DESIGN CHOICE (entry 15): slots at HS and above, any value by 93_implementation_defined.md I7, keep the
stale entries the pseudocode leaves there. -/
def heapRemoveMin (t : TreeMem) : TreeMem :=
  let hs := t.hs - 1
  if 0 < hs then siftDown hs 0 (setHeap 0 (heapAt t hs) { t with hs := hs })
  else { t with hs := hs }

/-- The arena index NN as a reference: NN is below 511 at every allocation (42_tree_build.md R92, entry 8). -/
def nextIdx (t : TreeMem) : NodeIdx := Fin.ofNat 511 t.nn

/-- NewLeaf and NewInternal (42_tree_build.md R84): NODE[NN] <- n; NN <- NN + 1. The index returned is `nextIdx t`. -/
def allocNode (n : Node) (t : TreeMem) : TreeMem :=
  { t with node := t.node.set (nextIdx t).val n (nextIdx t).isLt, nn := t.nn + 1 }

/-- HeapInsert(New…(…)): allocate a node and insert it. -/
def insertNew (n : Node) (t : TreeMem) : TreeMem := heapInsert (nextIdx t) (allocNode n t)

/-- The leaves (42_tree_build.md R84): one per symbol with a nonzero count, in the order of the list. -/
def insertLeaves (hist : Vector Word 256) : List Nat → TreeMem → TreeMem
  | [], t => t
  | k :: ks, t =>
    let w := hist[k]?.getD 0
    if w = 0 then insertLeaves hist ks t
    else insertLeaves hist ks (insertNew (.leaf (BitVec.ofNat 8 k) w) t)

/-- One merge (42_tree_build.md R84): the first minimum becomes the left child, the second the right. -/
def mergeStep (t : TreeMem) : TreeMem :=
  let a := heapMin t
  let t1 := heapRemoveMin t
  let b := heapMin t1
  let t2 := heapRemoveMin t1
  insertNew (.internal (nodeWeight (nodeAt t a) + nodeWeight (nodeAt t1 b)) (some a) (some b)) t2

/-- while HS > 1 (42_tree_build.md R84). A merge takes one entry off the heap, so `fuel = HS` turns are enough. -/
def mergeAll : Nat → TreeMem → TreeMem
  | 0, t => t
  | fuel + 1, t => if t.hs > 1 then mergeAll fuel (mergeStep t) else t

/-- The single leaf wrapped under the synthetic node (42_tree_build.md R85): left child the leaf, right child NONE. -/
def wrapSingle (t : TreeMem) : TreeMem :=
  let x := heapMin t
  let t1 := heapRemoveMin t
  { allocNode (.internal (nodeWeight (nodeAt t x)) (some x) none) t1 with root := some (nextIdx t1) }

/-- BuildTree (42_tree_build.md R84, R85). DESIGN CHOICE (entry 15): NODE entries at NN and above, any value by
93_implementation_defined.md I6, keep what they held before the build. -/
def buildTree (hist : Vector Word 256) (t : TreeMem) : TreeMem :=
  let t1 := insertLeaves hist (List.range 256) { t with nn := 0, hs := 0 }
  if t1.hs = 0 then { t1 with root := none }
  else if t1.hs = 1 then wrapSingle t1
  else
    let t2 := mergeAll t1.hs t1
    { heapRemoveMin t2 with root := some (heapMin t2) }

/-- Walk (42_tree_build.md R88). The first argument bounds the depth; a path of the tree has fewer than 511 nodes
(R92, entry 8). -/
def walkCodes (t : TreeMem) : Nat → NodeRef → Nat → Pattern → CodeTable → CodeTable
  | 0, _, _, _, c => c
  | _ + 1, none, _, _, c => c
  | fuel + 1, some n, len, pat, c =>
    match nodeAt t n with
    | .leaf sym _ => setCode sym (BitVec.ofNat 8 len) pat c
    | .internal _ l r =>
      walkCodes t fuel r (len + 1) (2 * pat + 1) (walkCodes t fuel l (len + 1) (2 * pat) c)

/-- GenCodes (42_tree_build.md R88). -/
def genCodes (t : TreeMem) : CodeTable := walkCodes t Config.arenaCap t.root 0 0 CodeTable.reset

/-- The rule of BUILDE (42_tree_build.md R89). -/
def buildForEncode (s : State) : State :=
  let t := buildTree s.hist s.tree
  { s with
    tree := t, codes := genCodes t
    origLen := s.total
    symcnt := 0, bitcnt := 0, pad := 0, bitbuf := 0, fill := 0
    cur := none
    ctValid := true
    phase := .encode }

/-- BUILDE (42_tree_build.md R89). -/
def execBuilde (s : State) : Host.Outcome State Fault Refusal :=
  runCommand .builde (fun s => .done (buildForEncode s)) s

/-- The rule of BUILDD (42_tree_build.md R90). PAD is unchanged. DESIGN CHOICE (entry 15): the code table, any value in the
decode phases by 93_implementation_defined.md I5, keeps its earlier contents. -/
def buildForDecode (s : State) : Result :=
  if s.total ≠ s.origLen then .raise .corrupt
  else
    let t := buildTree s.hist s.tree
    .done { s with
      tree := t
      symcnt := 0, bitcnt := 0
      cur := t.root
      ctValid := false
      phase := .decode }

/-- BUILDD (42_tree_build.md R90). -/
def execBuildd (s : State) : Host.Outcome State Fault Refusal := runCommand .buildd buildForDecode s

end Sys2Proof.Machine
end

