-- ==== Sys2Proof/Machine/Decoder.lean ====
section
/-! DEFINITION. The bit unpacker and the symbol mapper: DecodeBit, FeedBits, DFEED, DLAST and DEND (44_decode.md). -/

namespace Sys2Proof.Machine

/-- DecodeBit (44_decode.md R96). Where CUR names no internal node, which R96 derives never happens, the walk has no
child to take: a fault (entry 7). -/
def decodeBit (b : Bool) (s : State) : Result :=
  match s.cur.map (nodeAt s.tree) with
  | some (.internal _ l r) =>
    match (if b then r else l) with
    | none => .raise .corrupt
    | some nxt =>
      match nodeAt s.tree nxt with
      | .leaf sym _ =>
        .done (fifoPush sym { s with bitcnt := s.bitcnt + 1, symcnt := s.symcnt + 1, cur := s.tree.root })
      | .internal _ _ _ => .done { s with bitcnt := s.bitcnt + 1, cur := some nxt }
  | some (.leaf _ _) => .stuck .walkNotInternal
  | none => .stuck .walkNotInternal

/-- The loop of FeedBits (44_decode.md R97): once SYMCNT = ORIG_LEN the rest of the byte is ignored. -/
def walkBits : List Bool → State → Result
  | [], s => .done s
  | b :: bs, s =>
    if s.symcnt = s.origLen then .done s
    else
      match decodeBit b s with
      | .done t => walkBits bs t
      | .raise e => .raise e
      | .stuck f => .stuck f

/-- FeedBits (44_decode.md R97). -/
def feedBits (v : Byte) (n : Nat) (s : State) : Result :=
  if fifoRoom s < Config.decRoom then .raise .overrun
  else walkBits (byteBits v n) (if s.symcnt = s.origLen then { s with excess := true } else s)

/-- DFEED s (44_decode.md R98). -/
def execDfeed (b : Byte) (s : State) : Host.Outcome State Fault Refusal := runCommand (.dfeed b) (feedBits b 8) s

/-- The end of a stream (44_decode.md R99, R100): TRUNCATED while symbols are outstanding, otherwise DEC_DONE. -/
def endStream (s : State) : Result :=
  if s.symcnt.toNat < s.origLen.toNat then .raise .truncated else .done { s with phase := .decDone }

/-- The rule of DLAST (44_decode.md R99). -/
def feedLast (b : Byte) (s : State) : Result :=
  match feedBits b (8 - s.pad.toNat) s with
  | .done t => endStream t
  | .raise e => .raise e
  | .stuck f => .stuck f

/-- DLAST s (44_decode.md R99). -/
def execDlast (b : Byte) (s : State) : Host.Outcome State Fault Refusal := runCommand (.dlast b) (feedLast b) s

/-- DEND (44_decode.md R100). -/
def execDend (s : State) : Host.Outcome State Fault Refusal := runCommand .dend endStream s

end Sys2Proof.Machine
end

