-- ==== Sys2Proof/Machine/Encoder.lean ====
section
/-! DEFINITION. The bit packer: PutBit, ENC and FINAL (43_encode.md). -/

namespace Sys2Proof.Machine

/-- BITBUF[i] <- b. -/
def setBit (i : Nat) (b : Bool) (v : Byte) : Byte :=
  if b then v ||| (1#8 <<< i) else v &&& ~~~(1#8 <<< i)

/-- PutBit (43_encode.md R95). -/
def putBit (b : Bool) (s : State) : State :=
  let buf := setBit (7 - s.fill.toNat) b s.bitbuf
  if s.fill = 7 then fifoPush buf { s with bitcnt := s.bitcnt + 1, bitbuf := 0, fill := 0 }
  else { s with bitcnt := s.bitcnt + 1, bitbuf := buf, fill := s.fill + 1 }

/-- PutBit for each bit of a list, in order. -/
def putBits : List Bool → State → State
  | [], s => s
  | b :: bs, s => putBits bs (putBit b s)

/-- The bits of the code of a symbol, in the order they are emitted (10_state.md R35, 20_memory.md R46). -/
def codeOf (c : CodeTable) (b : Byte) : List Bool := codeBits (codeLenAt c b).toNat (codePatAt c b)

/-- The rule of ENC (43_encode.md R93). -/
def encSymbol (b : Byte) (s : State) : Result :=
  if codeLenAt s.codes b = 0 then .raise .noCode
  else if s.symcnt = s.origLen then .raise .length
  else if fifoRoom s < Config.encRoom then .raise .overrun
  else
    let t := putBits (codeOf s.codes b) s
    .done { t with symcnt := t.symcnt + 1 }

/-- ENC s (43_encode.md R93). -/
def execEnc (b : Byte) (s : State) : Host.Outcome State Fault Refusal := runCommand (.enc b) (encSymbol b) s

/-- The rule of FINAL (43_encode.md R94). BITCNT is unchanged. -/
def finishStream (s : State) : Result :=
  if s.symcnt ≠ s.origLen then .raise .length
  else if s.fill ≠ 0 ∧ fifoCount s = Config.outDepth then .raise .overrun
  else if s.fill ≠ 0 then
    .done (fifoPush s.bitbuf
      { s with pad := BitVec.ofNat 3 (8 - s.fill.toNat), bitbuf := 0, fill := 0, phase := .encDone })
  else .done { s with pad := 0, phase := .encDone }

/-- FINAL (43_encode.md R94). -/
def execFinal (s : State) : Host.Outcome State Fault Refusal := runCommand .final finishStream s

end Sys2Proof.Machine
end

