-- ==== Sys2Proof/Machine/Histogram.lean ====
section
/-! DEFINITION. The frequency counter and the stream parameters: FEED, HADD, SETLEN, SETPAD (41_histogram.md). -/

namespace Sys2Proof.Machine

/-- HIST[s] <- HIST[s] + a and TOTAL <- TOTAL + a, or OVERFLOW when the 33-bit sum passes 2^32 - 1 (41_histogram.md R78,
R79). -/
def countSymbol (b : Byte) (a : Word) (s : State) : Result :=
  if s.total.toNat + a.toNat > 0xFFFFFFFF then .raise .overflow
  else .done (setHist b (histAt s b + a) { s with total := s.total + a })

/-- FEED s (41_histogram.md R78): its check, TOTAL = 0xFFFFFFFF, is the 33-bit check with a = 1. -/
def execFeed (b : Byte) (s : State) : Host.Outcome State Fault Refusal := runCommand (.feed b) (countSymbol b 1) s

/-- HADD s (41_histogram.md R79). -/
def execHadd (b : Byte) (s : State) : Host.Outcome State Fault Refusal :=
  runCommand (.hadd b) (fun s => countSymbol b s.arg s) s

/-- SETLEN (41_histogram.md R80). -/
def execSetlen (s : State) : Host.Outcome State Fault Refusal :=
  runCommand .setlen (fun s => .done { s with origLen := s.arg }) s

/-- The rule of SETPAD (41_histogram.md R81). -/
def setPad (s : State) : Result :=
  if s.arg.toNat > 7 then .raise .corrupt else .done { s with pad := s.arg.extractLsb' 0 3 }

/-- SETPAD (41_histogram.md R81). -/
def execSetpad (s : State) : Host.Outcome State Fault Refusal := runCommand .setpad setPad s

end Sys2Proof.Machine
end

