-- ==== Sys2Proof/Machine/Readback.lean ====
section
/-! DEFINITION. The read-back commands HRD, CLRD, CBRD and POP (45_readback.md). -/

namespace Sys2Proof.Machine

/-- HRD s (45_readback.md R102). -/
def execHrd (b : Byte) (s : State) : Host.Outcome State Fault Refusal :=
  runCommand (.hrd b) (fun s => .done { s with result := histAt s b }) s

/-- CLRD s (45_readback.md R103). -/
def execClrd (b : Byte) (s : State) : Host.Outcome State Fault Refusal :=
  runCommand (.clrd b)
    (fun s => .done { s with result := if s.ctValid then (codeLenAt s.codes b).setWidth 32 else 0 }) s

/-- CBRD s, k (45_readback.md R104). -/
def execCbrd (b : Byte) (k : BitVec 3) (s : State) : Host.Outcome State Fault Refusal :=
  runCommand (.cbrd b k)
    (fun s => .done { s with result := if s.ctValid then patternWord (codePatAt s.codes b) k else 0 }) s

/-- The rule of POP (45_readback.md R105): bit 8 of RESULT is "valid", bits [7:0] the byte. -/
def popByte (s : State) : State :=
  match s.fifo with
  | [] => { s with result := 0 }
  | b :: rest => { s with result := (1#1 ++ b).setWidth 32, fifo := rest }

/-- POP (45_readback.md R105). -/
def execPop (s : State) : Host.Outcome State Fault Refusal := runCommand .pop (fun s => .done (popByte s)) s

end Sys2Proof.Machine
end

