-- ==== Sys2Proof/Machine/Dispatch.lean ====
section
/-! DEFINITION. The dispatch of a decoded command to its meaning, one arm per constructor (30_encoding.md R64). -/

namespace Sys2Proof.Machine

def exec (i : Instr) (s : State) : Host.Outcome State Fault Refusal :=
  match i with
  | .nop => Sys2Proof.Machine.execNop s
  | .clear => Sys2Proof.Machine.execClear s
  | .feed b => Sys2Proof.Machine.execFeed b s
  | .hadd b => Sys2Proof.Machine.execHadd b s
  | .setlen => Sys2Proof.Machine.execSetlen s
  | .setpad => Sys2Proof.Machine.execSetpad s
  | .builde => Sys2Proof.Machine.execBuilde s
  | .buildd => Sys2Proof.Machine.execBuildd s
  | .enc b => Sys2Proof.Machine.execEnc b s
  | .final => Sys2Proof.Machine.execFinal s
  | .dfeed b => Sys2Proof.Machine.execDfeed b s
  | .dlast b => Sys2Proof.Machine.execDlast b s
  | .dend => Sys2Proof.Machine.execDend s
  | .hrd b => Sys2Proof.Machine.execHrd b s
  | .clrd b => Sys2Proof.Machine.execClrd b s
  | .cbrd b k => Sys2Proof.Machine.execCbrd b k s
  | .pop => Sys2Proof.Machine.execPop s

end Sys2Proof.Machine
end

