-- ==== Sys2Proof/Machine/Bus.lean ====
section
/-! DEFINITION. The register window as the host sees it: issuing a command word, and performing one access
(20_memory.md R43 to R45, 40_control.md R72, 70_reset_and_hazards.md R118). -/

namespace Sys2Proof.Machine

/-- Step(c) of 40_control.md R72: an illegal word is ignored in ERROR and raises ILLEGAL elsewhere (`recordError` tests
the phase), and any other word runs its command. -/
def issueCommand (c : Word) (s : State) : Host.Outcome State Fault Refusal :=
  match decode c with
  | .error _ => .next (recordError .illegal c s)
  | .ok i => exec i s

/-- A host read (20_memory.md R44, R45): it changes nothing of the block, and its value joins the host's observation.
While BUSY = 1 most registers read an unspecified value (70_reset_and_hazards.md R119, entry 4). -/
def readAccess (off : Byte) (s : State) : State :=
  if s.busy && !readableWhileBusy off then
    { s with observed := s.observed ++ [Config.busyRead s.freeReads off], freeReads := s.freeReads + 1 }
  else { s with observed := s.observed ++ [readOffset off s] }

/-- A host write (20_memory.md R44): ARG takes the value, CMD issues it as a command, every other offset ignores it.
While BUSY = 1 a write of ARG or CMD is refused (70_reset_and_hazards.md R119, entry 3). -/
def writeAccess (off : Byte) (v : Word) (s : State) : Host.Outcome State Fault Refusal :=
  match regAt off with
  | some .arg => if s.busy then .refused .writeWhileBusy else .next { s with arg := v }
  | some .cmd => if s.busy then .refused .writeWhileBusy else issueCommand v s
  | _ => .next s

/-- One move of the host (20_memory.md R57, 70_reset_and_hazards.md R118). A narrow or misaligned access is refused
(20_memory.md R43, entry 6). -/
def performAccess (a : Access) (s : State) : Host.Outcome State Fault Refusal :=
  if a.wellFormed then
    match a with
    | .read _ off => .next (readAccess off s)
    | .write _ off v => writeAccess off v s
    | .reset => .next (resetBlock s)
  else .refused .accessNotAdmitted

/-- The host's next move, taken from the front of its pending accesses; with none pending the block waits unchanged
(70_reset_and_hazards.md R116, 60_exceptions.md R115; entries 1 and 2). -/
def hostStep (s : State) : Host.Outcome State Fault Refusal :=
  match s.bus with
  | [] => .next s
  | a :: rest => performAccess a { s with bus := rest }

/-- The host's next access becomes the write of the command word `c` to CMD, BUSY reading 0 (entry 1). -/
def pushCommand (c : Word) (s : State) : State :=
  { s with bus := .write .word (regOffset .cmd) c :: s.bus, busy := false }

end Sys2Proof.Machine
end

