-- ==== Sys2Proof/Machine/Step.lean ====
section
/-! DEFINITION. The step of the machine: one move of the host (70_reset_and_hazards.md R118). -/

namespace Sys2Proof.Machine

/-- One step (70_reset_and_hazards.md R118). -/
def step (s : State) : Host.Outcome State Fault Refusal := hostStep s

/-- `s` with the write of an opcode-table word to CMD as the host's next access (entry 1). -/
def State.withFetchWord (s : State) (nbits w : Nat) : State := pushCommand (tableWord nbits w) s

end Sys2Proof.Machine
end

