-- ==== Sys2Proof/Machine/Container.lean ====
section
/-! DEFINITION. The container around a stream, as the host builds, checks and parses it (20_memory.md R48 to R52). The
block never sees a container: these are functions on byte lists, and no step calls them (entry 13). -/

namespace Sys2Proof.Machine

/-- The fields of a container (20_memory.md R48): `counts` holds the 256 counts in byte-value order. -/
structure Container where
  origLen : Word
  pad : Byte
  counts : List Word
  stream : List Byte
deriving DecidableEq, Repr

/-- The structural checks the host makes before it gives the block any field (20_memory.md R52), in the rule's order. -/
inductive ContainerFault where
  | shorterThanHeader | badMarker | badVersion | badPadCount | padWithoutStream
deriving DecidableEq, Repr

/-- A u32 as four bytes, little-endian (20_memory.md R50). -/
def le32 (v : Word) : List Byte := [v.extractLsb' 0 8, v.extractLsb' 8 8, v.extractLsb' 16 8, v.extractLsb' 24 8]

/-- Four bytes as a u32, little-endian (20_memory.md R50). -/
def ofLe32 (b0 b1 b2 b3 : Byte) : Word := b3 ++ b2 ++ b1 ++ b0

/-- The marker "HUFF" (20_memory.md R48). -/
def containerMarker : List Byte := [0x48#8, 0x55#8, 0x46#8, 0x46#8]

/-- The version byte (20_memory.md R48). -/
def containerVersion : Byte := 0x01#8

/-- The header's size in bytes (20_memory.md R48). -/
def headerSize : Nat := 1034

/-- The bytes of a container (20_memory.md R48). -/
def serialize (c : Container) : List Byte :=
  containerMarker ++ [containerVersion] ++ le32 c.origLen ++ [c.pad] ++ c.counts.flatMap le32 ++ c.stream

/-- The byte at an offset of a container that is at least that long. -/
def byteAt (bytes : List Byte) (off : Nat) : Byte := bytes[off]?.getD 0

/-- The u32 at an offset of a container that is long enough. -/
def wordAt (bytes : List Byte) (off : Nat) : Word :=
  ofLe32 (byteAt bytes off) (byteAt bytes (off + 1)) (byteAt bytes (off + 2)) (byteAt bytes (off + 3))

/-- The host's checks (20_memory.md R52): the first that fails. -/
def checkContainer (bytes : List Byte) : Option ContainerFault :=
  if bytes.length < headerSize then some .shorterThanHeader
  else if bytes.take 4 ≠ containerMarker then some .badMarker
  else if byteAt bytes 4 ≠ containerVersion then some .badVersion
  else if (byteAt bytes 9).toNat > 7 then some .badPadCount
  else if bytes.length = headerSize ∧ byteAt bytes 9 ≠ 0 then some .padWithoutStream
  else none

/-- The fields of a container that passes the checks (20_memory.md R48). -/
def parseContainer (bytes : List Byte) : Except ContainerFault Container :=
  match checkContainer bytes with
  | some e => .error e
  | none =>
    .ok { origLen := wordAt bytes 5, pad := byteAt bytes 9,
          counts := (List.range 256).map fun k => wordAt bytes (10 + 4 * k),
          stream := bytes.drop headerSize }

/-- The container's size in bytes from BITCNT after FINAL (20_memory.md R51). -/
def compressedSize (bitcnt : BitVec 64) : Nat := headerSize + (bitcnt.toNat + 7) / 8

end Sys2Proof.Machine
end

