-- ==== Sys2Proof/Machine/HostProgram.lean ====
section
/-! DEFINITION. The lines of a host program and the accesses they stand for (30_encoding.md R69, R70), and running them. -/

namespace Sys2Proof.Machine

/-- A line of a host program (30_encoding.md R69) or a pseudo-instruction (R70). -/
inductive HostLine where
  | wr (r : Reg) (v : Word)
  | rd (r : Reg)
  | command (i : Instr)
  | haddv (s : Byte) (v : Word)
  | setlenv (v : Word)
  | setpadv (p : Word)
  | popb
  | wait
  | feeds (text : List Byte)
  | encs (text : List Byte)
deriving DecidableEq, Repr

/-- WR reg, v (30_encoding.md R69). -/
def wrAccess (r : Reg) (v : Word) : Access := .write .word (regOffset r) v

/-- RD reg (30_encoding.md R69). -/
def rdAccess (r : Reg) : Access := .read .word (regOffset r)

/-- A mnemonic: WR CMD, word (30_encoding.md R69). -/
def cmdAccess (i : Instr) : Access := wrAccess .cmd (encode i)

/-- The accesses of a line (30_encoding.md R69, R70). WAIT is one RD STATUS in the model. -/
def expandLine : HostLine → List Access
  | .wr r v => [wrAccess r v]
  | .rd r => [rdAccess r]
  | .command i => [cmdAccess i]
  | .haddv s v => [wrAccess .arg v, cmdAccess (.hadd s)]
  | .setlenv v => [wrAccess .arg v, cmdAccess .setlen]
  | .setpadv p => [wrAccess .arg p, cmdAccess .setpad]
  | .popb => [cmdAccess .pop, rdAccess .result]
  | .wait => [rdAccess .status]
  | .feeds text => text.map fun b => cmdAccess (.feed b)
  | .encs text => text.map fun b => cmdAccess (.enc b)

/-- The accesses of a program, in order (30_encoding.md R69). -/
def expandProgram (p : List HostLine) : List Access := p.flatMap expandLine

/-- `n` steps of the machine, stopping at the first fault or refusal. -/
def runSteps : Nat → State → Host.Outcome State Fault Refusal
  | 0, s => .next s
  | n + 1, s =>
    match step s with
    | .next t => runSteps n t
    | .fault f => .fault f
    | .refused r => .refused r

/-- A host program run from a state, its accesses being the host's only pending ones. -/
def runProgram (p : List HostLine) (s : State) : Host.Outcome State Fault Refusal :=
  runSteps (expandProgram p).length { s with bus := expandProgram p }

/-- A sequence of decoded commands, each issued after the one before it has completed (20_memory.md R53). -/
def execAll : List Instr → State → Host.Outcome State Fault Refusal
  | [], s => .next s
  | i :: is, s =>
    match exec i s with
    | .next t => execAll is t
    | .fault f => .fault f
    | .refused r => .refused r

end Sys2Proof.Machine
end

