-- ==== Sys2Proof/Machine/HostProcedures.lean ====
section
/-! DEFINITION. The host procedures Compress (P1) and Decompress (P2) of 95_test_vectors.md, which 44_decode.md R101 refers
to: host software that drives the block through its window only (entry 13). Each loop that polls STATUS is a recursion on
a bound it cannot reach (OUT_COUNT is 8 bits). -/

namespace Sys2Proof.Machine

/-- One access of the host, performed by one step; none where the step does not answer a next state. -/
def hostAccess (a : Access) (s : State) : Option State :=
  match step { s with bus := [a] } with
  | .next t => some t
  | .fault _ => none
  | .refused _ => none

/-- WR reg, v. -/
def hostWrite (r : Reg) (v : Word) (s : State) : Option State := hostAccess (wrAccess r v) s

/-- A command. -/
def hostCommand (i : Instr) (s : State) : Option State := hostAccess (cmdAccess i) s

/-- RD reg: the value the read returned. -/
def hostRead (r : Reg) (s : State) : Option (Word × State) :=
  (hostAccess (rdAccess r) s).map fun t => (t.observed.getLast?.getD 0, t)

/-- One command for each symbol of a list, in order. -/
def hostCommands (f : Byte → Instr) : List Byte → State → Option State
  | [], s => some s
  | b :: bs, s => (hostCommand (f b) s).bind (hostCommands f bs)

/-- OUT_COUNT in a STATUS word (10_state.md R18). -/
def outCountOf (status : Word) : Nat := (status.extractLsb' 8 8).toNat

/-- while STATUS.OUT_COUNT > limit: POPB, append RESULT[7:0]. -/
def hostDrain (limit : Nat) : Nat → List Byte → State → Option (List Byte × State)
  | 0, out, s => some (out, s)
  | fuel + 1, out, s =>
    (hostRead .status s).bind fun (status, s1) =>
      if outCountOf status > limit then
        (hostCommand .pop s1).bind fun s2 =>
          (hostRead .result s2).bind fun (v, s3) => hostDrain limit fuel (out ++ [v.extractLsb' 0 8]) s3
      else some (out, s1)

/-- for s in 0..255: HRD s; RD RESULT. -/
def hostReadCounts : List Nat → List Word → State → Option (List Word × State)
  | [], acc, s => some (acc, s)
  | k :: ks, acc, s =>
    (hostCommand (.hrd (BitVec.ofNat 8 k)) s).bind fun s1 =>
      (hostRead .result s1).bind fun (v, s2) => hostReadCounts ks (acc ++ [v]) s2

/-- One command for each byte of a list, the FIFO drained to `limit` before each (P1, P2). -/
def hostStream (limit : Nat) (f : Byte → Instr) : List Byte → List Byte → State → Option (List Byte × State)
  | [], out, s => some (out, s)
  | b :: bs, out, s =>
    (hostDrain limit 256 out s).bind fun (out1, s1) =>
      (hostCommand (f b) s1).bind fun s2 => hostStream limit f bs out1 s2

/-- The kinds of error a caller is told (60_exceptions.md R106, R111). The first three are the document's own; the last two
are what R106 calls the other codes. `ioError` is the host's: it never reaches the block, and no code of the block has it. -/
inductive DocumentKind where
  | ioError | corruptContainer | truncatedStream | inputTooLarge | programmingError
deriving DecidableEq, Repr

/-- What the host is doing when the block reports an error: R106 gives OVERFLOW a kind for each. -/
inductive HostTask where
  | compressing | loadingContainer
deriving DecidableEq, Repr

/-- The document's kind of a value of ERRCODE (60_exceptions.md R106, R111): none for NONE and the reserved codes. -/
def documentKind (task : HostTask) (errcode : Word) : Option DocumentKind :=
  match errcode with
  | 1#32 => some .programmingError
  | 2#32 => some .programmingError
  | 3#32 =>
    match task with
    | .loadingContainer => some .corruptContainer
    | .compressing => some .inputTooLarge
  | 4#32 => some .corruptContainer
  | 5#32 => some .truncatedStream
  | 6#32 => some .programmingError
  | 7#32 => some .programmingError
  | 8#32 => some .programmingError
  | 9#32 => some .programmingError
  | _ => none

/-- The end of a host procedure: the bytes; or the error the block reports, as its kind with the ERRCODE and the ERRCMD the
block supplies as context (60_exceptions.md R111); or the structural check a container fails (20_memory.md R52). -/
inductive HostEnd where
  | ok (bytes : List Byte)
  | failed (kind : Option DocumentKind) (errcode errcmd : Word)
  | badContainer (e : ContainerFault)
deriving DecidableEq, Repr

/-- The kind of error a procedure ends with, none if it ends well: every failed structural check is a CorruptContainer
condition (20_memory.md R52, 60_exceptions.md R111). -/
def HostEnd.errorKind : HostEnd → Option DocumentKind
  | .ok _ => none
  | .failed kind _ _ => kind
  | .badContainer _ => some .corruptContainer

/-- RD STATUS: with ERR = 1 everything is discarded and the error reported with its kind (60_exceptions.md R111), otherwise
`good` goes on. -/
def hostFinish (task : HostTask) (s : State) (good : State → Option HostEnd) : Option HostEnd :=
  (hostRead .status s).bind fun (status, s1) =>
    if status.getLsbD 4 then
      (hostRead .errcode s1).bind fun (e, s2) =>
        (hostRead .errcmd s2).map fun (c, _) => .failed (documentKind task e) e c
    else good s1

/-- P1, Compress (95_test_vectors.md). -/
def compress (bytes : List Byte) (s : State) : Option HostEnd :=
  (hostCommand .clear s).bind fun s =>
  (hostRead .status s).bind fun (_, s) =>
  (hostCommands .feed bytes s).bind fun s =>
  (hostCommand .builde s).bind fun s =>
  (hostReadCounts (List.range 256) [] s).bind fun (counts, s) =>
  (hostStream 32 .enc bytes [] s).bind fun (out, s) =>
  (hostDrain 32 256 out s).bind fun (out, s) =>
  (hostCommand .final s).bind fun s =>
  (hostDrain 0 256 out s).bind fun (out, s) =>
  hostFinish .compressing s fun s =>
    (hostRead .total s).bind fun (origLen, s) =>
    (hostRead .pad s).map fun (pad, _) =>
      .ok (serialize { origLen := origLen, pad := pad.extractLsb' 0 8, counts := counts, stream := out })

/-- for s in 0..255 with count[s] ≠ 0: HADDV s, count[s] (P2). -/
def hostLoadCounts : List (Nat × Word) → State → Option State
  | [], s => some s
  | (k, v) :: rest, s =>
    if v = 0 then hostLoadCounts rest s
    else
      (hostWrite .arg v s).bind fun s1 =>
        (hostCommand (.hadd (BitVec.ofNat 8 k)) s1).bind (hostLoadCounts rest)

/-- The stream of P2: DEND if it is empty, otherwise DFEED for every byte but the last and DLAST for the last. -/
def hostFeedStream (stream : List Byte) (s : State) : Option (List Byte × State) :=
  match stream.getLast? with
  | none => (hostCommand .dend s).map fun s => ([], s)
  | some last =>
    (hostStream 56 .dfeed stream.dropLast [] s).bind fun (out, s) =>
    (hostDrain 56 256 out s).bind fun (out, s) =>
    (hostCommand (.dlast last) s).map fun s => (out, s)

/-- P2, Decompress (95_test_vectors.md): ERRCODE 4 or 3 is reported as CorruptContainer, 5 as TruncatedStream. -/
def decompress (bytes : List Byte) (s : State) : Option HostEnd :=
  match parseContainer bytes with
  | .error e => some (.badContainer e)
  | .ok c =>
    (hostCommand .clear s).bind fun s =>
    (hostRead .status s).bind fun (_, s) =>
    (hostLoadCounts ((List.range 256).zip c.counts) s).bind fun s =>
    (hostWrite .arg c.origLen s).bind fun s =>
    (hostCommand .setlen s).bind fun s =>
    (hostWrite .arg (c.pad.setWidth 32) s).bind fun s =>
    (hostCommand .setpad s).bind fun s =>
    (hostCommand .buildd s).bind fun s =>
    (hostFeedStream c.stream s).bind fun (out, s) =>
    (hostDrain 0 256 out s).bind fun (out, s) =>
    hostFinish .loadingContainer s fun _ => some (.ok out)

end Sys2Proof.Machine
end

