-- ==== Sys2Proof/Safety.lean ====
section
/-! DEFINITION. What counts as a safe run: the invariant of the machine, the paths of
its tree, and how a run ends (70_reset_and_hazards.md R123). -/

namespace Sys2Proof.Machine

/-- A reference names an internal node of the arena. -/
def isInternal (t : TreeMem) (r : NodeRef) : Bool :=
  match r.map (nodeAt t) with
  | some (.internal _ _ _) => true
  | _ => false

/-- The bits `p` lead from a node reference to the leaf of `b`: 0 descends left, 1 descends right (42_tree_build.md R88,
40_control.md R76). -/
inductive CodePath (t : TreeMem) : NodeRef → List Bool → Byte → Prop
  | leaf {i : NodeIdx} {b : Byte} {w : Word} (h : nodeAt t i = .leaf b w) : CodePath t (some i) [] b
  | left {i : NodeIdx} {w : Word} {l r : NodeRef} {p : List Bool} {b : Byte} (h : nodeAt t i = .internal w l r)
      (hp : CodePath t l p b) : CodePath t (some i) (false :: p) b
  | right {i : NodeIdx} {w : Word} {l r : NodeRef} {p : List Bool} {b : Byte} (h : nodeAt t i = .internal w l r)
      (hp : CodePath t r p b) : CodePath t (some i) (true :: p) b

/-- The bits `p` lead from one node reference to another: 0 descends left, 1 descends right (40_control.md R76). -/
inductive NodePath (t : TreeMem) : NodeRef → List Bool → NodeRef → Prop
  | here (r : NodeRef) : NodePath t r [] r
  | left {i : NodeIdx} {w : Word} {l r q : NodeRef} {p : List Bool} (h : nodeAt t i = .internal w l r)
      (hp : NodePath t l p q) : NodePath t (some i) (false :: p) q
  | right {i : NodeIdx} {w : Word} {l r q : NodeRef} {p : List Bool} (h : nodeAt t i = .internal w l r)
      (hp : NodePath t r p q) : NodePath t (some i) (true :: p) q

/-- The phases in which a tree is built (20_memory.md R56). -/
def treeBuilt : Phase → Bool
  | .encode | .encDone | .decode | .decDone => true
  | .load | .error => false

/-- What holds of every state a run reaches. -/
structure Inv (s : State) : Prop where
  /-- R24: TOTAL always equals the sum of HIST. -/
  totalIsSum : s.total.toNat = (s.hist.toList.map BitVec.toNat).sum
  /-- R26: SYMCNT never exceeds ORIG_LEN. -/
  symcntBound : s.symcnt.toNat ≤ s.origLen.toNat
  /-- R19: ERRCODE is nonzero exactly while PHASE = ERROR. -/
  errcodeIff : s.errcode = .none ↔ s.phase ≠ .error
  /-- R112: the BUSY error has no instance in the model. -/
  noBusyError : s.errcode ≠ .busy
  /-- R29: STATUS.BUSY reads 0. -/
  notBusy : s.busy = false
  /-- R36: the FIFO holds up to OUT_DEPTH bytes. -/
  fifoBound : s.fifo.length ≤ Config.outDepth
  /-- R33: the heap is empty between commands. -/
  heapEmpty : s.tree.hs = 0
  /-- R32, R92: at most 511 nodes are in use. -/
  arenaBound : s.tree.nn ≤ Config.arenaCap
  /-- R37: the bits of BITBUF below the fill are 0. -/
  packerClear : ∀ j, j < 8 - s.fill.toNat → s.bitbuf.getLsbD j = false
  /-- R40, R75: LOAD is entered only through reset or CLEAR. -/
  loadFresh : s.phase = .load →
    s.fifo = [] ∧ s.ctValid = false ∧ s.excess = false ∧ s.symcnt = 0 ∧ s.bitcnt = 0 ∧ s.fill = 0 ∧ s.tree.nn = 0 ∧
      s.tree.root = none ∧ s.cur = none
  /-- R56: while a tree is built it is the tree of the current HIST. -/
  treeOfHist : treeBuilt s.phase = true → ∃ t, s.tree = buildTree s.hist t
  /-- R18, R30: CT_VALID is 1 when the code table holds the codes of the current tree. -/
  codesOfTree : s.ctValid = true → s.codes = genCodes s.tree
  /-- R89, R37 (entry 11): in ENCODE the table is valid, ORIG_LEN is TOTAL, and FILL is BITCNT mod 8. -/
  encodePhase : s.phase = .encode → s.ctValid = true ∧ s.origLen = s.total ∧ s.fill.toNat = s.bitcnt.toNat % 8
  /-- R94: in ENC_DONE every symbol is encoded and the partial byte is flushed. -/
  encDonePhase : s.phase = .encDone → s.ctValid = true ∧ s.symcnt = s.origLen ∧ s.fill = 0
  /-- R90: in DECODE the declared length is the histogram sum and no code table is valid. -/
  decodePhase : s.phase = .decode → s.ctValid = false ∧ s.origLen = s.total
  /-- R96, R38: while symbols can be outstanding, CUR and ROOT are internal nodes, and CUR is the node that bits lead to
  from ROOT. -/
  walkReady : s.phase = .decode → s.origLen ≠ 0 →
    isInternal s.tree s.cur = true ∧ isInternal s.tree s.tree.root = true ∧ ∃ p, NodePath s.tree s.tree.root p s.cur
  /-- R99, R100: in DEC_DONE every symbol is decoded. -/
  decDonePhase : s.phase = .decDone → s.ctValid = false ∧ s.symcnt = s.origLen

/-- How a run of a host program ended (70_reset_and_hazards.md R123). `notDrained` is a finished stream whose bytes are
not all popped, and `notStarted` a run that ends in LOAD: R123 names neither. -/
inductive RunOutcome where
  | succeeded | failed | unfinished | notDrained | notStarted
deriving DecidableEq, Repr

/-- The outcome of a run that ends in a state (70_reset_and_hazards.md R123). -/
def runOutcome (s : State) : RunOutcome :=
  match s.phase with
  | .encDone | .decDone => if s.errcode = .none ∧ s.fifo = [] then .succeeded else .notDrained
  | .error => .failed
  | .encode | .decode => .unfinished
  | .load => .notStarted

end Sys2Proof.Machine
end

