-- ==== Sys2Proof/Certificates/Slice0/Obligations.lean ====
section
/-! DEFINITION. The statements about the machine, from the numbered rules of the spec, and the words they are written in. -/

namespace Sys2Proof.Claims

open Sys2Proof.Machine

/-- The state with an error recorded (60_exceptions.md R107): ERRCODE, ERRCMD and PHASE, nothing else. -/
def errorRecorded (e : ErrCode) (c : Word) (s : State) : State := { s with errcode := e, errcmd := c, phase := .error }

/-- Every byte value, in ascending order. -/
def allBytes : List Byte := (List.range 256).map (BitVec.ofNat 8)

/-- The weight of an internal node, 0 for a leaf. -/
def internalWeight : Node → Nat
  | .leaf _ _ => 0
  | .internal w _ _ => w.toNat

/-- Every phase (10_state.md R28). -/
def allPhases : List Phase := [.load, .encode, .encDone, .decode, .decDone, .error]

/-- The rule of a command (40_control.md R72, R73): its word decodes to it and encodes it; in the phases that accept it
it takes its whole effect where none of its checks fails, and records the failing check's error where one does; in any
other phase it raises SEQUENCE, and in ERROR it is ignored. -/
def CommandRule (i : Instr) (word : Word) (phases : List Phase) (fails : State → Option ErrCode)
    (effect : State → State) : Prop :=
  encode i = word ∧ decode word = .ok i ∧
  (∀ s, s.phase ∈ phases → fails s = none → exec i s = .next (effect s)) ∧
  (∀ s e, s.phase ∈ phases → fails s = some e → exec i s = .next (errorRecorded e word s)) ∧
  (∀ s, s.phase ∉ phases → s.phase ≠ .error → exec i s = .next (errorRecorded .sequence word s)) ∧
  (∀ s, s.phase ∉ phases → s.phase = .error → exec i s = .next s)

/-- A format B word: the opcode's word with S in bits [7:0] (30_encoding.md R61). -/
def withS (base : Word) (b : Byte) : Word := base ||| b.setWidth 32

/-- The rows of spec/opcode_table.json: match and mask. -/
def opcodeTable : List (Word × Word) :=
  [(0x00000000#32, 0xFFFFFFFF#32), (0x01000000#32, 0xFFFFFFFF#32), (0x10000000#32, 0xFFFFFF00#32),
   (0x11000000#32, 0xFFFFFF00#32), (0x12000000#32, 0xFFFFFFFF#32), (0x13000000#32, 0xFFFFFFFF#32),
   (0x20000000#32, 0xFFFFFFFF#32), (0x21000000#32, 0xFFFFFFFF#32), (0x30000000#32, 0xFFFFFF00#32),
   (0x31000000#32, 0xFFFFFFFF#32), (0x40000000#32, 0xFFFFFF00#32), (0x41000000#32, 0xFFFFFF00#32),
   (0x42000000#32, 0xFFFFFFFF#32), (0x50000000#32, 0xFFFFFF00#32), (0x51000000#32, 0xFFFFFF00#32),
   (0x52000000#32, 0xFFFFF800#32), (0x53000000#32, 0xFFFFFFFF#32)]

/-- The values of 10_state.md R40, for every piece of state whose value R40 specifies. -/
def ResetValues (s : State) : Prop :=
  s.errcode = .none ∧ s.errcmd = 0 ∧ s.arg = 0 ∧ s.result = 0 ∧ s.total = 0 ∧ s.origLen = 0 ∧ s.symcnt = 0 ∧
  s.pad = 0 ∧ s.bitcnt = 0 ∧ s.phase = .load ∧ s.busy = false ∧ s.ctValid = false ∧ s.excess = false ∧
  (∀ b, histAt s b = 0) ∧ s.tree.nn = 0 ∧ s.tree.hs = 0 ∧ s.tree.root = none ∧ s.cur = none ∧ s.fifo = [] ∧
  s.bitbuf = 0 ∧ s.fill = 0

/-- The registers of 10_state.md R40 that are no state of their own read their values. -/
def ResetReads (s : State) : Prop :=
  readReg .id s = 0x48554631#32 ∧ readReg .params s = 0xFF20FF40#32 ∧ readReg .status s = 0#32 ∧ readReg .nsym s = 0#32

/-- The number of an error code (60_exceptions.md R106). -/
def errorNumber : ErrCode → Word
  | .none => 0#32
  | .illegal => 1#32
  | .sequence => 2#32
  | .overflow => 3#32
  | .corrupt => 4#32
  | .truncated => 5#32
  | .noCode => 6#32
  | .length => 7#32
  | .overrun => 8#32
  | .busy => 9#32

/-- What a read of each offset returns (20_memory.md R44, 10_state.md R15 to R27). -/
def windowReads (s : State) : List (Byte × Word) :=
  [(0x00#8, 0x48554631#32), (0x04#8, 0xFF20FF40#32), (0x08#8, statusWord s),
   (0x0C#8, errorNumber s.errcode), (0x10#8, s.errcmd), (0x14#8, s.arg), (0x18#8, 0#32),
   (0x1C#8, s.result), (0x20#8, s.total), (0x24#8, s.origLen), (0x28#8, s.symcnt),
   (0x2C#8, BitVec.ofNat 32 ((List.range 256).countP fun k => histAt s (BitVec.ofNat 8 k) != 0)),
   (0x30#8, s.pad.setWidth 32), (0x34#8, s.bitcnt.setWidth 32), (0x38#8, (s.bitcnt >>> 32).setWidth 32)]

/-- A merge of two trees of the heap: INTERNAL, the summed weight, the first left and the second right (42_tree_build.md
R84). -/
def joined (t : TreeMem) (a b : NodeIdx) : Node :=
  .internal (nodeWeight (nodeAt t a) + nodeWeight (nodeAt t b)) (some a) (some b)

/-- The count of a symbol in a histogram. -/
def countAt (h : Vector Word 256) (b : Byte) : Word := h[b.toNat]'b.isLt

/-- The counted symbols of a histogram in ascending byte order (42_tree_build.md R84). -/
def countedList (h : Vector Word 256) : List Byte := allBytes.filter fun b => countAt h b != 0

/-- The leaves of a histogram inserted one by one, in ascending byte order, into the empty arena and heap (42_tree_build.md
R84, D7). -/
def leafHeap (h : Vector Word 256) (t : TreeMem) : TreeMem :=
  (countedList h).foldl (fun u b => insertNew (.leaf b (countAt h b)) u) { t with nn := 0, hs := 0 }

/-- The heap order (10_state.md R33): parent weight ≤ both children's weights, the parent of slot i > 0 being slot
(i - 1) div 2. -/
def HeapOrdered (t : TreeMem) : Prop :=
  ∀ i, 0 < i → i < t.hs → (slotWeight t ((i - 1) / 2)).toNat ≤ (slotWeight t i).toNat

/-- The live heap entries, slot 0 first. -/
def heapEntries (t : TreeMem) : List NodeIdx := (List.range t.hs).map (heapAt t)

/-- How many symbols a histogram counts. -/
def countedSymbols (h : Vector Word 256) : Nat := (List.range 256).countP fun k => countAt h (BitVec.ofNat 8 k) != 0

/-- The state a stream byte is unpacked from: EXCESS is set when no symbol is outstanding (44_decode.md R97). -/
def markExcess (s : State) : State := { s with excess := s.excess || decide (s.symcnt = s.origLen) }

/-- The bits of a message's codes, in order. -/
def codeString (c : CodeTable) (bs : List Byte) : List Bool := bs.flatMap (codeOf c)

/-- The symbol an ENC encodes. -/
def encodedByte : Instr → Option Byte
  | .enc b => some b
  | _ => none

/-- The byte the host takes from a command: after POP, RESULT[7:0] when its valid bit is 1 (45_readback.md R105). -/
def takenByte (i : Instr) (t : State) : List Byte :=
  if i = .pop ∧ t.result.getLsbD 8 = true then [t.result.extractLsb' 0 8] else []

/-- A sequence of commands, with the bytes the host takes by its POPs, in order. -/
def drained : List Instr → State → Option (List Byte × State)
  | [], s => some ([], s)
  | i :: is, s =>
    match exec i s with
    | .next t => (drained is t).map fun r => (takenByte i t ++ r.1, r.2)
    | .fault _ => none
    | .refused _ => none

/-- A line that adds to the histogram: FEED s, or HADDV s, v (41_histogram.md R83). -/
def countLine (p : Byte × Option Word) : HostLine :=
  match p.2 with
  | none => .command (.feed p.1)
  | some v => .haddv p.1 v

/-- What that line adds. -/
def countAmount (p : Byte × Option Word) : Nat :=
  match p.2 with
  | none => 1
  | some v => v.toNat

end Sys2Proof.Claims

open Sys2Proof Sys2Proof.Machine Sys2Proof.Claims

/-! ## Encoding -/

/-- 30_encoding.md R58 to R65: decoding the word of a command gives the command, with every operand at every value. -/
def Obligations.DecodeOfEncodeIsTheCommand : Prop := ∀ i : Instr, decode (encode i) = .ok i

/-- 30_encoding.md R65, R66: a command has one word only. -/
def Obligations.EncodeOfDecodeIsTheWord : Prop := ∀ (c : Word) (i : Instr), decode c = .ok i → encode i = c

/-- 30_encoding.md R66: a word is legal exactly if it matches a row of the opcode table, so every reserved opcode and
every nonzero reserved bit is illegal. -/
def Obligations.LegalWordsAreTheOpcodeTable : Prop :=
  ∀ c : Word, (∃ i, decode c = .ok i) ↔ ∃ row ∈ opcodeTable, c &&& row.2 = row.1

/-- 30_encoding.md R71: the worked encodings and the illegal words given there. -/
def Obligations.WorkedEncodings : Prop :=
  decode 0x00000000#32 = .ok .nop ∧ decode 0x01000000#32 = .ok .clear ∧ decode 0x10000041#32 = .ok (.feed 0x41#8) ∧
  decode 0x110000FF#32 = .ok (.hadd 0xFF#8) ∧ decode 0x12000000#32 = .ok .setlen ∧
  decode 0x13000000#32 = .ok .setpad ∧ decode 0x20000000#32 = .ok .builde ∧ decode 0x21000000#32 = .ok .buildd ∧
  decode 0x30000042#32 = .ok (.enc 0x42#8) ∧ decode 0x31000000#32 = .ok .final ∧
  decode 0x40000059#32 = .ok (.dfeed 0x59#8) ∧ decode 0x41000058#32 = .ok (.dlast 0x58#8) ∧
  decode 0x42000000#32 = .ok .dend ∧ decode 0x50000052#32 = .ok (.hrd 0x52#8) ∧
  decode 0x51000043#32 = .ok (.clrd 0x43#8) ∧ decode 0x52000743#32 = .ok (.cbrd 0x43#8 7#3) ∧
  decode 0x53000000#32 = .ok .pop ∧
  decode 0x10000141#32 = .error .reservedBits ∧ decode 0x00000001#32 = .error .reservedBits ∧
  decode 0x02000000#32 = .error .reservedOpcode ∧ decode 0x52000843#32 = .error .reservedBits

/-! ## The register window and the step -/

/-- 40_control.md R72, 10_state.md R22: a write of a legal word to CMD runs its command, the access being taken off the
host's pending accesses. The host's `withFetchWord` places exactly such a write. -/
def Obligations.StepRunsTheDecodedCommand : Prop :=
  (∀ (s : State) (c : Word) (i : Instr) (rest : List Access), s.busy = false →
    s.bus = .write .word 0x18#8 c :: rest → decode c = .ok i → step s = exec i { s with bus := rest }) ∧
  (∀ (s : State) (w : Nat) (i : Instr), decode (BitVec.ofNat 32 w) = .ok i →
    step (s.withFetchWord 32 w) = exec i { s with busy := false })

/-- 30_encoding.md R65, 60_exceptions.md R107, R108: an illegal word written to CMD raises ILLEGAL, and in ERROR it is
ignored. -/
def Obligations.IllegalWordRaisesIllegal : Prop :=
  ∀ (s : State) (c : Word) (rest : List Access), s.busy = false → s.bus = .write .word 0x18#8 c :: rest →
    (∀ i, decode c ≠ .ok i) →
    (s.phase ≠ .error → step s = .next (errorRecorded .illegal c { s with bus := rest })) ∧
    (s.phase = .error → step s = .next { s with bus := rest })

/-- 20_memory.md R44: what a read and a write of each offset do. -/
def Obligations.WindowAccessEffects : Prop :=
  (∀ (s : State) (off : Byte) (v : Word) (rest : List Access), s.busy = false → (off, v) ∈ windowReads s →
    s.bus = .read .word off :: rest → step s = .next { s with bus := rest, observed := s.observed ++ [v] }) ∧
  (∀ (s : State) (off : Byte) (rest : List Access), s.busy = false → off.toNat % 4 = 0 →
    (off.toNat = 0x3C ∨ 0x40 ≤ off.toNat) →
    s.bus = .read .word off :: rest → step s = .next { s with bus := rest, observed := s.observed ++ [0#32] }) ∧
  (∀ (s : State) (off : Byte) (v : Word) (rest : List Access), off.toNat % 4 = 0 → off ≠ 0x14#8 → off ≠ 0x18#8 →
    s.bus = .write .word off v :: rest → step s = .next { s with bus := rest }) ∧
  (∀ (s : State) (v : Word) (rest : List Access), s.busy = false → s.bus = .write .word 0x14#8 v :: rest →
    step s = .next { s with bus := rest, arg := v }) ∧
  (∀ (s : State) (v : Word) (i : Instr) (rest : List Access), s.busy = false → decode v = .ok i →
    s.bus = .write .word 0x18#8 v :: rest → step s = exec i { s with bus := rest })

/-- 10_state.md R18, R28: the fields of STATUS. -/
def Obligations.StatusFields : Prop :=
  ∀ s : State,
    (s.phase = .load → (statusWord s).extractLsb' 0 3 = 0#3) ∧ (s.phase = .encode → (statusWord s).extractLsb' 0 3 = 1#3) ∧
    (s.phase = .encDone → (statusWord s).extractLsb' 0 3 = 2#3) ∧
    (s.phase = .decode → (statusWord s).extractLsb' 0 3 = 3#3) ∧
    (s.phase = .decDone → (statusWord s).extractLsb' 0 3 = 4#3) ∧
    (s.phase = .error → (statusWord s).extractLsb' 0 3 = 7#3) ∧
    (statusWord s).getLsbD 3 = s.busy ∧ ((statusWord s).getLsbD 4 = true ↔ s.phase = .error) ∧
    (statusWord s).getLsbD 5 = s.ctValid ∧ (statusWord s).getLsbD 6 = s.excess ∧ (statusWord s).getLsbD 7 = false ∧
    (s.fifo.length ≤ 64 → ((statusWord s).extractLsb' 8 8).toNat = s.fifo.length) ∧
    (statusWord s).extractLsb' 16 16 = 0#16

/-- 20_memory.md R45: a read changes nothing of the block, and reading an offset twice gives one value. -/
def Obligations.ReadsHaveNoSideEffect : Prop :=
  ∀ (s : State) (off : Byte) (rest : List Access), s.busy = false → off.toNat % 4 = 0 →
    s.bus = .read .word off :: .read .word off :: rest →
    ∃ v, runSteps 1 s = .next { s with bus := .read .word off :: rest, observed := s.observed ++ [v] } ∧
      runSteps 2 s = .next { s with bus := rest, observed := s.observed ++ [v, v] }

/-- 20_memory.md R43: an access that is not 32 bits wide, or not at a multiple of 4, is refused. -/
def Obligations.NarrowOrMisalignedAccessIsRefused : Prop :=
  ∀ (s : State) (w : Width) (off : Byte) (v : Word) (rest : List Access), (w ≠ .word ∨ off.toNat % 4 ≠ 0) →
    (s.bus = .read w off :: rest → step s = .refused .accessNotAdmitted) ∧
    (s.bus = .write w off v :: rest → step s = .refused .accessNotAdmitted)

/-- 70_reset_and_hazards.md R119: while BUSY = 1 a write of CMD or ARG is refused, and ID, PARAMS and STATUS are still
read; any other read completes with an unspecified value, so only its frame is stated (entries 3 and 4). -/
def Obligations.BusyHazard : Prop :=
  ∀ (s : State) (off : Byte) (v : Word) (rest : List Access), s.busy = true →
    ((off = 0x14#8 ∨ off = 0x18#8) → s.bus = .write .word off v :: rest → step s = .refused .writeWhileBusy) ∧
    ((off = 0x00#8 ∨ off = 0x04#8 ∨ off = 0x08#8) → (off, v) ∈ windowReads s → s.bus = .read .word off :: rest →
      step s = .next { s with bus := rest, observed := s.observed ++ [v] }) ∧
    (off.toNat % 4 = 0 → s.bus = .read .word off :: rest →
      ∃ u n, step s = .next { s with bus := rest, observed := s.observed ++ [u], freeReads := n })

/-- 20_memory.md R47: byte REG_BASE + off + i carries bits [8i+7:8i] of the register at off. -/
def Obligations.WindowBytesAreLittleEndian : Prop :=
  ∀ (s : State) (off : Byte) (v : Word) (i : Nat), (off, v) ∈ windowReads s → i < 4 →
    busByte (Config.regBase + off.toNat + i) s = some (v.extractLsb' (8 * i) 8)

/-- 10_state.md R40, 70_reset_and_hazards.md R116: the value of every specified piece of state after reset, in the model's
reset state and after a reset access in any state. That the host's pending accesses and what it observed survive the reset
is the model's choice (entry 1). -/
def Obligations.StateAfterReset : Prop :=
  ResetValues State.reset ∧ ResetReads State.reset ∧
  ∀ (s : State) (rest : List Access), s.bus = .reset :: rest →
    ∃ t, step s = .next t ∧ ResetValues t ∧ ResetReads t ∧ t.bus = rest ∧ t.observed = s.observed

/-! ## The commands -/

/-- 40_control.md R74; a word with the opcode of NOP and any other bit set is illegal. -/
def Obligations.NopDoesNothing : Prop :=
  CommandRule .nop 0x00000000#32 allPhases (fun _ => none) (fun s => s) ∧
  ∀ c : Word, c.extractLsb' 24 8 = 0#8 → c ≠ 0#32 → ∀ i, decode c ≠ .ok i

/-- 40_control.md R75: the assignments of its pseudocode, and the values of R40 result. That NODE, H and the code table keep
their contents is the model's reading of what the pseudocode does not name (entry 10): 93_implementation_defined.md I4
leaves them at any value. -/
def Obligations.ClearReturnsToReset : Prop :=
  CommandRule .clear 0x01000000#32 allPhases (fun _ => none)
    (fun s => { s with
      hist := Vector.replicate 256 0#32, total := 0, origLen := 0, symcnt := 0, pad := 0, bitcnt := 0, arg := 0,
      result := 0, errcode := .none, errcmd := 0, tree := { s.tree with nn := 0, hs := 0, root := none }, cur := none,
      bitbuf := 0, fill := 0, fifo := [], ctValid := false, excess := false, phase := .load }) ∧
  ∀ s t, s.busy = false → exec .clear s = .next t → ResetValues t

/-- 41_histogram.md R78; in a state of the invariant NSYM grows by 1 when HIST[s] was 0, and HIST[s] cannot overflow. -/
def Obligations.FeedCountsOneSymbol : Prop :=
  ∀ b : Byte,
    CommandRule (.feed b) (withS 0x10000000#32 b) [.load]
      (fun s => if s.total = 0xFFFFFFFF#32 then some .overflow else none)
      (fun s => { s with hist := s.hist.set b.toNat (countAt s.hist b + 1) b.isLt, total := s.total + 1 }) ∧
    ∀ s : State, Inv s → s.phase = .load → s.total ≠ 0xFFFFFFFF#32 →
      (countAt s.hist b).toNat ≤ s.total.toNat ∧
      ∃ t, exec (.feed b) s = .next t ∧
        countedSymbols t.hist = countedSymbols s.hist + if countAt s.hist b = 0 then 1 else 0

/-- 41_histogram.md R79. -/
def Obligations.HaddMergesAPartialCount : Prop :=
  ∀ b : Byte, CommandRule (.hadd b) (withS 0x11000000#32 b) [.load]
    (fun s => if s.total.setWidth 33 + s.arg.setWidth 33 > 0xFFFFFFFF#33 then some .overflow else none)
    (fun s => { s with hist := s.hist.set b.toNat (countAt s.hist b + s.arg) b.isLt, total := s.total + s.arg })

/-- 41_histogram.md R80. -/
def Obligations.SetlenLoadsTheDeclaredLength : Prop :=
  CommandRule .setlen 0x12000000#32 [.load] (fun _ => none) (fun s => { s with origLen := s.arg })

/-- 41_histogram.md R81. -/
def Obligations.SetpadLoadsThePadCount : Prop :=
  CommandRule .setpad 0x13000000#32 [.load, .decode] (fun s => if s.arg > 7#32 then some .corrupt else none)
    (fun s => { s with pad := s.arg.setWidth 3 })

/-- 42_tree_build.md R89. That nodes at NN and above and heap slots at HS and above keep what they held is the model's
choice (entry 15). -/
def Obligations.BuildeEntersEncode : Prop :=
  CommandRule .builde 0x20000000#32 [.load] (fun _ => none)
    (fun s => { s with
      tree := buildTree s.hist s.tree, codes := genCodes (buildTree s.hist s.tree), origLen := s.total, symcnt := 0,
      bitcnt := 0, pad := 0, bitbuf := 0, fill := 0, cur := none, ctValid := true, phase := .encode })

/-- 42_tree_build.md R90. That the code table, nodes at NN and above and heap slots at HS and above keep what they held is
the model's choice (entry 15). -/
def Obligations.BuilddChecksTheLengthAndEntersDecode : Prop :=
  CommandRule .buildd 0x21000000#32 [.load] (fun s => if s.total ≠ s.origLen then some .corrupt else none)
    (fun s => { s with
      tree := buildTree s.hist s.tree, symcnt := 0, bitcnt := 0, cur := (buildTree s.hist s.tree).root,
      ctValid := false, phase := .decode })

/-- 43_encode.md R93: the bits P[L-1] down to P[0] go to the packer. -/
def Obligations.EncPacksTheCode : Prop :=
  ∀ b : Byte, CommandRule (.enc b) (withS 0x30000000#32 b) [.encode]
    (fun s =>
      if codeLenAt s.codes b = 0 then some .noCode
      else if s.symcnt = s.origLen then some .length
      else if 64 - s.fifo.length < 32 then some .overrun
      else none)
    (fun s =>
      { ((List.range (codeLenAt s.codes b).toNat).reverse.foldl
          (fun t j => putBit ((codePatAt s.codes b).getLsbD j) t) s) with symcnt := s.symcnt + 1 })

/-- 43_encode.md R94. -/
def Obligations.FinalFlushesThePartialByte : Prop :=
  CommandRule .final 0x31000000#32 [.encode]
    (fun s =>
      if s.symcnt ≠ s.origLen then some .length
      else if s.fill ≠ 0 ∧ s.fifo.length = 64 then some .overrun
      else none)
    (fun s =>
      if s.fill ≠ 0 then
        { s with pad := BitVec.ofNat 3 (8 - s.fill.toNat), fifo := s.fifo ++ [s.bitbuf], bitbuf := 0, fill := 0,
                 phase := .encDone }
      else { s with pad := 0, phase := .encDone })

/-- 44_decode.md R98, R97: OVERRUN first; otherwise the eight bits run through the walk, and where the walk raises, the
whole command is undone. The walk's fault is the model's own (entry 7). -/
def Obligations.DfeedUnpacksAByte : Prop :=
  ∀ b : Byte, encode (.dfeed b) = withS 0x40000000#32 b ∧
    (∀ s, s.phase = .decode → 64 - s.fifo.length < 8 →
      exec (.dfeed b) s = .next (errorRecorded .overrun (withS 0x40000000#32 b) s)) ∧
    (∀ s t, s.phase = .decode → 64 - s.fifo.length ≥ 8 →
      walkBits ([7, 6, 5, 4, 3, 2, 1, 0].map fun j => b.getLsbD j) (markExcess s) = .done t →
      exec (.dfeed b) s = .next t) ∧
    (∀ s e, s.phase = .decode → 64 - s.fifo.length ≥ 8 →
      walkBits ([7, 6, 5, 4, 3, 2, 1, 0].map fun j => b.getLsbD j) (markExcess s) = .raise e →
      exec (.dfeed b) s = .next (errorRecorded e (withS 0x40000000#32 b) s)) ∧
    (∀ s f, s.phase = .decode → 64 - s.fifo.length ≥ 8 →
      walkBits ([7, 6, 5, 4, 3, 2, 1, 0].map fun j => b.getLsbD j) (markExcess s) = .stuck f →
      exec (.dfeed b) s = .fault f) ∧
    (∀ s, s.phase ≠ .decode → s.phase ≠ .error →
      exec (.dfeed b) s = .next (errorRecorded .sequence (withS 0x40000000#32 b) s)) ∧
    (∀ s, s.phase = .error → exec (.dfeed b) s = .next s)

/-- 44_decode.md R99, R97: the first 8 - PAD bits run through the walk, then TRUNCATED while symbols are outstanding. The
walk's fault is the model's own (entry 7). -/
def Obligations.DlastUnpacksTheFinalByte : Prop :=
  ∀ b : Byte, encode (.dlast b) = withS 0x41000000#32 b ∧
    (∀ s, s.phase = .decode → 64 - s.fifo.length < 8 →
      exec (.dlast b) s = .next (errorRecorded .overrun (withS 0x41000000#32 b) s)) ∧
    (∀ s t, s.phase = .decode → 64 - s.fifo.length ≥ 8 →
      walkBits (([7, 6, 5, 4, 3, 2, 1, 0].map fun j => b.getLsbD j).take (8 - s.pad.toNat)) (markExcess s) = .done t →
      (t.symcnt.toNat < t.origLen.toNat →
        exec (.dlast b) s = .next (errorRecorded .truncated (withS 0x41000000#32 b) s)) ∧
      (t.symcnt.toNat ≥ t.origLen.toNat → exec (.dlast b) s = .next { t with phase := .decDone })) ∧
    (∀ s e, s.phase = .decode → 64 - s.fifo.length ≥ 8 →
      walkBits (([7, 6, 5, 4, 3, 2, 1, 0].map fun j => b.getLsbD j).take (8 - s.pad.toNat)) (markExcess s) = .raise e →
      exec (.dlast b) s = .next (errorRecorded e (withS 0x41000000#32 b) s)) ∧
    (∀ s f, s.phase = .decode → 64 - s.fifo.length ≥ 8 →
      walkBits (([7, 6, 5, 4, 3, 2, 1, 0].map fun j => b.getLsbD j).take (8 - s.pad.toNat)) (markExcess s) = .stuck f →
      exec (.dlast b) s = .fault f) ∧
    (∀ s, s.phase ≠ .decode → s.phase ≠ .error →
      exec (.dlast b) s = .next (errorRecorded .sequence (withS 0x41000000#32 b) s)) ∧
    (∀ s, s.phase = .error → exec (.dlast b) s = .next s)

/-- 44_decode.md R100. -/
def Obligations.DendEndsAStream : Prop :=
  CommandRule .dend 0x42000000#32 [.decode]
    (fun s => if s.symcnt.toNat < s.origLen.toNat then some .truncated else none)
    (fun s => { s with phase := .decDone })

/-- 45_readback.md R102. -/
def Obligations.HrdReadsAHistogramEntry : Prop :=
  ∀ b : Byte, CommandRule (.hrd b) (withS 0x50000000#32 b) allPhases (fun _ => none)
    (fun s => { s with result := countAt s.hist b })

/-- 45_readback.md R103. -/
def Obligations.ClrdReadsACodeLength : Prop :=
  ∀ b : Byte, CommandRule (.clrd b) (withS 0x51000000#32 b) allPhases (fun _ => none)
    (fun s => { s with result := if s.ctValid = true then (s.codes.len[b.toNat]'b.isLt).setWidth 32 else 0#32 })

/-- 45_readback.md R104: bits [32k+31:32k] of the pattern; a word with the opcode of CBRD and a bit of [23:11] set is
illegal. -/
def Obligations.CbrdReadsAPatternWord : Prop :=
  (∀ c : Word, c.extractLsb' 24 8 = 0x52#8 → c.extractLsb' 11 13 ≠ 0#13 → ∀ i, decode c ≠ .ok i) ∧
  ∀ (b : Byte) (k : BitVec 3),
    CommandRule (.cbrd b k) (withS 0x52000000#32 b ||| (k.setWidth 32 <<< 8)) allPhases (fun _ => none)
      (fun s => { s with
        result := if s.ctValid = true then ((s.codes.pat[b.toNat]'b.isLt) >>> (32 * k.toNat)).setWidth 32 else 0#32 })

/-- 45_readback.md R105. -/
def Obligations.PopTakesTheOldestByte : Prop :=
  CommandRule .pop 0x53000000#32 allPhases (fun _ => none)
    (fun s =>
      match s.fifo with
      | [] => { s with result := 0#32 }
      | b :: rest => { s with result := 0x100#32 ||| b.setWidth 32, fifo := rest })

/-! ## Histogram laws -/

/-- 41_histogram.md R82, the counting law: from a state with the reset values, feeding a byte sequence of at most
2^32 - 1 bytes counts it exactly. -/
def Obligations.FeedsCountTheSequence : Prop :=
  ∀ (s : State) (bs : List Byte), ResetValues s → bs.length ≤ 4294967295 →
    ∃ t, execAll (bs.map .feed) s = .next t ∧ (∀ b, (histAt t b).toNat = bs.count b) ∧ t.total.toNat = bs.length

/-- 41_histogram.md R83, the merge law: HADDs and FEEDs from a state with the reset values add up entry by entry, and
their order does not matter. -/
def Obligations.MergingPartialCountsAddsThem : Prop :=
  ∀ (s : State) (ps : List (Byte × Option Word)), ResetValues s → (ps.map countAmount).sum ≤ 4294967295 →
    ∃ t, runProgram (ps.map countLine) s = .next t ∧
      (∀ b, (histAt t b).toNat = ((ps.filter fun p => p.1 == b).map countAmount).sum) ∧
      t.total.toNat = (ps.map countAmount).sum ∧
      ∀ qs : List (Byte × Option Word), qs.Perm ps →
        ∃ u, runProgram (qs.map countLine) s = .next u ∧ u.hist = t.hist

/-! ## The tree and the codes -/

/-- 10_state.md R33, 42_tree_build.md R86, R87 (D8): HeapInsert and HeapExtractMin keep the heap order and add and remove one
entry, and the entry extracted is a lightest one. Turn by turn, a sift-up swaps only with a strictly heavier parent, the
left child is taken when the children are equal, and a sift-down swaps only with a strictly lighter child.
Where it gives whole tree memories, stale heap slots are kept: the model's choice (entry 15). The clauses without a bound on
HS say, beyond the 511 slots of the heap, only the model's choice (entry 8: a write there is dropped, a read gives index 0);
R86 has HS < HEAP_CAP at every insert. -/
def Obligations.HeapKeepsItsOrder : Prop :=
  (∀ t : TreeMem, HeapOrdered t →
    (∀ x, t.hs < 511 → HeapOrdered (heapInsert x t) ∧ (heapEntries (heapInsert x t)).Perm (x :: heapEntries t)) ∧
    (0 < t.hs → t.hs ≤ 511 → HeapOrdered (heapRemoveMin t) ∧
      (heapMin t :: heapEntries (heapRemoveMin t)).Perm (heapEntries t) ∧
      ∀ i ∈ heapEntries t, (nodeWeight (nodeAt t (heapMin t))).toNat ≤ (nodeWeight (nodeAt t i)).toNat)) ∧
  (∀ (t : TreeMem) (i j k : Nat), i < 511 → j < 511 →
    heapAt (swapHeap i j t) k = (if k = i then heapAt t j else if k = j then heapAt t i else heapAt t k) ∧
    swapHeap i j t = { t with heap := (swapHeap i j t).heap }) ∧
  (∀ (x : NodeIdx) (t : TreeMem),
    heapInsert x t = siftUp t.hs t.hs { t with heap := t.heap.setIfInBounds t.hs x, hs := t.hs + 1 } ∧
    (0 < t.hs → t.hs < 511 → (slotWeight t ((t.hs - 1) / 2)).toNat ≤ (nodeWeight (nodeAt t x)).toNat →
      heapAt (heapInsert x t) t.hs = x ∧ ∀ k, k < t.hs → heapAt (heapInsert x t) k = heapAt t k)) ∧
  (∀ (t : TreeMem) (fuel i : Nat),
    siftUp fuel 0 t = t ∧
    (0 < i → (slotWeight t i).toNat < (slotWeight t ((i - 1) / 2)).toNat →
      siftUp (fuel + 1) i t = siftUp fuel ((i - 1) / 2) (swapHeap ((i - 1) / 2) i t)) ∧
    ((slotWeight t ((i - 1) / 2)).toNat ≤ (slotWeight t i).toNat → siftUp fuel i t = t)) ∧
  (∀ (t : TreeMem) (i : Nat),
    (2 * i + 2 < t.hs → (slotWeight t (2 * i + 2)).toNat < (slotWeight t (2 * i + 1)).toNat →
      smallerChild t i = 2 * i + 2) ∧
    (2 * i + 2 < t.hs → (slotWeight t (2 * i + 1)).toNat ≤ (slotWeight t (2 * i + 2)).toNat →
      smallerChild t i = 2 * i + 1) ∧
    (t.hs ≤ 2 * i + 2 → smallerChild t i = 2 * i + 1)) ∧
  (∀ t : TreeMem,
    (1 < t.hs → heapRemoveMin t = siftDown (t.hs - 1) 0
      { t with heap := t.heap.setIfInBounds 0 (heapAt t (t.hs - 1)), hs := t.hs - 1 }) ∧
    (t.hs = 1 → heapRemoveMin t = { t with hs := 0 })) ∧
  (∀ (t : TreeMem) (fuel i : Nat),
    (t.hs ≤ 2 * i + 1 → siftDown fuel i t = t) ∧
    (2 * i + 1 < t.hs → (slotWeight t (smallerChild t i)).toNat < (slotWeight t i).toNat →
      siftDown (fuel + 1) i t = siftDown fuel (smallerChild t i) (swapHeap (smallerChild t i) i t)) ∧
    (2 * i + 1 < t.hs → (slotWeight t i).toNat ≤ (slotWeight t (smallerChild t i)).toNat → siftDown fuel i t = t))

/-- 42_tree_build.md R84: a merge takes the two lightest entries, in the order HeapExtractMin gives them, the first as left
child and the second as right, and inserts a new node of their summed weight; merges go on while HS > 1. Stale
heap slots and nodes at NN and above are kept: the model's choice (entry 15). -/
def Obligations.MergeTakesTheTwoLightest : Prop :=
  (∀ t : TreeMem, HeapOrdered t → 2 ≤ t.hs → t.hs ≤ 511 → t.nn < 511 → (∀ i ∈ heapEntries t, i.val < t.nn) →
    ∃ (a b : NodeIdx) (rest : List NodeIdx), a = heapMin t ∧ b = heapMin (heapRemoveMin t) ∧
      (heapEntries t).Perm (a :: b :: rest) ∧
      (nodeWeight (nodeAt t a)).toNat ≤ (nodeWeight (nodeAt t b)).toNat ∧
      (∀ i ∈ rest, (nodeWeight (nodeAt t b)).toNat ≤ (nodeWeight (nodeAt t i)).toNat) ∧
      (mergeStep t).nn = t.nn + 1 ∧
      (∀ i : NodeIdx, i.val = t.nn →
        nodeAt (mergeStep t) i = joined t a b ∧ (heapEntries (mergeStep t)).Perm (i :: rest) ∧
        mergeStep t = heapInsert i
          { heapRemoveMin (heapRemoveMin t) with node := t.node.set i.val (joined t a b) i.isLt, nn := t.nn + 1 }) ∧
      (∀ i : NodeIdx, i.val ≠ t.nn → nodeAt (mergeStep t) i = nodeAt t i) ∧ HeapOrdered (mergeStep t)) ∧
  ∀ (t : TreeMem) (fuel : Nat),
    (1 < t.hs → mergeAll (fuel + 1) t = mergeAll fuel (mergeStep t)) ∧ (t.hs ≤ 1 → mergeAll fuel t = t)

/-- 42_tree_build.md R84, R85 (D7, D36): the leaves take NODE[0] to NODE[n-1] and enter the heap in ascending byte order, and
with two or more the merges of that heap give the tree; the edge cases of BuildTree, whatever the tree memories held
before. Stale heap slots and nodes at NN and above are kept: the model's choice (entry 15). -/
def Obligations.BuildTreeEdgeCases : Prop :=
  ∀ (h : Vector Word 256) (t : TreeMem),
    ((∀ b, countAt h b = 0) → (buildTree h t).root = none ∧ (buildTree h t).nn = 0) ∧
    (∀ b, countAt h b ≠ 0 → (∀ a, a ≠ b → countAt h a = 0) →
      (buildTree h t).nn = 2 ∧ (buildTree h t).root = some 1 ∧
      nodeAt (buildTree h t) 0 = .leaf b (countAt h b) ∧
      nodeAt (buildTree h t) 1 = .internal (countAt h b) (some 0) none ∧
      codeOf (genCodes (buildTree h t)) b = [false]) ∧
    (2 ≤ countedSymbols h →
      (buildTree h t).nn = 2 * countedSymbols h - 1 ∧
      (∀ i : NodeIdx, i.val < (buildTree h t).nn → ∀ w l r, nodeAt (buildTree h t) i = .internal w l r →
        l ≠ none ∧ r ≠ none) ∧
      buildTree h t =
        { heapRemoveMin (mergeAll (countedSymbols h) (leafHeap h t)) with
          root := some (heapMin (mergeAll (countedSymbols h) (leafHeap h t))) }) ∧
    (∀ (i : NodeIdx) (b : Byte), (countedList h)[i.val]? = some b →
      nodeAt (leafHeap h t) i = .leaf b (countAt h b) ∧ nodeAt (buildTree h t) i = .leaf b (countAt h b)) ∧
    (leafHeap h t).nn = countedSymbols h ∧ (leafHeap h t).hs = countedSymbols h

/-- 42_tree_build.md R91 item 3: BuildTree and GenCodes depend on HIST alone, not on what the tree memories held. -/
def Obligations.BuildDependsOnTheHistogramAlone : Prop :=
  ∀ (h : Vector Word 256) (t u : TreeMem),
    (buildTree h t).nn = (buildTree h u).nn ∧ (buildTree h t).root = (buildTree h u).root ∧
    (∀ i : NodeIdx, i.val < (buildTree h t).nn → nodeAt (buildTree h t) i = nodeAt (buildTree h u) i) ∧
    genCodes (buildTree h t) = genCodes (buildTree h u)

/-- 42_tree_build.md R88, 10_state.md R35: the code of a counted symbol is its path from ROOT, 0 for left and 1 for
right, and the pattern is 0 above it. -/
def Obligations.CodesAreTheTreePaths : Prop :=
  ∀ (h : Vector Word 256) (t : TreeMem) (b : Byte), countAt h b ≠ 0 →
    CodePath (buildTree h t) (buildTree h t).root (codeOf (genCodes (buildTree h t)) b) b ∧
    ∀ j, (codeLenAt (genCodes (buildTree h t)) b).toNat ≤ j →
      (codePatAt (genCodes (buildTree h t)) b).getLsbD j = false

/-- 42_tree_build.md R91 item 1: no code is a prefix of another. -/
def Obligations.CodesArePrefixFree : Prop :=
  ∀ (h : Vector Word 256) (t : TreeMem) (a b : Byte), a ≠ b → countAt h a ≠ 0 → countAt h b ≠ 0 →
    ¬ codeOf (genCodes (buildTree h t)) a <+: codeOf (genCodes (buildTree h t)) b

/-- 42_tree_build.md R91 item 2: CODE_LEN[s] ≥ 1 exactly when HIST[s] ≠ 0. -/
def Obligations.ExactlyTheCountedSymbolsHaveCodes : Prop :=
  ∀ (h : Vector Word 256) (t : TreeMem) (b : Byte),
    1 ≤ (codeLenAt (genCodes (buildTree h t)) b).toNat ↔ countAt h b ≠ 0

/-- 42_tree_build.md R91 item 4: the Kraft sum is 1 with two or more symbols and 1/2 with one, in units of 2^-255. -/
def Obligations.KraftSumOfTheCodes : Prop :=
  ∀ (h : Vector Word 256) (t : TreeMem),
    (2 ≤ countedSymbols h →
      (allBytes.map fun b =>
        if countAt h b = 0 then 0 else 2 ^ (255 - (codeLenAt (genCodes (buildTree h t)) b).toNat)).sum = 2 ^ 255) ∧
    (countedSymbols h = 1 →
      (allBytes.map fun b =>
        if countAt h b = 0 then 0 else 2 ^ (255 - (codeLenAt (genCodes (buildTree h t)) b).toNat)).sum = 2 ^ 254)

/-- 42_tree_build.md R91 item 5: counts times code lengths add up to the weights of the internal nodes. -/
def Obligations.StreamLengthIsTheInternalWeight : Prop :=
  ∀ (h : Vector Word 256) (t : TreeMem), (allBytes.map fun b => (countAt h b).toNat).sum ≤ 4294967295 →
    (allBytes.map fun b => (countAt h b).toNat * (codeLenAt (genCodes (buildTree h t)) b).toNat).sum =
      (((List.finRange 511).filter fun i => decide (i.val < (buildTree h t).nn)).map fun i =>
        internalWeight (nodeAt (buildTree h t) i)).sum

/-! ## The packer and the walk -/

/-- 43_encode.md R95, PutBit: the bit goes to BITBUF[7 - FILL], every other bit of BITBUF stays, and a full byte is
pushed. -/
def Obligations.PutBitWritesOneBit : Prop :=
  ∀ (b : Bool) (s : State), ∃ buf : Byte,
    (∀ j, j < 8 → buf.getLsbD j = if j = 7 - s.fill.toNat then b else s.bitbuf.getLsbD j) ∧
    (s.fill = 7 → putBit b s = { s with bitcnt := s.bitcnt + 1, fifo := s.fifo ++ [buf], bitbuf := 0, fill := 0 }) ∧
    (s.fill ≠ 7 → putBit b s = { s with bitcnt := s.bitcnt + 1, bitbuf := buf, fill := s.fill + 1 })

/-- 43_encode.md R95, 20_memory.md R46, the packing law: from a state as BUILDE leaves it, ENCs and then FINAL without an
error, the host taking bytes by POPs wherever it likes, push the concatenated codes, most significant bit first, padded with
zeros: the bytes taken and the bytes left in the FIFO are those that were in it and then the stream. -/
def Obligations.EncsAndFinalPackTheCodes : Prop :=
  ∀ (s t : State) (is pops : List Instr) (out : List Byte), s.phase = .encode → s.symcnt = 0 → s.bitcnt = 0 →
    s.bitbuf = 0 → s.fill = 0 → (∀ i ∈ is, i = .pop ∨ ∃ b, i = .enc b) → (∀ i ∈ pops, i = .pop) →
    drained (is ++ .final :: pops) s = some (out, t) → t.phase = .encDone →
    ∃ ps : List Byte, out ++ t.fifo = s.fifo ++ ps ∧
      ps.length = ((codeString s.codes (is.filterMap encodedByte)).length + 7) / 8 ∧
      (∀ k j, k < ps.length → j < 8 →
        (ps[k]?.getD 0).getLsbD (7 - j) = (codeString s.codes (is.filterMap encodedByte))[8 * k + j]?.getD false) ∧
      t.bitcnt.toNat = (codeString s.codes (is.filterMap encodedByte)).length ∧
      t.pad.toNat = (8 - (codeString s.codes (is.filterMap encodedByte)).length % 8) % 8

/-- 44_decode.md R96: one step of the tree walk from an internal node. From anything else the model stops with the fault
`walkNotInternal`: its own choice (entry 7), for a case R96 derives never happens. -/
def Obligations.DecodeBitTakesOneStep : Prop :=
  (∀ (b : Bool) (s : State), isInternal s.tree s.cur = false → decodeBit b s = .stuck .walkNotInternal) ∧
  ∀ (b : Bool) (s : State) (i : NodeIdx) (w : Word) (l r : NodeRef), s.cur = some i →
    nodeAt s.tree i = .internal w l r →
    ((if b then r else l) = none → decodeBit b s = .raise .corrupt) ∧
    (∀ nxt sym v, (if b then r else l) = some nxt → nodeAt s.tree nxt = .leaf sym v →
      decodeBit b s = .done { s with bitcnt := s.bitcnt + 1, fifo := s.fifo ++ [sym], symcnt := s.symcnt + 1,
                                     cur := s.tree.root }) ∧
    (∀ nxt v l' r', (if b then r else l) = some nxt → nodeAt s.tree nxt = .internal v l' r' →
      decodeBit b s = .done { s with bitcnt := s.bitcnt + 1, cur := some nxt })

/-- 44_decode.md R98, R96: in a state of the invariant with room in the FIFO, DFEED completes unless a 1 bit can meet
the missing child of a one-symbol tree; it emits at most one symbol per bit, and stops early only at ORIG_LEN. -/
def Obligations.DfeedCompletes : Prop :=
  ∀ (b : Byte) (s : State), Inv s → s.phase = .decode → s.fifo.length ≤ 56 →
    (countedSymbols s.hist ≠ 1 ∨ b = 0#8) →
    ∃ (syms : List Byte) (n : Nat) (cur : NodeRef),
      exec (.dfeed b) s = .next { s with
        fifo := s.fifo ++ syms, symcnt := s.symcnt + BitVec.ofNat 32 syms.length,
        bitcnt := s.bitcnt + BitVec.ofNat 64 n, cur := cur,
        excess := s.excess || decide (s.symcnt = s.origLen) } ∧
      syms.length ≤ n ∧ n ≤ 8 ∧ s.symcnt.toNat + syms.length ≤ s.origLen.toNat ∧
      (n < 8 → s.symcnt.toNat + syms.length = s.origLen.toNat)

/-- 44_decode.md R99, R101: in a state of the invariant with room in the FIFO, a final byte whose logical bits hold the
codes of the outstanding symbols ends the stream; so does any byte when no symbol is outstanding. -/
def Obligations.DlastCompletes : Prop :=
  ∀ (b : Byte) (s : State), Inv s → s.phase = .decode → s.fifo.length ≤ 56 →
    (∀ (bs : List Byte) (tail : List Bool), s.cur = s.tree.root → bs ≠ [] → (∀ a ∈ bs, histAt s a ≠ 0) →
      s.origLen.toNat = s.symcnt.toNat + bs.length →
      byteBits b (8 - s.pad.toNat) = codeString (genCodes s.tree) bs ++ tail →
      exec (.dlast b) s = .next { s with
        fifo := s.fifo ++ bs, symcnt := s.origLen,
        bitcnt := s.bitcnt + BitVec.ofNat 64 (codeString (genCodes s.tree) bs).length, phase := .decDone }) ∧
    (s.symcnt = s.origLen → exec (.dlast b) s = .next { s with excess := true, phase := .decDone })

/-- 44_decode.md R96: CORRUPT arises in DFEED and DLAST only when the histogram has one symbol. -/
def Obligations.CorruptStreamMeansOneSymbol : Prop :=
  ∀ (b : Byte) (s t : State), Inv s → s.phase = .decode →
    (exec (.dfeed b) s = .next t ∨ exec (.dlast b) s = .next t) → t.errcode = .corrupt → countedSymbols s.hist = 1

/-- 44_decode.md R101, 42_tree_build.md R91: from ROOT, the walk parses the codes of the outstanding symbols back into
the symbols, in order, and ignores every later bit. -/
def Obligations.WalkDecodesTheCodes : Prop :=
  ∀ (s : State) (t : TreeMem) (bs : List Byte) (tail : List Bool), s.tree = buildTree s.hist t →
    s.cur = s.tree.root → (∀ b ∈ bs, histAt s b ≠ 0) → s.origLen.toNat = s.symcnt.toNat + bs.length →
    walkBits (codeString (genCodes s.tree) bs ++ tail) s = .done { s with
      fifo := s.fifo ++ bs, symcnt := s.origLen,
      bitcnt := s.bitcnt + BitVec.ofNat 64 (codeString (genCodes s.tree) bs).length }

/-- 44_decode.md R101, the round-trip law, over the host procedures P1 and P2 of 95_test_vectors.md: from any states in
which BUSY reads 0, what Decompress gives back of what Compress made is the input. -/
def Obligations.DecompressOfCompressIsTheInput : Prop :=
  ∀ (bytes : List Byte) (s u : State), bytes.length ≤ 4294967295 → s.busy = false → u.busy = false →
    ∃ file, compress bytes s = some (.ok file) ∧ decompress file u = some (.ok bytes)

/-- 20_memory.md R48, R50, R52: a container that passes the host's checks is parsed back into its fields, and its size
is that of R51. -/
def Obligations.ContainerParsesBack : Prop :=
  ∀ c : Container, c.counts.length = 256 → c.pad.toNat ≤ 7 → (c.stream = [] → c.pad = 0) →
    parseContainer (serialize c) = .ok c ∧ (serialize c).length = 1034 + c.stream.length

/-! ## Errors -/

/-- 60_exceptions.md R107: a command word that raises an error changes ERRCODE, ERRCMD and PHASE and nothing else, and in
ERROR no word records anything. -/
def Obligations.ErrorsArePrecise : Prop :=
  ∀ (c : Word) (s t : State), issueCommand c s = .next t →
    (s.phase ≠ .error → t.phase = .error → ∃ e, e ≠ .none ∧ e ≠ .busy ∧ t = errorRecorded e c s) ∧
    (s.phase = .error → t.phase = .error → t.errcode = s.errcode ∧ t.errcmd = s.errcmd)

/-- 60_exceptions.md R108: in ERROR every command but NOP, CLEAR, HRD, CLRD, CBRD and POP is ignored. -/
def Obligations.ErrorPhaseIgnoresCommands : Prop :=
  ∀ (i : Instr) (s : State), s.phase = .error →
    (i ≠ .nop ∧ i ≠ .clear ∧ i ≠ .pop ∧ (∀ b, i ≠ .hrd b) ∧ (∀ b, i ≠ .clrd b) ∧ (∀ b k, i ≠ .cbrd b k)) →
    exec i s = .next s

/-- 60_exceptions.md R109: only CLEAR and reset leave ERROR, and both give the values of R40. -/
def Obligations.OnlyClearAndResetLeaveError : Prop :=
  ∀ s t : State, Inv s → step s = .next t → s.phase = .error → t.phase ≠ .error →
    (∃ rest, s.bus = .reset :: rest ∨ s.bus = .write .word 0x18#8 0x01000000#32 :: rest) ∧ ResetValues t

/-! ## Who writes what -/

/-- 10_state.md R21, R23: no command but CLEAR writes ARG, and only HRD, CLRD, CBRD, POP and CLEAR write RESULT; CLEAR
zeroes both. -/
def Obligations.ArgAndResultWriters : Prop :=
  ∀ (i : Instr) (s t : State), exec i s = .next t →
    (i ≠ .clear → t.arg = s.arg) ∧ (i = .clear → t.arg = 0 ∧ t.result = 0) ∧
    (i ≠ .clear → i ≠ .pop → (∀ b, i ≠ .hrd b) → (∀ b, i ≠ .clrd b) → (∀ b k, i ≠ .cbrd b k) → t.result = s.result)

/-- 10_state.md R30: who sets and clears ERR, CT_VALID, EXCESS and BUSY. -/
def Obligations.FlagWriters : Prop :=
  ∀ (i : Instr) (s t : State), exec i s = .next t →
    (s.phase ≠ .error → (t.phase = .error ↔ ∃ e, e ≠ .none ∧ e ≠ .busy ∧ t = errorRecorded e (encode i) s)) ∧
    (s.phase = .error → t.phase ≠ .error → i = .clear) ∧
    (t.ctValid ≠ s.ctValid → (i = .builde ∧ t.ctValid = true) ∨ ((i = .clear ∨ i = .buildd) ∧ t.ctValid = false)) ∧
    (t.excess ≠ s.excess → (i = .clear ∧ t.excess = false) ∨
      ((∃ b, i = .dfeed b ∨ i = .dlast b) ∧ s.symcnt = s.origLen ∧ t.excess = true)) ∧
    t.busy = s.busy

/-- 10_state.md R31, R34, R35, R36: who writes HIST, the tree memories, the code table and the FIFO. That CLEAR and BUILDD
keep the code table's contents, which 93_implementation_defined.md I4 and I5 leave at any value, is the model's choice
(entries 10 and 15). -/
def Obligations.MemoryWriters : Prop :=
  ∀ (i : Instr) (s t : State), exec i s = .next t →
    (∀ b, i ≠ .clear → i ≠ .feed b → i ≠ .hadd b → histAt t b = histAt s b) ∧
    (i ≠ .clear → i ≠ .builde → i ≠ .buildd → t.tree = s.tree) ∧
    (i ≠ .builde → t.codes = s.codes) ∧
    (i = .clear → t.fifo = []) ∧ (i = .pop → t.fifo = s.fifo.tail) ∧
    (i ≠ .clear → i ≠ .pop →
      ∃ bs, t.fifo = s.fifo ++ bs ∧
        (bs ≠ [] → (∃ b, i = .enc b) ∨ i = .final ∨ (∃ b, i = .dfeed b) ∨ ∃ b, i = .dlast b))

/-- 40_control.md R73 over every command: the stream registers change only by the commands whose rules write them, and
no command touches the host's side of the state. -/
def Obligations.StreamRegisterWriters : Prop :=
  ∀ (i : Instr) (s t : State), exec i s = .next t →
    (i ≠ .clear → i ≠ .setlen → i ≠ .builde → t.origLen = s.origLen) ∧
    (i ≠ .clear → i ≠ .setpad → i ≠ .builde → i ≠ .final → t.pad = s.pad) ∧
    (i ≠ .clear → (∀ b, i ≠ .feed b) → (∀ b, i ≠ .hadd b) → t.total = s.total) ∧
    (i ≠ .clear → i ≠ .builde → i ≠ .buildd → (∀ b, i ≠ .enc b) → (∀ b, i ≠ .dfeed b) → (∀ b, i ≠ .dlast b) →
      t.symcnt = s.symcnt ∧ t.bitcnt = s.bitcnt) ∧
    (i ≠ .clear → i ≠ .builde → (∀ b, i ≠ .enc b) → i ≠ .final → t.bitbuf = s.bitbuf ∧ t.fill = s.fill) ∧
    (i ≠ .clear → i ≠ .builde → i ≠ .buildd → (∀ b, i ≠ .dfeed b) → (∀ b, i ≠ .dlast b) → t.cur = s.cur) ∧
    t.bus = s.bus ∧ t.observed = s.observed ∧ t.freeReads = s.freeReads

/-! ## The invariant -/

/-- The invariant holds after reset. -/
def Obligations.InvariantAtReset : Prop := Inv State.reset

/-- 10_state.md R19, R24, R26, R29, R33, R37, 20_memory.md R56, 44_decode.md R96: every step keeps the invariant. -/
def Obligations.EveryStepKeepsTheInvariant : Prop := ∀ s t : State, Inv s → step s = .next t → Inv t

/-- 44_decode.md R96, 20_memory.md R43: from a state of the invariant no step faults, and only an access that is not
admitted is refused. -/
def Obligations.NoFaultAndOnlyBadAccessesRefused : Prop :=
  ∀ s : State, Inv s → (∀ f, step s ≠ .fault f) ∧
    ∀ r, step s = .refused r → r = .accessNotAdmitted ∧ ∃ a rest, s.bus = a :: rest ∧ a.wellFormed = false
end

