-- ==== Sys2Proof/Laws/State.lean ====
section
/-! SUPPORT. The small lemmas of the named updates of State and TreeMem: one per field per update. -/

namespace Sys2Proof.Machine

section StateUpdates

variable (s : State) (b : Byte) (v : Word)

@[simp] theorem setHist_errcode : (setHist b v s).errcode = s.errcode := rfl
@[simp] theorem setHist_errcmd : (setHist b v s).errcmd = s.errcmd := rfl
@[simp] theorem setHist_arg : (setHist b v s).arg = s.arg := rfl
@[simp] theorem setHist_result : (setHist b v s).result = s.result := rfl
@[simp] theorem setHist_total : (setHist b v s).total = s.total := rfl
@[simp] theorem setHist_origLen : (setHist b v s).origLen = s.origLen := rfl
@[simp] theorem setHist_symcnt : (setHist b v s).symcnt = s.symcnt := rfl
@[simp] theorem setHist_pad : (setHist b v s).pad = s.pad := rfl
@[simp] theorem setHist_bitcnt : (setHist b v s).bitcnt = s.bitcnt := rfl
@[simp] theorem setHist_phase : (setHist b v s).phase = s.phase := rfl
@[simp] theorem setHist_ctValid : (setHist b v s).ctValid = s.ctValid := rfl
@[simp] theorem setHist_excess : (setHist b v s).excess = s.excess := rfl
@[simp] theorem setHist_busy : (setHist b v s).busy = s.busy := rfl
@[simp] theorem setHist_hist : (setHist b v s).hist = s.hist.set b.toNat v b.isLt := rfl
@[simp] theorem setHist_tree : (setHist b v s).tree = s.tree := rfl
@[simp] theorem setHist_codes : (setHist b v s).codes = s.codes := rfl
@[simp] theorem setHist_fifo : (setHist b v s).fifo = s.fifo := rfl
@[simp] theorem setHist_bitbuf : (setHist b v s).bitbuf = s.bitbuf := rfl
@[simp] theorem setHist_fill : (setHist b v s).fill = s.fill := rfl
@[simp] theorem setHist_cur : (setHist b v s).cur = s.cur := rfl
@[simp] theorem setHist_bus : (setHist b v s).bus = s.bus := rfl
@[simp] theorem setHist_observed : (setHist b v s).observed = s.observed := rfl
@[simp] theorem setHist_freeReads : (setHist b v s).freeReads = s.freeReads := rfl

@[simp] theorem fifoPush_errcode : (fifoPush b s).errcode = s.errcode := rfl
@[simp] theorem fifoPush_errcmd : (fifoPush b s).errcmd = s.errcmd := rfl
@[simp] theorem fifoPush_arg : (fifoPush b s).arg = s.arg := rfl
@[simp] theorem fifoPush_result : (fifoPush b s).result = s.result := rfl
@[simp] theorem fifoPush_total : (fifoPush b s).total = s.total := rfl
@[simp] theorem fifoPush_origLen : (fifoPush b s).origLen = s.origLen := rfl
@[simp] theorem fifoPush_symcnt : (fifoPush b s).symcnt = s.symcnt := rfl
@[simp] theorem fifoPush_pad : (fifoPush b s).pad = s.pad := rfl
@[simp] theorem fifoPush_bitcnt : (fifoPush b s).bitcnt = s.bitcnt := rfl
@[simp] theorem fifoPush_phase : (fifoPush b s).phase = s.phase := rfl
@[simp] theorem fifoPush_ctValid : (fifoPush b s).ctValid = s.ctValid := rfl
@[simp] theorem fifoPush_excess : (fifoPush b s).excess = s.excess := rfl
@[simp] theorem fifoPush_busy : (fifoPush b s).busy = s.busy := rfl
@[simp] theorem fifoPush_hist : (fifoPush b s).hist = s.hist := rfl
@[simp] theorem fifoPush_tree : (fifoPush b s).tree = s.tree := rfl
@[simp] theorem fifoPush_codes : (fifoPush b s).codes = s.codes := rfl
@[simp] theorem fifoPush_fifo : (fifoPush b s).fifo = s.fifo ++ [b] := rfl
@[simp] theorem fifoPush_bitbuf : (fifoPush b s).bitbuf = s.bitbuf := rfl
@[simp] theorem fifoPush_fill : (fifoPush b s).fill = s.fill := rfl
@[simp] theorem fifoPush_cur : (fifoPush b s).cur = s.cur := rfl
@[simp] theorem fifoPush_bus : (fifoPush b s).bus = s.bus := rfl
@[simp] theorem fifoPush_observed : (fifoPush b s).observed = s.observed := rfl
@[simp] theorem fifoPush_freeReads : (fifoPush b s).freeReads = s.freeReads := rfl

@[simp] theorem pushCommand_errcode : (pushCommand v s).errcode = s.errcode := rfl
@[simp] theorem pushCommand_errcmd : (pushCommand v s).errcmd = s.errcmd := rfl
@[simp] theorem pushCommand_arg : (pushCommand v s).arg = s.arg := rfl
@[simp] theorem pushCommand_result : (pushCommand v s).result = s.result := rfl
@[simp] theorem pushCommand_total : (pushCommand v s).total = s.total := rfl
@[simp] theorem pushCommand_origLen : (pushCommand v s).origLen = s.origLen := rfl
@[simp] theorem pushCommand_symcnt : (pushCommand v s).symcnt = s.symcnt := rfl
@[simp] theorem pushCommand_pad : (pushCommand v s).pad = s.pad := rfl
@[simp] theorem pushCommand_bitcnt : (pushCommand v s).bitcnt = s.bitcnt := rfl
@[simp] theorem pushCommand_phase : (pushCommand v s).phase = s.phase := rfl
@[simp] theorem pushCommand_ctValid : (pushCommand v s).ctValid = s.ctValid := rfl
@[simp] theorem pushCommand_excess : (pushCommand v s).excess = s.excess := rfl
@[simp] theorem pushCommand_busy : (pushCommand v s).busy = false := rfl
@[simp] theorem pushCommand_hist : (pushCommand v s).hist = s.hist := rfl
@[simp] theorem pushCommand_tree : (pushCommand v s).tree = s.tree := rfl
@[simp] theorem pushCommand_codes : (pushCommand v s).codes = s.codes := rfl
@[simp] theorem pushCommand_fifo : (pushCommand v s).fifo = s.fifo := rfl
@[simp] theorem pushCommand_bitbuf : (pushCommand v s).bitbuf = s.bitbuf := rfl
@[simp] theorem pushCommand_fill : (pushCommand v s).fill = s.fill := rfl
@[simp] theorem pushCommand_cur : (pushCommand v s).cur = s.cur := rfl
@[simp] theorem pushCommand_bus : (pushCommand v s).bus = .write .word (regOffset .cmd) v :: s.bus := rfl
@[simp] theorem pushCommand_observed : (pushCommand v s).observed = s.observed := rfl
@[simp] theorem pushCommand_freeReads : (pushCommand v s).freeReads = s.freeReads := rfl

@[simp] theorem resetBlock_errcode : (resetBlock s).errcode = State.reset.errcode := rfl
@[simp] theorem resetBlock_errcmd : (resetBlock s).errcmd = State.reset.errcmd := rfl
@[simp] theorem resetBlock_arg : (resetBlock s).arg = State.reset.arg := rfl
@[simp] theorem resetBlock_result : (resetBlock s).result = State.reset.result := rfl
@[simp] theorem resetBlock_total : (resetBlock s).total = State.reset.total := rfl
@[simp] theorem resetBlock_origLen : (resetBlock s).origLen = State.reset.origLen := rfl
@[simp] theorem resetBlock_symcnt : (resetBlock s).symcnt = State.reset.symcnt := rfl
@[simp] theorem resetBlock_pad : (resetBlock s).pad = State.reset.pad := rfl
@[simp] theorem resetBlock_bitcnt : (resetBlock s).bitcnt = State.reset.bitcnt := rfl
@[simp] theorem resetBlock_phase : (resetBlock s).phase = State.reset.phase := rfl
@[simp] theorem resetBlock_ctValid : (resetBlock s).ctValid = State.reset.ctValid := rfl
@[simp] theorem resetBlock_excess : (resetBlock s).excess = State.reset.excess := rfl
@[simp] theorem resetBlock_busy : (resetBlock s).busy = State.reset.busy := rfl
@[simp] theorem resetBlock_hist : (resetBlock s).hist = State.reset.hist := rfl
@[simp] theorem resetBlock_tree : (resetBlock s).tree = State.reset.tree := rfl
@[simp] theorem resetBlock_codes : (resetBlock s).codes = State.reset.codes := rfl
@[simp] theorem resetBlock_fifo : (resetBlock s).fifo = State.reset.fifo := rfl
@[simp] theorem resetBlock_bitbuf : (resetBlock s).bitbuf = State.reset.bitbuf := rfl
@[simp] theorem resetBlock_fill : (resetBlock s).fill = State.reset.fill := rfl
@[simp] theorem resetBlock_cur : (resetBlock s).cur = State.reset.cur := rfl
@[simp] theorem resetBlock_bus : (resetBlock s).bus = s.bus := rfl
@[simp] theorem resetBlock_observed : (resetBlock s).observed = s.observed := rfl
@[simp] theorem resetBlock_freeReads : (resetBlock s).freeReads = s.freeReads := rfl

end StateUpdates

section ErrorEntry

variable (e : ErrCode) (c : Word) (s : State)

@[simp] theorem recordError_arg : (recordError e c s).arg = s.arg := by unfold recordError; split <;> rfl
@[simp] theorem recordError_result : (recordError e c s).result = s.result := by unfold recordError; split <;> rfl
@[simp] theorem recordError_total : (recordError e c s).total = s.total := by unfold recordError; split <;> rfl
@[simp] theorem recordError_origLen : (recordError e c s).origLen = s.origLen := by unfold recordError; split <;> rfl
@[simp] theorem recordError_symcnt : (recordError e c s).symcnt = s.symcnt := by unfold recordError; split <;> rfl
@[simp] theorem recordError_pad : (recordError e c s).pad = s.pad := by unfold recordError; split <;> rfl
@[simp] theorem recordError_bitcnt : (recordError e c s).bitcnt = s.bitcnt := by unfold recordError; split <;> rfl
@[simp] theorem recordError_ctValid : (recordError e c s).ctValid = s.ctValid := by unfold recordError; split <;> rfl
@[simp] theorem recordError_excess : (recordError e c s).excess = s.excess := by unfold recordError; split <;> rfl
@[simp] theorem recordError_busy : (recordError e c s).busy = s.busy := by unfold recordError; split <;> rfl
@[simp] theorem recordError_hist : (recordError e c s).hist = s.hist := by unfold recordError; split <;> rfl
@[simp] theorem recordError_tree : (recordError e c s).tree = s.tree := by unfold recordError; split <;> rfl
@[simp] theorem recordError_codes : (recordError e c s).codes = s.codes := by unfold recordError; split <;> rfl
@[simp] theorem recordError_fifo : (recordError e c s).fifo = s.fifo := by unfold recordError; split <;> rfl
@[simp] theorem recordError_bitbuf : (recordError e c s).bitbuf = s.bitbuf := by unfold recordError; split <;> rfl
@[simp] theorem recordError_fill : (recordError e c s).fill = s.fill := by unfold recordError; split <;> rfl
@[simp] theorem recordError_cur : (recordError e c s).cur = s.cur := by unfold recordError; split <;> rfl
@[simp] theorem recordError_bus : (recordError e c s).bus = s.bus := by unfold recordError; split <;> rfl
@[simp] theorem recordError_observed : (recordError e c s).observed = s.observed := by unfold recordError; split <;> rfl
@[simp] theorem recordError_freeReads : (recordError e c s).freeReads = s.freeReads := by unfold recordError; split <;> rfl
@[simp] theorem recordError_phase : (recordError e c s).phase = .error := by
  unfold recordError; split
  · assumption
  · rfl

/-- Outside ERROR an error writes ERRCODE, ERRCMD and PHASE and nothing else (60_exceptions.md R107). -/
theorem recordError_eq (h : s.phase ≠ .error) :
    recordError e c s = { s with errcode := e, errcmd := c, phase := .error } := by
  simp [recordError, h]

/-- In ERROR nothing is recorded (60_exceptions.md R107, R108). -/
theorem recordError_in_error (h : s.phase = .error) : recordError e c s = s := by
  simp [recordError, h]

end ErrorEntry

section TreeUpdates

variable (t : TreeMem) (i j : Nat) (x : NodeIdx) (n : Node)

@[simp] theorem setHeap_node : (setHeap i x t).node = t.node := rfl
@[simp] theorem setHeap_nn : (setHeap i x t).nn = t.nn := rfl
@[simp] theorem setHeap_heap : (setHeap i x t).heap = t.heap.setIfInBounds i x := rfl
@[simp] theorem setHeap_hs : (setHeap i x t).hs = t.hs := rfl
@[simp] theorem setHeap_root : (setHeap i x t).root = t.root := rfl

@[simp] theorem swapHeap_node : (swapHeap i j t).node = t.node := rfl
@[simp] theorem swapHeap_nn : (swapHeap i j t).nn = t.nn := rfl
@[simp] theorem swapHeap_heap : (swapHeap i j t).heap = (t.heap.setIfInBounds i (heapAt t j)).setIfInBounds j (heapAt t i) := rfl
@[simp] theorem swapHeap_hs : (swapHeap i j t).hs = t.hs := rfl
@[simp] theorem swapHeap_root : (swapHeap i j t).root = t.root := rfl

@[simp] theorem allocNode_node : (allocNode n t).node = t.node.set (nextIdx t).val n (nextIdx t).isLt := rfl
@[simp] theorem allocNode_nn : (allocNode n t).nn = t.nn + 1 := rfl
@[simp] theorem allocNode_heap : (allocNode n t).heap = t.heap := rfl
@[simp] theorem allocNode_hs : (allocNode n t).hs = t.hs := rfl
@[simp] theorem allocNode_root : (allocNode n t).root = t.root := rfl

end TreeUpdates

end Sys2Proof.Machine
end

