-- ==== Sys2Proof/Laws/Ops.lean ====
section
/-! SUPPORT. What the command step can do (40_control.md R72), the histogram and FIFO accessors, decoding and encoding. -/

namespace Sys2Proof.Machine

section CommandStep

variable {i : Instr} {rule : State → Result} {s t : State}

/-- An accepted command whose rule completes answers the rule's state. -/
theorem runCommand_done (ha : acceptedIn i s.phase = true) (h : rule s = .done t) :
    runCommand i rule s = .next t := by
  simp [runCommand, ha, h]

/-- An accepted command whose rule raises records the error on the state as it was. -/
theorem runCommand_raise {e : ErrCode} (ha : acceptedIn i s.phase = true) (h : rule s = .raise e) :
    runCommand i rule s = .next (recordError e (encode i) s) := by
  simp [runCommand, ha, h]

/-- A command that is not accepted raises SEQUENCE outside ERROR. -/
theorem runCommand_sequence (ha : acceptedIn i s.phase = false) (hp : s.phase ≠ .error) :
    runCommand i rule s = .next (recordError .sequence (encode i) s) := by
  simp [runCommand, ha, hp]

/-- A command that is not accepted is ignored in ERROR. -/
theorem runCommand_ignored (ha : acceptedIn i s.phase = false) (hp : s.phase = .error) :
    runCommand i rule s = .next s := by
  rw [hp] at ha
  simp [runCommand, ha, hp]

/-- Everything a command step that answers a next state can do. -/
theorem runCommand_next_cases (h : runCommand i rule s = .next t) :
    (acceptedIn i s.phase = true ∧ rule s = .done t) ∨
    (∃ e, acceptedIn i s.phase = true ∧ rule s = .raise e ∧ t = recordError e (encode i) s) ∨
    (acceptedIn i s.phase = false ∧ s.phase = .error ∧ t = s) ∨
    (acceptedIn i s.phase = false ∧ s.phase ≠ .error ∧ t = recordError .sequence (encode i) s) := by
  unfold runCommand at h
  split at h
  next ha =>
    split at h
    next u hu => cases h; exact .inl ⟨ha, hu⟩
    next e he => cases h; exact .inr (.inl ⟨e, ha, he, rfl⟩)
    next => cases h
  next ha =>
    have ha' : acceptedIn i s.phase = false := by simpa using ha
    split at h
    next hp => cases h; exact .inr (.inr (.inl ⟨ha', hp, rfl⟩))
    next hp => cases h; exact .inr (.inr (.inr ⟨ha', hp, rfl⟩))

/-- A command step faults only where the rule is stuck. -/
theorem runCommand_fault {f : Fault} (h : runCommand i rule s = .fault f) :
    acceptedIn i s.phase = true ∧ rule s = .stuck f := by
  unfold runCommand at h
  split at h
  next ha =>
    split at h
    next => cases h
    next => cases h
    next g hg => cases h; exact ⟨ha, hg⟩
  next => split at h <;> cases h

/-- No command step is refused. -/
theorem runCommand_not_refused {r : Refusal} : runCommand i rule s ≠ .refused r := by
  unfold runCommand
  split
  · split <;> simp
  · split <;> simp

end CommandStep

section Accessors

variable (s : State) (a b : Byte) (v : Word) (c : CodeTable) (l : Byte) (p : Pattern)

/-- Reading the entry just written. -/
@[simp] theorem histAt_setHist_same : histAt (setHist b v s) b = v := by
  simp [histAt, setHist]

/-- Writing one entry leaves every other. -/
theorem histAt_setHist_other (h : a ≠ b) : histAt (setHist b v s) a = histAt s a := by
  have : b.toNat ≠ a.toNat := fun e => h (BitVec.eq_of_toNat_eq e.symm)
  simp [histAt, setHist, this]

@[simp] theorem codeLenAt_setCode_same : codeLenAt (setCode b l p c) b = l := by
  simp [codeLenAt, setCode]

@[simp] theorem codePatAt_setCode_same : codePatAt (setCode b l p c) b = p := by
  simp [codePatAt, setCode]

theorem codeLenAt_setCode_other (h : a ≠ b) : codeLenAt (setCode b l p c) a = codeLenAt c a := by
  have : b.toNat ≠ a.toNat := fun e => h (BitVec.eq_of_toNat_eq e.symm)
  simp [codeLenAt, setCode, this]

theorem codePatAt_setCode_other (h : a ≠ b) : codePatAt (setCode b l p c) a = codePatAt c a := by
  have : b.toNat ≠ a.toNat := fun e => h (BitVec.eq_of_toNat_eq e.symm)
  simp [codePatAt, setCode, this]

@[simp] theorem codeLenAt_reset : codeLenAt CodeTable.reset b = 0 := by
  simp [codeLenAt, CodeTable.reset]

@[simp] theorem codePatAt_reset : codePatAt CodeTable.reset b = 0 := by
  simp [codePatAt, CodeTable.reset]

@[simp] theorem codeBits_length (n : Nat) : (codeBits n p).length = n := by
  induction n with
  | zero => rfl
  | succ n ih => simp [codeBits, ih]

@[simp] theorem byteBits_length (n : Nat) : (byteBits b n).length = n := by
  simp [byteBits]

end Accessors

end Sys2Proof.Machine
end

