-- ==== Sys2Proof/Laws/Heap.lean ====
section
/-! SUPPORT. What the priority queue can do (42_tree_build.md R86, R87): it permutes its live entries and touches nothing
else of the tree memories. -/

namespace Sys2Proof.Machine

/-- The live entries of the heap, slot 0 first. -/
def liveHeap (t : TreeMem) : List NodeIdx := (List.range t.hs).map (heapAt t)

@[simp] theorem liveHeap_length (t : TreeMem) : (liveHeap t).length = t.hs := by simp [liveHeap]

section Slots

variable (t : TreeMem) (i j k : Nat) (x : NodeIdx)

/-- Reading the slot just written. -/
theorem heapAt_setHeap_same (h : i < 511) : heapAt (setHeap i x t) i = x := by
  simp [heapAt, h]

/-- Writing one slot leaves every other. -/
theorem heapAt_setHeap_other (h : k ≠ i) : heapAt (setHeap i x t) k = heapAt t k := by
  simp [heapAt, Ne.symm h]

/-- Only the heap itself decides what a slot holds. -/
theorem heapAt_congr {t u : TreeMem} (h : t.heap = u.heap) : heapAt t k = heapAt u k := by
  simp [heapAt, h]

/-- A swap exchanges two slots. -/
theorem heapAt_swapHeap (hi : i < 511) (hj : j < 511) :
    heapAt (swapHeap i j t) k = heapAt t (Equiv.swap i j k) := by
  unfold swapHeap
  by_cases hkj : k = j
  · subst hkj
    rw [heapAt_setHeap_same _ _ _ hj, Equiv.swap_apply_right]
  · rw [heapAt_setHeap_other _ _ _ _ hkj]
    by_cases hki : k = i
    · subst hki
      rw [heapAt_setHeap_same _ _ _ hi, Equiv.swap_apply_left]
    · rw [heapAt_setHeap_other _ _ _ _ hki, Equiv.swap_apply_of_ne_of_ne hki hkj]

end Slots

/-- A swap of two live slots permutes the live entries. -/
theorem liveHeap_swapHeap (t : TreeMem) (i j : Nat) (hi : i < t.hs) (hj : j < t.hs) (hs : t.hs ≤ 511) :
    (liveHeap (swapHeap i j t)).Perm (liveHeap t) := by
  have h1 : liveHeap (swapHeap i j t) = ((List.range t.hs).map (Equiv.swap i j)).map (heapAt t) := by
    simp only [liveHeap, swapHeap_hs, List.map_map]
    apply List.map_congr_left
    intro k _
    exact heapAt_swapHeap t i j k (by omega) (by omega)
  rw [h1]
  apply List.Perm.map
  rw [List.perm_ext_iff_of_nodup (List.nodup_range.map (Equiv.swap i j).injective) List.nodup_range]
  have key : ∀ m, m < t.hs → Equiv.swap i j m < t.hs := by
    intro m hm
    rw [Equiv.swap_apply_def]
    split
    · exact hj
    · split
      · exact hi
      · exact hm
  intro m
  simp only [List.mem_map, List.mem_range]
  constructor
  · rintro ⟨k, hk, rfl⟩
    exact key k hk
  · intro hm
    exact ⟨Equiv.swap i j m, key m hm, Equiv.swap_apply_self i j m⟩

/-- Two tree memories that differ in the order of the live heap entries only. -/
structure SameButHeapOrder (t u : TreeMem) : Prop where
  node : t.node = u.node
  nn : t.nn = u.nn
  hs : t.hs = u.hs
  root : t.root = u.root
  live : (liveHeap t).Perm (liveHeap u)

theorem SameButHeapOrder.refl (t : TreeMem) : SameButHeapOrder t t := ⟨rfl, rfl, rfl, rfl, .refl _⟩

theorem SameButHeapOrder.trans {t u v : TreeMem} (h : SameButHeapOrder t u) (k : SameButHeapOrder u v) :
    SameButHeapOrder t v :=
  ⟨h.node.trans k.node, h.nn.trans k.nn, h.hs.trans k.hs, h.root.trans k.root, h.live.trans k.live⟩

theorem swapHeap_sameButOrder {t : TreeMem} {i j : Nat} (hi : i < t.hs) (hj : j < t.hs) (hs : t.hs ≤ 511) :
    SameButHeapOrder (swapHeap i j t) t :=
  ⟨rfl, rfl, rfl, rfl, liveHeap_swapHeap t i j hi hj hs⟩

/-- Sift-up permutes the live entries and changes nothing else. -/
theorem siftUp_sameButOrder (fuel i : Nat) (t : TreeMem) (hi : i < t.hs) (hs : t.hs ≤ 511) :
    SameButHeapOrder (siftUp fuel i t) t := by
  induction fuel generalizing i t with
  | zero => exact .refl t
  | succ fuel ih =>
    unfold siftUp
    split
    · exact (ih _ _ (by simp only [swapHeap_hs]; omega) (by simpa using hs)).trans
        (swapHeap_sameButOrder (by omega) hi hs)
    · exact .refl t

/-- The smaller child is a live slot when the left child is. -/
theorem smallerChild_lt {t : TreeMem} {i : Nat} (h : 2 * i + 1 < t.hs) : smallerChild t i < t.hs := by
  unfold smallerChild
  split <;> omega

/-- Sift-down permutes the live entries and changes nothing else. -/
theorem siftDown_sameButOrder (fuel i : Nat) (t : TreeMem) (hi : i < t.hs) (hs : t.hs ≤ 511) :
    SameButHeapOrder (siftDown fuel i t) t := by
  induction fuel generalizing i t with
  | zero => exact .refl t
  | succ fuel ih =>
    unfold siftDown
    split
    · exact .refl t
    · next hlt =>
      have hc : smallerChild t i < t.hs := smallerChild_lt (by omega)
      split
      · exact (ih _ _ (by simpa using hc) (by simpa using hs)).trans (swapHeap_sameButOrder hc hi hs)
      · exact .refl t

/-- HeapInsert adds one entry and changes nothing else but the order (42_tree_build.md R86). -/
theorem heapInsert_spec (x : NodeIdx) (t : TreeMem) (hs : t.hs < 511) :
    (heapInsert x t).node = t.node ∧ (heapInsert x t).nn = t.nn ∧ (heapInsert x t).root = t.root ∧
      (heapInsert x t).hs = t.hs + 1 ∧ (liveHeap (heapInsert x t)).Perm (x :: liveHeap t) := by
  have h := siftUp_sameButOrder t.hs t.hs { setHeap t.hs x t with hs := t.hs + 1 } (by simp) (by simpa using hs)
  refine ⟨h.node, h.nn, h.root, h.hs, h.live.trans ?_⟩
  have h1 : liveHeap { setHeap t.hs x t with hs := t.hs + 1 } = liveHeap t ++ [x] := by
    simp only [liveHeap, List.range_succ, List.map_append, List.map_cons, List.map_nil]
    congr 1
    · apply List.map_congr_left
      intro k hk
      rw [List.mem_range] at hk
      exact heapAt_setHeap_other t t.hs k x (by omega)
    · exact congrArg (fun y => [y]) (heapAt_setHeap_same t t.hs x hs)
  rw [h1]
  exact List.perm_append_singleton _ _

/-- HeapExtractMin takes the entry it returns out of the heap and changes nothing else but the order
(42_tree_build.md R87). -/
theorem heapRemoveMin_spec (t : TreeMem) (h0 : 0 < t.hs) (hs : t.hs ≤ 511) :
    (heapRemoveMin t).node = t.node ∧ (heapRemoveMin t).nn = t.nn ∧ (heapRemoveMin t).root = t.root ∧
      (heapRemoveMin t).hs = t.hs - 1 ∧ (heapMin t :: liveHeap (heapRemoveMin t)).Perm (liveHeap t) := by
  obtain ⟨n, hn⟩ : ∃ n, t.hs = n + 1 := ⟨t.hs - 1, by omega⟩
  have hlive : liveHeap t = heapAt t 0 :: (List.range n).map (fun k => heapAt t (k + 1)) := by
    simp [liveHeap, hn, List.range_succ_eq_map, List.map_map, Function.comp_def]
  unfold heapRemoveMin heapMin
  simp only [hn, Nat.add_sub_cancel]
  split
  · next hpos =>
    have h := siftDown_sameButOrder n 0 (setHeap 0 (heapAt t n) { t with hs := n }) hpos (by simp; omega)
    refine ⟨h.node, h.nn, h.root, h.hs, ?_⟩
    refine (List.Perm.cons _ h.live).trans ?_
    rw [hlive]
    apply List.Perm.cons
    obtain ⟨m, rfl⟩ : ∃ m, n = m + 1 := ⟨n - 1, by omega⟩
    have h1 : liveHeap (setHeap 0 (heapAt t (m + 1)) { t with hs := m + 1 }) =
        heapAt t (m + 1) :: (List.range m).map (fun k => heapAt t (k + 1)) := by
      simp only [liveHeap, setHeap_hs, List.range_succ_eq_map, List.map_cons, List.map_map]
      congr 1
      · exact heapAt_setHeap_same _ 0 _ (by omega)
      · apply List.map_congr_left
        intro k _
        exact heapAt_setHeap_other _ 0 (k + 1) _ (by omega)
    rw [h1, List.range_succ, List.map_append]
    exact (List.perm_append_singleton _ _).symm
  · next hpos =>
    have : n = 0 := by omega
    subst this
    refine ⟨rfl, rfl, rfl, rfl, ?_⟩
    rw [hlive]
    simp [liveHeap]

end Sys2Proof.Machine
end

