-- ==== Sys2Proof/Laws/TreeBuild.lean ====
section
/-! SUPPORT. What BuildTree can do (42_tree_build.md R84, R85, R92): the arena it builds represents a binary tree whose
leaves are the counted symbols. -/

namespace Sys2Proof.Machine

/-- A Huffman tree as pure data: what an arena index represents. -/
inductive HTree where
  | leaf (sym : Byte) (weight : Word)
  | node (weight : Word) (left right : HTree)

/-- The leaves of a tree, left to right. -/
def HTree.leaves : HTree → List (Byte × Word)
  | .leaf b w => [(b, w)]
  | .node _ l r => l.leaves ++ r.leaves

/-- The longest path of a tree, in edges. -/
def HTree.depth : HTree → Nat
  | .leaf _ _ => 0
  | .node _ l r => max l.depth r.depth + 1

theorem HTree.leaves_ne_nil (T : HTree) : T.leaves ≠ [] := by
  induction T with
  | leaf => simp [HTree.leaves]
  | node w l r ihl ihr => simp [HTree.leaves, ihl]

theorem HTree.leaves_pos (T : HTree) : 0 < T.leaves.length :=
  List.length_pos_iff.mpr T.leaves_ne_nil

/-- R92: a tree of n leaves has depth at most n - 1. -/
theorem HTree.depth_lt_leaves (T : HTree) : T.depth < T.leaves.length := by
  induction T with
  | leaf => simp [HTree.leaves, HTree.depth]
  | node w l r ihl ihr =>
    have := l.leaves_pos
    have := r.leaves_pos
    simp only [HTree.leaves, HTree.depth, List.length_append]
    omega

/-- The arena slot `i` represents the tree `T`, every node of it below `nn`. -/
inductive Reps (node : Vector Node 511) (nn : Nat) : NodeIdx → HTree → Prop
  | leaf {i : NodeIdx} {b : Byte} {w : Word} (hi : i.val < nn) (h : node[i.val] = .leaf b w) :
      Reps node nn i (.leaf b w)
  | node {i l r : NodeIdx} {w : Word} {L R : HTree} (hi : i.val < nn)
      (h : node[i.val] = .internal w (some l) (some r)) (hl : Reps node nn l L) (hr : Reps node nn r R) :
      Reps node nn i (.node w L R)

theorem Reps.lt {node : Vector Node 511} {nn : Nat} {i : NodeIdx} {T : HTree} (h : Reps node nn i T) :
    i.val < nn := by
  cases h <;> assumption

/-- Writing slots at and above NN keeps what the slots below represent. -/
theorem Reps.mono {node node' : Vector Node 511} {nn nn' : Nat} {i : NodeIdx} {T : HTree} (h : Reps node nn i T)
    (hnn : nn ≤ nn') (hn : ∀ k : NodeIdx, k.val < nn → node'[k.val] = node[k.val]) : Reps node' nn' i T := by
  induction h with
  | leaf hi h => exact .leaf (by omega) (by rw [hn _ hi, h])
  | node hi h _ _ ihl ihr => exact .node (by omega) (by rw [hn _ hi, h]) ihl ihr

/-- The live heap entries represent trees whose leaves together are `syms`; every internal node below NN has two
children. -/
structure Forest (t : TreeMem) (syms : List (Byte × Word)) : Prop where
  trees : ∃ f : NodeIdx → HTree, (∀ i ∈ liveHeap t, Reps t.node t.nn i (f i)) ∧
    ((liveHeap t).flatMap fun i => (f i).leaves).Perm syms
  full : ∀ i : NodeIdx, i.val < t.nn → ∀ w l r, nodeAt t i = .internal w l r → l ≠ none ∧ r ≠ none

/-- Only the arena decides what a slot holds. -/
theorem nodeAt_congr {t u : TreeMem} {i : NodeIdx} (h : t.node = u.node) : nodeAt t i = nodeAt u i := by
  simp [nodeAt, h]

section Alloc

variable (t : TreeMem) (n : Node)

theorem nextIdx_val (h : t.nn < 511) : (nextIdx t).val = t.nn := by
  simp [nextIdx, Fin.ofNat, Nat.mod_eq_of_lt h]

/-- The slot just allocated holds the new node. -/
theorem nodeAt_allocNode_next : nodeAt (allocNode n t) (nextIdx t) = n := by
  simp [nodeAt]

/-- An allocation leaves every slot below NN. -/
theorem node_allocNode_below (h : t.nn < 511) (k : NodeIdx) (hk : k.val < t.nn) :
    (allocNode n t).node[k.val] = t.node[k.val] := by
  have : (nextIdx t).val ≠ k.val := by rw [nextIdx_val t h]; omega
  simp [this]

end Alloc

section InsertNew

variable (t : TreeMem) (n : Node)

/-- Allocating a node and inserting it (42_tree_build.md R84). -/
theorem insertNew_spec (hs : t.hs < 511) :
    (insertNew n t).node = (allocNode n t).node ∧ (insertNew n t).nn = t.nn + 1 ∧ (insertNew n t).root = t.root ∧
      (insertNew n t).hs = t.hs + 1 ∧ (liveHeap (insertNew n t)).Perm (nextIdx t :: liveHeap t) := by
  have h := heapInsert_spec (nextIdx t) (allocNode n t) hs
  exact ⟨h.1, h.2.1, h.2.2.1, h.2.2.2.1, h.2.2.2.2⟩

/-- Inserting a new node whose own tree is `T` adds the leaves of `T` to a forest. -/
theorem insertNew_forest {syms : List (Byte × Word)} {T : HTree} (hnn : t.nn < 511) (hs : t.hs < 511)
    (hf : Forest t syms) (hT : Reps (allocNode n t).node (t.nn + 1) (nextIdx t) T)
    (hfull : ∀ w l r, n = .internal w l r → l ≠ none ∧ r ≠ none) :
    Forest (insertNew n t) (T.leaves ++ syms) := by
  obtain ⟨hnode, hn1, -, -, hlive⟩ := insertNew_spec t n hs
  obtain ⟨⟨f, hreps, hperm⟩, hfu⟩ := hf
  have hne : ∀ i ∈ liveHeap t, i ≠ nextIdx t := by
    intro i hi e
    have h1 := (hreps i hi).lt
    rw [e, nextIdx_val t hnn] at h1
    omega
  refine ⟨⟨Function.update f (nextIdx t) T, ?_, ?_⟩, ?_⟩
  · intro i hi
    rw [hnode, hn1]
    rcases List.mem_cons.mp (hlive.subset hi) with rfl | hi
    · simpa using hT
    · rw [Function.update_of_ne (hne i hi)]
      exact (hreps i hi).mono (Nat.le_succ _) fun k hk => node_allocNode_below t n hnn k hk
  · refine (hlive.flatMap_right _).trans ?_
    simp only [List.flatMap_cons, Function.update_self]
    apply List.Perm.append_left
    refine List.Perm.trans (List.Perm.of_eq ?_) hperm
    apply List.flatMap_congr
    intro i hi
    rw [Function.update_of_ne (hne i hi)]
  · intro i hi w l r h
    rw [hn1] at hi
    by_cases e : i.val = t.nn
    · have : i = nextIdx t := Fin.ext (by rw [nextIdx_val t hnn, e])
      subst this
      have h2 : nodeAt (insertNew n t) (nextIdx t) = n := by
        exact (nodeAt_congr hnode).trans (nodeAt_allocNode_next t n)
      exact hfull w l r (h2.symm.trans h)
    · have hlt : i.val < t.nn := by omega
      apply hfu i hlt w l r
      rw [← h]
      unfold nodeAt
      simp only [hnode]
      exact (node_allocNode_below t n hnn i hlt).symm

end InsertNew

/-- The counted symbols among a list of byte values, with their counts. -/
def countedSyms (hist : Vector Word 256) : List Nat → List (Byte × Word)
  | [] => []
  | k :: ks =>
    let w := hist[k]?.getD 0
    if w = 0 then countedSyms hist ks else (BitVec.ofNat 8 k, w) :: countedSyms hist ks

theorem countedSyms_length_le (hist : Vector Word 256) (ks : List Nat) :
    (countedSyms hist ks).length ≤ ks.length := by
  induction ks with
  | nil => simp [countedSyms]
  | cons k ks ih =>
    simp only [countedSyms]
    split <;> simp <;> omega

/-- The leaves: NN and HS grow by one for each counted symbol (42_tree_build.md R84, R92). -/
theorem insertLeaves_spec (hist : Vector Word 256) (ks : List Nat) (t : TreeMem) (syms : List (Byte × Word))
    (hf : Forest t syms) (hnn : t.nn + (countedSyms hist ks).length ≤ 511)
    (hhs : t.hs + (countedSyms hist ks).length ≤ 511) :
    (insertLeaves hist ks t).nn = t.nn + (countedSyms hist ks).length ∧
      (insertLeaves hist ks t).hs = t.hs + (countedSyms hist ks).length ∧
      ∃ syms', Forest (insertLeaves hist ks t) syms' ∧ syms'.Perm (countedSyms hist ks ++ syms) := by
  induction ks generalizing t syms with
  | nil => exact ⟨rfl, rfl, syms, hf, .refl _⟩
  | cons k ks ih =>
    unfold insertLeaves
    simp only [countedSyms] at hnn hhs ⊢
    split
    · next h0 =>
      simp only [h0, if_true] at hnn hhs ⊢
      exact ih t syms hf hnn hhs
    · next h0 =>
      simp only [h0, if_false, List.length_cons] at hnn hhs ⊢
      have hnn' : t.nn < 511 := by omega
      have hhs' : t.hs < 511 := by omega
      obtain ⟨-, hn1, -, hs1, -⟩ :=
        insertNew_spec t (.leaf (BitVec.ofNat 8 k) (hist[k]?.getD 0)) hhs'
      have hf1 := insertNew_forest t (.leaf (BitVec.ofNat 8 k) (hist[k]?.getD 0)) hnn' hhs' hf
        (.leaf (b := BitVec.ofNat 8 k) (w := hist[k]?.getD 0) (by rw [nextIdx_val t hnn']; omega)
          (nodeAt_allocNode_next t _)) (by intro w l r h; cases h)
      obtain ⟨h1, h2, syms', h3, h4⟩ := ih _ _ hf1 (by rw [hn1]; omega) (by rw [hs1]; omega)
      refine ⟨by rw [h1, hn1]; omega, by rw [h2, hs1]; omega, syms', h3, h4.trans ?_⟩
      simp only [HTree.leaves]
      exact List.perm_middle

/-- One merge: two trees become one, and NN grows by 1 while HS falls by 1 (42_tree_build.md R84). -/
theorem mergeStep_spec (t : TreeMem) (syms : List (Byte × Word)) (hf : Forest t syms) (hnn : t.nn < 511)
    (h2 : 2 ≤ t.hs) (hhs : t.hs ≤ 511) :
    (mergeStep t).nn = t.nn + 1 ∧ (mergeStep t).hs = t.hs - 1 ∧
      ∃ syms', Forest (mergeStep t) syms' ∧ syms'.Perm syms := by
  obtain ⟨hn1, hnn1, -, hs1, hp1⟩ := heapRemoveMin_spec t (by omega) hhs
  obtain ⟨hn2, hnn2, -, hs2, hp2⟩ := heapRemoveMin_spec (heapRemoveMin t) (by omega) (by omega)
  obtain ⟨⟨f, hreps, hperm⟩, hfu⟩ := hf
  have hp : (heapMin t :: heapMin (heapRemoveMin t) :: liveHeap (heapRemoveMin (heapRemoveMin t))).Perm (liveHeap t) :=
    (hp2.cons _).trans hp1
  have hnode : (heapRemoveMin (heapRemoveMin t)).node = t.node := hn2.trans hn1
  have hnn' : (heapRemoveMin (heapRemoveMin t)).nn = t.nn := hnn2.trans hnn1
  have hlt : (heapRemoveMin (heapRemoveMin t)).nn < 511 := by omega
  have hs' : (heapRemoveMin (heapRemoveMin t)).hs < 511 := by omega
  have hra := hreps _ (hp.subset (List.mem_cons_self))
  have hrb := hreps _ (hp.subset (List.mem_cons_of_mem _ List.mem_cons_self))
  have hrest : Forest (heapRemoveMin (heapRemoveMin t))
      ((liveHeap (heapRemoveMin (heapRemoveMin t))).flatMap fun i => (f i).leaves) := by
    refine ⟨⟨f, ?_, .refl _⟩, ?_⟩
    · intro i hi
      rw [hnode, hnn']
      exact hreps i (hp.subset (by simp [hi]))
    · intro i hi w l r h
      apply hfu i (by omega) w l r
      exact (nodeAt_congr hnode).symm.trans h
  unfold mergeStep
  generalize hw : nodeWeight (nodeAt t (heapMin t)) + nodeWeight (nodeAt (heapRemoveMin t) (heapMin (heapRemoveMin t)))
    = w
  simp only [hw]
  have hidx := nextIdx_val _ hlt
  have hbelow : ∀ k : NodeIdx, k.val < t.nn →
      (allocNode (.internal w (some (heapMin t)) (some (heapMin (heapRemoveMin t))))
        (heapRemoveMin (heapRemoveMin t))).node[k.val] = t.node[k.val] := by
    intro k hk
    rw [node_allocNode_below _ _ hlt k (by omega)]
    simp only [hnode]
  have hT : Reps (allocNode (.internal w (some (heapMin t)) (some (heapMin (heapRemoveMin t))))
        (heapRemoveMin (heapRemoveMin t))).node ((heapRemoveMin (heapRemoveMin t)).nn + 1)
      (nextIdx (heapRemoveMin (heapRemoveMin t))) (.node w (f (heapMin t)) (f (heapMin (heapRemoveMin t)))) := by
    refine .node (by omega) (nodeAt_allocNode_next _ _) ?_ ?_
    · exact hra.mono (by omega) hbelow
    · exact hrb.mono (by omega) hbelow
  obtain ⟨-, hnn3, -, hs3, -⟩ := insertNew_spec (heapRemoveMin (heapRemoveMin t))
    (.internal w (some (heapMin t)) (some (heapMin (heapRemoveMin t)))) hs'
  refine ⟨by omega, by omega, _, insertNew_forest _ _ hlt hs' hrest hT ?_, ?_⟩
  · intro w l r h
    cases h
    simp
  · refine List.Perm.trans ?_ ((hp.flatMap_right fun i => (f i).leaves).trans hperm)
    simp [HTree.leaves, List.flatMap_cons, List.append_assoc]

/-- The merges leave one tree, and NN + HS does not change (42_tree_build.md R84). -/
theorem mergeAll_spec (fuel : Nat) (t : TreeMem) (syms : List (Byte × Word)) (hf : Forest t syms) (h1 : 1 ≤ t.hs)
    (hfuel : t.hs ≤ fuel + 1) (hsum : t.nn + t.hs ≤ 512) (hhs : t.hs ≤ 511) :
    (mergeAll fuel t).hs = 1 ∧ (mergeAll fuel t).nn = t.nn + t.hs - 1 ∧
      ∃ syms', Forest (mergeAll fuel t) syms' ∧ syms'.Perm syms := by
  induction fuel generalizing t syms with
  | zero => exact ⟨by simp [mergeAll]; omega, by simp [mergeAll]; omega, syms, hf, .refl _⟩
  | succ fuel ih =>
    unfold mergeAll
    split
    · next h2 =>
      obtain ⟨hnn, hhs', s1, hf1, hp1⟩ := mergeStep_spec t syms hf (by omega) h2 hhs
      obtain ⟨a, b, s2, hf2, hp2⟩ := ih (mergeStep t) s1 hf1 (by omega) (by omega) (by omega) (by omega)
      exact ⟨a, by omega, s2, hf2, hp2.trans hp1⟩
    · next h2 => exact ⟨by omega, by omega, syms, hf, .refl _⟩

/-- The counted symbols of a histogram, in ascending byte order, with their counts. -/
def symbolsOf (hist : Vector Word 256) : List (Byte × Word) := countedSyms hist (List.range 256)

theorem symbolsOf_length_le (hist : Vector Word 256) : (symbolsOf hist).length ≤ 256 :=
  (countedSyms_length_le hist (List.range 256)).trans (by simp)

section BuildTree

variable (hist : Vector Word 256) (t : TreeMem)

/-- The tree memories after the leaves. -/
theorem leaves_spec :
    (insertLeaves hist (List.range 256) { t with nn := 0, hs := 0 }).nn = (symbolsOf hist).length ∧
      (insertLeaves hist (List.range 256) { t with nn := 0, hs := 0 }).hs = (symbolsOf hist).length ∧
      ∃ syms, Forest (insertLeaves hist (List.range 256) { t with nn := 0, hs := 0 }) syms ∧
        syms.Perm (symbolsOf hist) := by
  have hle := symbolsOf_length_le hist
  have hf : Forest { t with nn := 0, hs := 0 } [] :=
    ⟨⟨fun _ => .leaf 0 0, by simp [liveHeap], by simp [liveHeap]⟩, by intro i hi; simp at hi⟩
  have h := insertLeaves_spec hist (List.range 256) { t with nn := 0, hs := 0 } [] hf
    (by simpa [symbolsOf] using (by omega : (symbolsOf hist).length ≤ 511))
    (by simpa [symbolsOf] using (by omega : (symbolsOf hist).length ≤ 511))
  simpa [symbolsOf] using h

/-- No counted symbol: the empty tree (42_tree_build.md R85, case 0). -/
theorem buildTree_empty (h : symbolsOf hist = []) :
    (buildTree hist t).root = none ∧ (buildTree hist t).nn = 0 ∧ (buildTree hist t).hs = 0 := by
  obtain ⟨h1, h2, -⟩ := leaves_spec hist t
  rw [h] at h1 h2
  unfold buildTree
  simp only [List.length_nil] at h1 h2
  simp only [h2, if_true]
  exact ⟨trivial, h1, trivial⟩

/-- One counted symbol: its leaf under the synthetic node (42_tree_build.md R85, case 1). -/
theorem buildTree_single {b : Byte} {w : Word} (h : symbolsOf hist = [(b, w)]) :
    (buildTree hist t).root = some 1 ∧ (buildTree hist t).nn = 2 ∧ (buildTree hist t).hs = 0 ∧
      nodeAt (buildTree hist t) 0 = .leaf b w ∧ nodeAt (buildTree hist t) 1 = .internal w (some 0) none := by
  obtain ⟨h1, h2, syms, ⟨⟨f, hreps, hperm⟩, -⟩, hp⟩ := leaves_spec hist t
  rw [h] at h1 h2 hp
  simp only [List.length_cons, List.length_nil, Nat.zero_add] at h1 h2
  unfold buildTree
  simp only [h2, if_true, one_ne_zero, if_false]
  generalize insertLeaves hist (List.range 256) { t with nn := 0, hs := 0 } = u at *
  have hlive : liveHeap u = [heapMin u] := by simp [liveHeap, h2, heapMin]
  rw [hlive] at hreps hperm
  have hr := hreps _ (List.mem_singleton.mpr rfl)
  have hv : heapMin u = 0 := by
    have := hr.lt
    rw [h1] at this
    exact Fin.ext (by simpa using this)
  rw [hv] at hr hperm
  have hleaf : u.node[(0 : NodeIdx).val] = .leaf b w := by
    have hL : (f 0).leaves.Perm [(b, w)] := by simpa using hperm.trans hp
    generalize f 0 = T at hr hL
    cases hr with
    | leaf hi hn =>
      simp [HTree.leaves] at hL
      rw [hn, hL.1, hL.2]
    | @node _ l r w' L R hi hn hl hr =>
      have := hL.length_eq
      have := L.leaves_pos
      have := R.leaves_pos
      simp [HTree.leaves] at *
      omega
  obtain ⟨hn1, hnn1, -, hs1, -⟩ := heapRemoveMin_spec u (by omega) (by omega)
  have hidx : (nextIdx (heapRemoveMin u)) = 1 := Fin.ext (by rw [nextIdx_val _ (by omega), hnn1, h1]; rfl)
  unfold wrapSingle
  simp only [hv]
  refine ⟨by rw [hidx], by simp only [allocNode_nn]; omega, by simp only [allocNode_hs]; omega, ?_, ?_⟩
  · refine (nodeAt_congr (u := allocNode (.internal (nodeWeight (nodeAt u 0)) (some 0) none) (heapRemoveMin u)) rfl).trans ?_
    refine (node_allocNode_below _ _ (by omega) 0 (by rw [hnn1, h1]; decide)).trans ?_
    simp only [hn1]
    exact hleaf
  · have hw : nodeWeight (nodeAt u 0) = w := by unfold nodeAt; rw [hleaf]; rfl
    refine (nodeAt_congr (u := allocNode (.internal (nodeWeight (nodeAt u 0)) (some 0) none) (heapRemoveMin u)) rfl).trans ?_
    rw [hw]
    have := nodeAt_allocNode_next (heapRemoveMin u) (.internal w (some 0) none)
    rwa [hidx] at this

/-- Two or more counted symbols (42_tree_build.md R85, R92): ROOT represents a tree whose leaves are the counted symbols,
NN = 2n - 1, every internal node has two children, and the heap is empty. -/
theorem buildTree_many (h : 2 ≤ (symbolsOf hist).length) :
    (buildTree hist t).nn = 2 * (symbolsOf hist).length - 1 ∧ (buildTree hist t).hs = 0 ∧
      (∀ i : NodeIdx, i.val < (buildTree hist t).nn → ∀ w l r, nodeAt (buildTree hist t) i = .internal w l r →
        l ≠ none ∧ r ≠ none) ∧
      ∃ r T, (buildTree hist t).root = some r ∧ Reps (buildTree hist t).node (buildTree hist t).nn r T ∧
        T.leaves.Perm (symbolsOf hist) := by
  have hle := symbolsOf_length_le hist
  obtain ⟨h1, h2, syms, hf, hp⟩ := leaves_spec hist t
  unfold buildTree
  generalize insertLeaves hist (List.range 256) { t with nn := 0, hs := 0 } = u at *
  have h0 : ¬ u.hs = 0 := by omega
  have h1' : ¬ u.hs = 1 := by omega
  simp only [h0, h1', if_false]
  obtain ⟨hs3, hnn3, syms3, ⟨⟨f, hreps, hperm⟩, hfu⟩, hp3⟩ := mergeAll_spec u.hs u syms hf (by omega) (by omega) (by omega) (by omega)
  generalize mergeAll u.hs u = v at *
  have hlive : liveHeap v = [heapMin v] := by simp [liveHeap, hs3, heapMin]
  rw [hlive] at hreps hperm
  obtain ⟨hn4, hnn4, -, hs4, -⟩ := heapRemoveMin_spec v (by omega) (by omega)
  refine ⟨by simp only [hnn4]; omega, by simp only [hs4]; omega, ?_, heapMin v, f (heapMin v), rfl, ?_, ?_⟩
  · intro i hi w l r hn
    exact hfu i (hi.trans_eq hnn4) w l r ((nodeAt_congr hn4.symm).trans hn)
  · simp only [hn4, hnn4]
    exact hreps _ (List.mem_singleton.mpr rfl)
  · have := (hperm.trans hp3).trans hp
    simpa using this

end BuildTree

end Sys2Proof.Machine
end

