-- ==== Sys2Proof/Laws/Codes.lean ====
section
/-! SUPPORT. What GenCodes can do (42_tree_build.md R88, R91): the code of a counted symbol is its path from ROOT. -/

namespace Sys2Proof.Machine

/-- Leaves have no children, so no path to a leaf goes on to another (42_tree_build.md R91 item 1). -/
theorem CodePath.prefix_unique {t : TreeMem} {r : NodeRef} {p q : List Bool} {a b : Byte} (h : CodePath t r p a)
    (k : CodePath t r (p ++ q) b) : q = [] ∧ a = b := by
  induction h with
  | leaf h =>
    cases k with
    | leaf k => rw [h] at k; cases k; exact ⟨rfl, rfl⟩
    | left k => rw [h] at k; cases k
    | right k => rw [h] at k; cases k
  | left h _ ih =>
    cases k with
    | left k hk => rw [h] at k; cases k; exact ih hk
  | right h _ ih =>
    cases k with
    | right k hk => rw [h] at k; cases k; exact ih hk

/-- The symbols of a tree with their paths. -/
def HTree.paths : HTree → List (Byte × List Bool)
  | .leaf b _ => [(b, [])]
  | .node _ l r => l.paths.map (fun p => (p.1, false :: p.2)) ++ r.paths.map (fun p => (p.1, true :: p.2))

/-- The code table after a walk of a tree (42_tree_build.md R88). -/
def HTree.assign : HTree → Nat → Pattern → CodeTable → CodeTable
  | .leaf b _, len, pat, c => setCode b (BitVec.ofNat 8 len) pat c
  | .node _ l r, len, pat, c => r.assign (len + 1) (2 * pat + 1) (l.assign (len + 1) (2 * pat) c)

theorem HTree.paths_syms (T : HTree) : T.paths.map Prod.fst = T.leaves.map Prod.fst := by
  induction T with
  | leaf => rfl
  | node w l r ihl ihr => simp [HTree.paths, HTree.leaves, ← ihl, ← ihr, Function.comp_def]

theorem HTree.path_length_le (T : HTree) {b : Byte} {p : List Bool} (h : (b, p) ∈ T.paths) : p.length ≤ T.depth := by
  induction T generalizing p with
  | leaf => simp [HTree.paths] at h; simp [h.2]
  | node w l r ihl ihr =>
    simp only [HTree.paths, List.mem_append, List.mem_map, Prod.mk.injEq, Prod.exists] at h
    rcases h with ⟨a, q, hq, rfl, rfl⟩ | ⟨a, q, hq, rfl, rfl⟩
    · have := ihl hq; simp [HTree.depth]; omega
    · have := ihr hq; simp [HTree.depth]; omega

/-- The walk of the arena is the walk of the tree it represents. -/
theorem walkCodes_reps {t : TreeMem} {i : NodeIdx} {T : HTree} (h : Reps t.node t.nn i T) (fuel len : Nat)
    (pat : Pattern) (c : CodeTable) (hf : T.depth < fuel) :
    walkCodes t fuel (some i) len pat c = T.assign len pat c := by
  induction h generalizing fuel len pat c with
  | leaf hi h =>
    obtain ⟨n, rfl⟩ : ∃ n, fuel = n + 1 := ⟨fuel - 1, by omega⟩
    unfold walkCodes nodeAt
    rw [h]
    rfl
  | node hi h _ _ ihl ihr =>
    obtain ⟨n, rfl⟩ : ∃ n, fuel = n + 1 := ⟨fuel - 1, by omega⟩
    simp only [HTree.depth] at hf
    unfold walkCodes nodeAt
    rw [h]
    simp only [HTree.assign]
    rw [ihl n _ _ _ (by omega), ihr n _ _ _ (by omega)]

/-- The paths of a represented tree are the paths of the arena. -/
theorem codePath_of_reps {t : TreeMem} {i : NodeIdx} {T : HTree} (h : Reps t.node t.nn i T) {b : Byte}
    {p : List Bool} (hp : (b, p) ∈ T.paths) : CodePath t (some i) p b := by
  induction h generalizing p with
  | leaf hi h => simp [HTree.paths] at hp; obtain ⟨rfl, rfl⟩ := hp; exact .leaf h
  | node hi h _ _ ihl ihr =>
    simp only [HTree.paths, List.mem_append, List.mem_map, Prod.mk.injEq, Prod.exists] at hp
    rcases hp with ⟨a, q, hq, rfl, rfl⟩ | ⟨a, q, hq, rfl, rfl⟩
    · exact .left h (ihl hq)
    · exact .right h (ihr hq)

/-- A pattern with the bits of a path appended (42_tree_build.md R88). -/
def patAppend : Pattern → List Bool → Pattern
  | p, [] => p
  | p, b :: bs => patAppend (2 * p + (if b then 1 else 0)) bs

theorem patAppend_append (p : Pattern) (xs ys : List Bool) :
    patAppend p (xs ++ ys) = patAppend (patAppend p xs) ys := by
  induction xs generalizing p with
  | nil => rfl
  | cons x xs ih => simp [patAppend, ih]

/-- Appending one bit to a pattern shifts the others up. -/
theorem codeBits_push (q : Pattern) (x : Bool) (n : Nat) (hn : n < 256) :
    codeBits (n + 1) (2 * q + (if x then 1 else 0)) = codeBits n q ++ [x] := by
  have hbit : ∀ k, k < 256 → (2 * q + (if x then 1 else 0)).getLsbD k =
      (2 * q.toNat + x.toNat).testBit k := by
    intro k hk
    have h1 : (2 * q + (if x then 1 else 0)).toNat = (2 * q.toNat + x.toNat) % 2 ^ 256 := by
      cases x <;> simp [BitVec.toNat_add, BitVec.toNat_mul]
    rw [BitVec.getLsbD, h1, Nat.testBit_mod_two_pow]
    simp [hk]
  induction n with
  | zero =>
    simp only [codeBits, List.nil_append, hbit 0 (by omega)]
    cases x <;> simp [Nat.testBit_zero]
  | succ n ih =>
    have h2 := ih (by omega)
    rw [codeBits, h2, codeBits, hbit (n + 1) (by omega)]
    simp only [List.cons_append, List.cons.injEq, and_true]
    rw [Nat.testBit_succ, BitVec.getLsbD]
    congr 1
    cases x
    · simp
    · simp; omega

/-- The bits of a pattern made of a path are the path (10_state.md R35). -/
theorem codeBits_patAppend (p : Pattern) (path : List Bool) (h : path.length ≤ 256) :
    codeBits path.length (patAppend p path) = path := by
  induction path using List.reverseRecOn with
  | nil => rfl
  | append_singleton xs x ih =>
    simp only [List.length_append, List.length_singleton] at h ⊢
    rw [patAppend_append]
    simp only [patAppend]
    rw [codeBits_push _ _ _ (by omega), ih (by omega)]

/-- A walk leaves the entries of symbols that are no leaf of the tree. -/
theorem assign_other (T : HTree) (len : Nat) (pat : Pattern) (c : CodeTable) (b : Byte)
    (h : b ∉ T.leaves.map Prod.fst) :
    codeLenAt (T.assign len pat c) b = codeLenAt c b ∧ codePatAt (T.assign len pat c) b = codePatAt c b := by
  induction T generalizing len pat c with
  | leaf a w =>
    have : b ≠ a := by simpa [HTree.leaves] using h
    exact ⟨codeLenAt_setCode_other _ _ _ _ _ this, codePatAt_setCode_other _ _ _ _ _ this⟩
  | node w l r ihl ihr =>
    simp only [HTree.leaves, List.map_append, List.mem_append, not_or] at h
    obtain ⟨h1, h2⟩ := ihl (len + 1) (2 * pat) c h.1
    obtain ⟨h3, h4⟩ := ihr (len + 1) (2 * pat + 1) (l.assign (len + 1) (2 * pat) c) h.2
    exact ⟨h3.trans h1, h4.trans h2⟩

/-- A walk writes the path of each leaf. -/
theorem assign_path (T : HTree) (len : Nat) (pat : Pattern) (c : CodeTable) (b : Byte) (p : List Bool)
    (hn : (T.leaves.map Prod.fst).Nodup) (h : (b, p) ∈ T.paths) :
    codeLenAt (T.assign len pat c) b = BitVec.ofNat 8 (len + p.length) ∧
      codePatAt (T.assign len pat c) b = patAppend pat p := by
  induction T generalizing len pat c p with
  | leaf a w => simp [HTree.paths] at h; obtain ⟨rfl, rfl⟩ := h; simp [HTree.assign, patAppend]
  | node w l r ihl ihr =>
    simp only [HTree.leaves, List.map_append, List.nodup_append] at hn
    obtain ⟨hl, hr, hd⟩ := hn
    simp only [HTree.paths, List.mem_append, List.mem_map, Prod.mk.injEq, Prod.exists] at h
    simp only [HTree.assign]
    rcases h with ⟨a, q, hq, rfl, rfl⟩ | ⟨a, q, hq, rfl, rfl⟩
    · have hmem : a ∈ l.leaves.map Prod.fst := by
        rw [← l.paths_syms]; exact List.mem_map_of_mem (f := Prod.fst) hq
      obtain ⟨h1, h2⟩ := assign_other r (len + 1) (2 * pat + 1) (l.assign (len + 1) (2 * pat) c) a
        (fun hm => hd a hmem a hm rfl)
      obtain ⟨h3, h4⟩ := ihl (len + 1) (2 * pat) c q hl hq
      refine ⟨h1.trans (h3.trans ?_), h2.trans (h4.trans ?_)⟩
      · congr 1; simp; omega
      · simp [patAppend]
    · obtain ⟨h3, h4⟩ := ihr (len + 1) (2 * pat + 1) (l.assign (len + 1) (2 * pat) c) q hr hq
      refine ⟨h3.trans ?_, h4.trans ?_⟩
      · congr 1; simp; omega
      · simp [patAppend]

section Symbols

variable (hist : Vector Word 256)

theorem mem_countedSyms (ks : List Nat) (hk : ∀ k ∈ ks, k < 256) (b : Byte) (w : Word) :
    (b, w) ∈ countedSyms hist ks ↔ b.toNat ∈ ks ∧ hist[b.toNat]'b.isLt = w ∧ w ≠ 0 := by
  induction ks with
  | nil => simp [countedSyms]
  | cons k ks ih =>
    have hk' : k < 256 := hk k (by simp)
    have ih' := ih fun m hm => hk m (by simp [hm])
    have hb : BitVec.ofNat 8 k = b ↔ b.toNat = k := by
      constructor
      · rintro rfl; simp; omega
      · intro e; apply BitVec.eq_of_toNat_eq; simp; omega
    have hget : hist[k]?.getD 0 = hist[k]'hk' := by simp [hk']
    simp only [countedSyms, hget]
    split
    · next h0 =>
      rw [ih']
      constructor
      · rintro ⟨h1, h2, h3⟩; exact ⟨by simp [h1], h2, h3⟩
      · rintro ⟨h1, h2, h3⟩
        refine ⟨?_, h2, h3⟩
        rcases List.mem_cons.mp h1 with e | h1
        · subst e; exact absurd (h2.symm.trans h0) h3
        · exact h1
    · next h0 =>
      rw [List.mem_cons, ih', Prod.mk.injEq, eq_comm (a := b), hb]
      constructor
      · rintro (⟨rfl, h2⟩ | ⟨h1, h2, h3⟩)
        · exact ⟨by simp, h2.symm, by rw [h2]; exact h0⟩
        · exact ⟨by simp [h1], h2, h3⟩
      · rintro ⟨h1, h2, h3⟩
        rcases List.mem_cons.mp h1 with e | h1
        · subst e; exact .inl ⟨rfl, h2.symm⟩
        · exact .inr ⟨h1, h2, h3⟩

theorem countedSyms_nodup (ks : List Nat) (hk : ∀ k ∈ ks, k < 256) (hn : ks.Nodup) :
    ((countedSyms hist ks).map Prod.fst).Nodup := by
  induction ks with
  | nil => simp [countedSyms]
  | cons k ks ih =>
    have hk' : k < 256 := hk k (by simp)
    have hks : ∀ m ∈ ks, m < 256 := fun m hm => hk m (by simp [hm])
    obtain ⟨hnk, hn'⟩ := List.nodup_cons.mp hn
    simp only [countedSyms]
    split
    · exact ih hks hn'
    · simp only [List.map_cons, List.nodup_cons]
      refine ⟨?_, ih hks hn'⟩
      intro hm
      obtain ⟨⟨b, w⟩, hbw, he⟩ := List.mem_map.mp hm
      have := (mem_countedSyms hist ks hks b w).mp hbw
      apply hnk
      simp only at he
      rw [he] at this
      simpa [Nat.mod_eq_of_lt hk'] using this.1

/-- The counted symbols are exactly those with a nonzero count. -/
theorem mem_symbolsOf (b : Byte) (w : Word) :
    (b, w) ∈ symbolsOf hist ↔ hist[b.toNat]'b.isLt = w ∧ w ≠ 0 := by
  rw [symbolsOf, mem_countedSyms hist _ (by simp)]
  simp only [List.mem_range, and_iff_right_iff_imp]
  intro _
  exact b.isLt

theorem symbolsOf_nodup : ((symbolsOf hist).map Prod.fst).Nodup :=
  countedSyms_nodup hist _ (by simp) List.nodup_range

end Symbols

section GenCodes

variable (hist : Vector Word 256) (t : TreeMem)

/-- The code of a counted symbol is its path from ROOT, 1 to 255 bits long; any other symbol has none
(42_tree_build.md R88, R91 item 2, R92). -/
theorem genCodes_spec (b : Byte) :
    (hist[b.toNat]'b.isLt ≠ 0 →
      CodePath (buildTree hist t) (buildTree hist t).root (codeOf (genCodes (buildTree hist t)) b) b ∧
        (codeLenAt (genCodes (buildTree hist t)) b) ≠ 0) ∧
    (hist[b.toNat]'b.isLt = 0 → codeLenAt (genCodes (buildTree hist t)) b = 0) := by
  rcases hsyms : symbolsOf hist with _ | ⟨⟨a, w⟩, _ | ⟨x, rest⟩⟩
  · obtain ⟨hroot, -, -⟩ := buildTree_empty hist t hsyms
    have h0 : hist[b.toNat]'b.isLt = 0 := by
      by_contra hne
      have := (mem_symbolsOf hist b _).mpr ⟨rfl, hne⟩
      simp [hsyms] at this
    refine ⟨fun h => absurd h0 h, fun _ => ?_⟩
    unfold genCodes
    rw [hroot]
    simp [walkCodes, Config.arenaCap]
  · obtain ⟨hroot, -, -, hleaf, hint⟩ := buildTree_single hist t hsyms
    have hg : genCodes (buildTree hist t) = setCode a 1 0 CodeTable.reset := by
      unfold genCodes
      rw [hroot]
      simp [walkCodes, Config.arenaCap, hleaf, hint]
    have hmem := mem_symbolsOf hist b
    simp only [hsyms, List.mem_singleton, Prod.mk.injEq] at hmem
    constructor
    · intro hne
      obtain ⟨rfl, -⟩ := (hmem _).mpr ⟨rfl, hne⟩
      rw [hroot, hg, codeOf, codeLenAt_setCode_same, codePatAt_setCode_same]
      exact ⟨.left hint (.leaf hleaf), by decide⟩
    · intro h0
      have : b ≠ a := by
        rintro rfl
        have := (hmem w).mp ⟨rfl, rfl⟩
        exact this.2 (this.1.symm.trans h0)
      rw [hg, codeLenAt_setCode_other _ _ _ _ _ this, codeLenAt_reset]
  · obtain ⟨-, -, -, r, T, hroot, hT, hperm⟩ := buildTree_many hist t (by simp [hsyms])
    have hle := symbolsOf_length_le hist
    have hlen : T.leaves.length = (symbolsOf hist).length := hperm.length_eq
    have hdepth := T.depth_lt_leaves
    have hg : genCodes (buildTree hist t) = T.assign 0 0 CodeTable.reset := by
      unfold genCodes
      rw [hroot]
      exact walkCodes_reps hT _ 0 0 _ (by unfold Config.arenaCap; omega)
    have hnd : (T.leaves.map Prod.fst).Nodup := (hperm.map Prod.fst).nodup_iff.mpr (symbolsOf_nodup hist)
    constructor
    · intro hne
      have hm : b ∈ T.paths.map Prod.fst := by
        rw [T.paths_syms]
        exact (hperm.map Prod.fst).symm.subset
          (List.mem_map_of_mem (f := Prod.fst) ((mem_symbolsOf hist b _).mpr ⟨rfl, hne⟩))
      obtain ⟨⟨b', p⟩, hp, rfl⟩ := List.mem_map.mp hm
      obtain ⟨h1, h2⟩ := assign_path T 0 0 CodeTable.reset b' p hnd hp
      have hpl := T.path_length_le hp
      have hnat : (BitVec.ofNat 8 (0 + p.length)).toNat = p.length := by simp; omega
      have hcode : codeOf (genCodes (buildTree hist t)) b' = p := by
        rw [hg, codeOf, h1, h2, hnat]
        exact codeBits_patAppend 0 p (by omega)
      rw [hcode, hroot]
      refine ⟨codePath_of_reps hT hp, ?_⟩
      rw [hg, h1]
      intro e
      have e' := congrArg BitVec.toNat e
      rw [hnat] at e'
      have hpn : p = [] := List.length_eq_zero_iff.mp e'
      subst hpn
      have := codePath_of_reps hT hp
      cases hT with
      | leaf hi hn =>
        have := hperm.length_eq
        simp [HTree.leaves, hsyms] at this
      | node hi hn hl hr =>
        cases this with
        | leaf hleaf => unfold nodeAt at hleaf; rw [hn] at hleaf; cases hleaf
    · intro h0
      rw [hg]
      refine (assign_other T 0 0 CodeTable.reset b ?_).1.trans (codeLenAt_reset b)
      intro hm
      obtain ⟨⟨b', w'⟩, hbw, rfl⟩ := List.mem_map.mp ((hperm.map Prod.fst).subset hm)
      have := (mem_symbolsOf hist b' w').mp hbw
      exact this.2 (this.1.symm.trans h0)

end GenCodes

end Sys2Proof.Machine
end

