-- ==== Sys2Proof/Laws/HostProcedures.lean ====
section
/-! SUPPORT. What the accesses of the host procedures do while BUSY reads 0, and how a procedure ends. -/

namespace Sys2Proof.Machine

section Reads

variable (s : State)

/-- The state after a host read of a register, BUSY being 0. -/
def afterRead (r : Reg) (s : State) : State := { s with bus := [], observed := s.observed ++ [readReg r s] }

@[simp] theorem afterRead_busy (r : Reg) : (afterRead r s).busy = s.busy := rfl

/-- Every register but the host's own lists reads as before a read (20_memory.md R45). -/
@[simp] theorem readReg_afterRead (r q : Reg) : readReg q (afterRead r s) = readReg q s := by cases q <;> rfl

/-- A host read returns the register and adds it to what the host observed. -/
theorem hostRead_of_not_busy (r : Reg) (h : s.busy = false) : hostRead r s = some (readReg r s, afterRead r s) := by
  have hw : performAccess (rdAccess r) { s with bus := [] } = .next (readAccess (regOffset r) { s with bus := [] }) := by
    cases r <;> rfl
  have hr : readOffset (regOffset r) { s with bus := [] } = readReg r s := by cases r <;> rfl
  have hstep : step { s with bus := [rdAccess r] } = .next (afterRead r s) := by
    show performAccess (rdAccess r) { s with bus := [] } = _
    rw [hw, readAccess, if_neg (by simp [h]), hr]
    rfl
  simp [hostRead, hostAccess, hstep, afterRead]

/-- STATUS.ERR is bit 4 of STATUS (10_state.md R18). -/
@[simp] theorem statusWord_err : (statusWord s)[4] = errFlag s := by
  rw [← BitVec.getLsbD_eq_getElem]
  simp only [statusWord, BitVec.getLsbD_append]
  simp

/-- With an error recorded a procedure ends with its kind, its code and its command word (60_exceptions.md R111). -/
theorem hostFinish_error (task : HostTask) (good : State → Option HostEnd) (h : s.busy = false)
    (he : s.phase = .error) :
    hostFinish task s good =
      some (.failed (documentKind task (readReg .errcode s)) (readReg .errcode s) (readReg .errcmd s)) := by
  have hs : (readReg .status s)[4] = true := by simp [readReg, errFlag, he]
  simp [hostFinish, hostRead_of_not_busy, h, hs]

/-- With no error recorded a procedure goes on. -/
theorem hostFinish_good (task : HostTask) (good : State → Option HostEnd) (h : s.busy = false)
    (he : s.phase ≠ .error) : hostFinish task s good = good (afterRead .status s) := by
  have hs : (readReg .status s)[4] = false := by simp [readReg, errFlag, he]
  simp [hostFinish, hostRead_of_not_busy, h, hs]

end Reads

/-- A container that fails a structural check ends P2 as a CorruptContainer, whatever the block's state
(20_memory.md R52). -/
theorem decompress_badContainer {bytes : List Byte} {e : ContainerFault} (s : State) (h : checkContainer bytes = some e) :
    decompress bytes s = some (.badContainer e) ∧ (HostEnd.badContainer e).errorKind = some .corruptContainer := by
  refine ⟨?_, rfl⟩
  simp [decompress, parseContainer, h]

end Sys2Proof.Machine
end

