-- ==== Sys2Proof/Laws/Packer.lean ====
section
/-! SUPPORT. What PutBit can do (43_encode.md R95). -/

namespace Sys2Proof.Machine

section Packer

variable (b : Bool) (bs cs : List Bool) (s : State)

@[simp] theorem putBit_errcode : (putBit b s).errcode = s.errcode := by unfold putBit; dsimp only; split <;> rfl
@[simp] theorem putBit_errcmd : (putBit b s).errcmd = s.errcmd := by unfold putBit; dsimp only; split <;> rfl
@[simp] theorem putBit_arg : (putBit b s).arg = s.arg := by unfold putBit; dsimp only; split <;> rfl
@[simp] theorem putBit_result : (putBit b s).result = s.result := by unfold putBit; dsimp only; split <;> rfl
@[simp] theorem putBit_total : (putBit b s).total = s.total := by unfold putBit; dsimp only; split <;> rfl
@[simp] theorem putBit_origLen : (putBit b s).origLen = s.origLen := by unfold putBit; dsimp only; split <;> rfl
@[simp] theorem putBit_symcnt : (putBit b s).symcnt = s.symcnt := by unfold putBit; dsimp only; split <;> rfl
@[simp] theorem putBit_pad : (putBit b s).pad = s.pad := by unfold putBit; dsimp only; split <;> rfl
@[simp] theorem putBit_phase : (putBit b s).phase = s.phase := by unfold putBit; dsimp only; split <;> rfl
@[simp] theorem putBit_ctValid : (putBit b s).ctValid = s.ctValid := by unfold putBit; dsimp only; split <;> rfl
@[simp] theorem putBit_excess : (putBit b s).excess = s.excess := by unfold putBit; dsimp only; split <;> rfl
@[simp] theorem putBit_busy : (putBit b s).busy = s.busy := by unfold putBit; dsimp only; split <;> rfl
@[simp] theorem putBit_hist : (putBit b s).hist = s.hist := by unfold putBit; dsimp only; split <;> rfl
@[simp] theorem putBit_tree : (putBit b s).tree = s.tree := by unfold putBit; dsimp only; split <;> rfl
@[simp] theorem putBit_codes : (putBit b s).codes = s.codes := by unfold putBit; dsimp only; split <;> rfl
@[simp] theorem putBit_cur : (putBit b s).cur = s.cur := by unfold putBit; dsimp only; split <;> rfl
@[simp] theorem putBit_bus : (putBit b s).bus = s.bus := by unfold putBit; dsimp only; split <;> rfl
@[simp] theorem putBit_observed : (putBit b s).observed = s.observed := by unfold putBit; dsimp only; split <;> rfl
@[simp] theorem putBit_freeReads : (putBit b s).freeReads = s.freeReads := by unfold putBit; dsimp only; split <;> rfl

@[simp] theorem putBit_bitcnt : (putBit b s).bitcnt = s.bitcnt + 1 := by unfold putBit; dsimp only; split <;> rfl

@[simp] theorem putBits_nil : putBits [] s = s := rfl

@[simp] theorem putBits_cons : putBits (b :: bs) s = putBits bs (putBit b s) := rfl

theorem putBits_append : putBits (bs ++ cs) s = putBits cs (putBits bs s) := by
  induction bs generalizing s with
  | nil => rfl
  | cons b bs ih => simp [ih]

@[simp] theorem putBits_errcode : (putBits bs s).errcode = s.errcode := by
  induction bs generalizing s with
  | nil => rfl
  | cons b bs ih => simp [ih]
@[simp] theorem putBits_errcmd : (putBits bs s).errcmd = s.errcmd := by
  induction bs generalizing s with
  | nil => rfl
  | cons b bs ih => simp [ih]
@[simp] theorem putBits_arg : (putBits bs s).arg = s.arg := by
  induction bs generalizing s with
  | nil => rfl
  | cons b bs ih => simp [ih]
@[simp] theorem putBits_result : (putBits bs s).result = s.result := by
  induction bs generalizing s with
  | nil => rfl
  | cons b bs ih => simp [ih]
@[simp] theorem putBits_total : (putBits bs s).total = s.total := by
  induction bs generalizing s with
  | nil => rfl
  | cons b bs ih => simp [ih]
@[simp] theorem putBits_origLen : (putBits bs s).origLen = s.origLen := by
  induction bs generalizing s with
  | nil => rfl
  | cons b bs ih => simp [ih]
@[simp] theorem putBits_symcnt : (putBits bs s).symcnt = s.symcnt := by
  induction bs generalizing s with
  | nil => rfl
  | cons b bs ih => simp [ih]
@[simp] theorem putBits_pad : (putBits bs s).pad = s.pad := by
  induction bs generalizing s with
  | nil => rfl
  | cons b bs ih => simp [ih]
@[simp] theorem putBits_phase : (putBits bs s).phase = s.phase := by
  induction bs generalizing s with
  | nil => rfl
  | cons b bs ih => simp [ih]
@[simp] theorem putBits_ctValid : (putBits bs s).ctValid = s.ctValid := by
  induction bs generalizing s with
  | nil => rfl
  | cons b bs ih => simp [ih]
@[simp] theorem putBits_excess : (putBits bs s).excess = s.excess := by
  induction bs generalizing s with
  | nil => rfl
  | cons b bs ih => simp [ih]
@[simp] theorem putBits_busy : (putBits bs s).busy = s.busy := by
  induction bs generalizing s with
  | nil => rfl
  | cons b bs ih => simp [ih]
@[simp] theorem putBits_hist : (putBits bs s).hist = s.hist := by
  induction bs generalizing s with
  | nil => rfl
  | cons b bs ih => simp [ih]
@[simp] theorem putBits_tree : (putBits bs s).tree = s.tree := by
  induction bs generalizing s with
  | nil => rfl
  | cons b bs ih => simp [ih]
@[simp] theorem putBits_codes : (putBits bs s).codes = s.codes := by
  induction bs generalizing s with
  | nil => rfl
  | cons b bs ih => simp [ih]
@[simp] theorem putBits_cur : (putBits bs s).cur = s.cur := by
  induction bs generalizing s with
  | nil => rfl
  | cons b bs ih => simp [ih]
@[simp] theorem putBits_bus : (putBits bs s).bus = s.bus := by
  induction bs generalizing s with
  | nil => rfl
  | cons b bs ih => simp [ih]
@[simp] theorem putBits_observed : (putBits bs s).observed = s.observed := by
  induction bs generalizing s with
  | nil => rfl
  | cons b bs ih => simp [ih]
@[simp] theorem putBits_freeReads : (putBits bs s).freeReads = s.freeReads := by
  induction bs generalizing s with
  | nil => rfl
  | cons b bs ih => simp [ih]

end Packer

/-- Writing one bit of BITBUF. -/
theorem getLsbD_setBit (i j : Nat) (b : Bool) (v : Byte) (hi : i < 8) (hj : j < 8) :
    (setBit i b v).getLsbD j = if j = i then b else v.getLsbD j := by
  have key : ∀ (b : Bool) (v : Byte), ∀ i < 8, ∀ j < 8,
      (setBit i b v).getLsbD j = if j = i then b else v.getLsbD j := by
    decide +kernel
  exact key b v i hi j hj

/-- The bits `cs` have been packed since the FIFO held `base` (20_memory.md R46): the whole bytes are pushed, first bit at
bit 7, and BITBUF holds the rest over zeros (10_state.md R37). -/
structure PackedBits (base : List Byte) (cs : List Bool) (s : State) : Prop where
  pushed : ∃ ps : List Byte, s.fifo = base ++ ps ∧ ps.length = cs.length / 8 ∧
    ∀ k j, k < ps.length → j < 8 → (ps[k]?.getD 0).getLsbD (7 - j) = cs[8 * k + j]?.getD false
  fill : s.fill.toNat = cs.length % 8
  buf : ∀ j, j < 8 → s.bitbuf.getLsbD (7 - j) = cs[8 * (cs.length / 8) + j]?.getD false

/-- PutBit extends the packed bits by its bit. -/
theorem putBit_packed {base : List Byte} {cs : List Bool} {s : State} (b : Bool) (h : PackedBits base cs s) :
    PackedBits base (cs ++ [b]) (putBit b s) := by
  obtain ⟨⟨ps, hf, hl, hb⟩, hfill, hbuf⟩ := h
  have hlen : (cs ++ [b]).length = cs.length + 1 := by simp
  have hbit : ∀ j, j < 8 → (setBit (7 - s.fill.toNat) b s.bitbuf).getLsbD (7 - j)
      = (cs ++ [b])[8 * (cs.length / 8) + j]?.getD false := by
    intro j hj
    rw [getLsbD_setBit _ _ _ _ (by omega) (by omega), hbuf j hj]
    by_cases e : j = cs.length % 8
    · subst e
      have : 8 * (cs.length / 8) + cs.length % 8 = cs.length := by omega
      simp [this, hfill]
    · have h1 : ¬ (7 - j = 7 - s.fill.toNat) := by have := s.fill.isLt; omega
      rw [if_neg h1]
      by_cases hlt : 8 * (cs.length / 8) + j < cs.length
      · rw [List.getElem?_append_left hlt]
      · rw [List.getElem?_eq_none (by omega), List.getElem?_eq_none (by simp; omega)]
  by_cases h7 : s.fill = 7
  · have h7' : cs.length % 8 = 7 := by rw [← hfill, h7]; rfl
    have hp : putBit b s = fifoPush (setBit (7 - s.fill.toNat) b s.bitbuf)
        { s with bitcnt := s.bitcnt + 1, bitbuf := 0, fill := 0 } := by simp [putBit, h7]
    rw [hp]
    refine ⟨⟨ps ++ [setBit (7 - s.fill.toNat) b s.bitbuf], ?_, ?_, ?_⟩, ?_, ?_⟩
    · simp [hf]
    · simp [hl]; omega
    · intro k j hk hj
      by_cases hk' : k < ps.length
      · rw [List.getElem?_append_left hk', hb k j hk' hj, List.getElem?_append_left (by omega)]
      · have : k = ps.length := by simp at hk; omega
        subst this
        simp only [List.getElem?_append_right (le_refl _), Nat.sub_self]
        rw [hl]
        exact hbit j hj
    · simp; omega
    · intro j hj
      rw [List.getElem?_eq_none (by simp; omega)]
      simp
  · have h7' : cs.length % 8 ≠ 7 := by
      intro e; apply h7; apply BitVec.eq_of_toNat_eq; rw [hfill, e]; rfl
    have hp : putBit b s = { s with bitcnt := s.bitcnt + 1, bitbuf := setBit (7 - s.fill.toNat) b s.bitbuf, fill := s.fill + 1 } := by
      unfold putBit; exact if_neg h7
    rw [hp]
    refine ⟨⟨ps, hf, ?_, ?_⟩, ?_, ?_⟩
    · rw [hl, hlen]; omega
    · intro k j hk hj
      rw [hb k j hk hj, List.getElem?_append_left (by omega)]
    · simp [BitVec.toNat_add, hfill]
    · intro j hj
      have : (cs ++ [b]).length / 8 = cs.length / 8 := by rw [hlen]; omega
      rw [this]
      exact hbit j hj

/-- PutBit run over a list extends the packed bits by the list. -/
theorem putBits_packed {base : List Byte} {cs : List Bool} {s : State} (bs : List Bool) (h : PackedBits base cs s) :
    PackedBits base (cs ++ bs) (putBits bs s) := by
  induction bs generalizing cs s with
  | nil => simpa using h
  | cons b bs ih =>
    have := ih (putBit_packed b h)
    simpa using this

/-- BITCNT counts every bit packed (43_encode.md R95). -/
theorem putBits_bitcnt (bs : List Bool) (s : State) :
    (putBits bs s).bitcnt = s.bitcnt + BitVec.ofNat 64 bs.length := by
  induction bs generalizing s with
  | nil => simp
  | cons b bs ih =>
    simp only [putBits_cons, ih, putBit_bitcnt, List.length_cons]
    rw [BitVec.add_assoc]
    congr 1
    rw [BitVec.ofNat_add, BitVec.add_comm]; rfl

end Sys2Proof.Machine
end

