-- ==== Sys2Proof/Laws/PerInstr.lean ====
section
/-! SUPPORT. A law stated of every command as syntax: its word matches its row of spec/opcode_table.json. -/

namespace Sys2Proof.Laws

/-- The row of spec/opcode_table.json a command belongs to: match and mask (30_encoding.md R64). -/
def tableRow : Instr → Word × Word
  | .nop => (0x00000000#32, 0xFFFFFFFF#32)
  | .clear => (0x01000000#32, 0xFFFFFFFF#32)
  | .feed _ => (0x10000000#32, 0xFFFFFF00#32)
  | .hadd _ => (0x11000000#32, 0xFFFFFF00#32)
  | .setlen => (0x12000000#32, 0xFFFFFFFF#32)
  | .setpad => (0x13000000#32, 0xFFFFFFFF#32)
  | .builde => (0x20000000#32, 0xFFFFFFFF#32)
  | .buildd => (0x21000000#32, 0xFFFFFFFF#32)
  | .enc _ => (0x30000000#32, 0xFFFFFF00#32)
  | .final => (0x31000000#32, 0xFFFFFFFF#32)
  | .dfeed _ => (0x40000000#32, 0xFFFFFF00#32)
  | .dlast _ => (0x41000000#32, 0xFFFFFF00#32)
  | .dend => (0x42000000#32, 0xFFFFFFFF#32)
  | .hrd _ => (0x50000000#32, 0xFFFFFF00#32)
  | .clrd _ => (0x51000000#32, 0xFFFFFF00#32)
  | .cbrd _ _ => (0x52000000#32, 0xFFFFF800#32)
  | .pop => (0x53000000#32, 0xFFFFFFFF#32)

/-- The command's word has its row's fixed bits. -/
def TableMatch.Statement (i : Instr) : Prop := encode i &&& (tableRow i).2 = (tableRow i).1

theorem TableMatch.nop : TableMatch.Statement .nop := by unfold TableMatch.Statement; decide
theorem TableMatch.clear : TableMatch.Statement .clear := by unfold TableMatch.Statement; decide
theorem TableMatch.feed (s : Byte) : TableMatch.Statement (.feed s) := by
  revert s; unfold TableMatch.Statement; decide +kernel
theorem TableMatch.hadd (s : Byte) : TableMatch.Statement (.hadd s) := by
  revert s; unfold TableMatch.Statement; decide +kernel
theorem TableMatch.setlen : TableMatch.Statement .setlen := by unfold TableMatch.Statement; decide
theorem TableMatch.setpad : TableMatch.Statement .setpad := by unfold TableMatch.Statement; decide
theorem TableMatch.builde : TableMatch.Statement .builde := by unfold TableMatch.Statement; decide
theorem TableMatch.buildd : TableMatch.Statement .buildd := by unfold TableMatch.Statement; decide
theorem TableMatch.enc (s : Byte) : TableMatch.Statement (.enc s) := by
  revert s; unfold TableMatch.Statement; decide +kernel
theorem TableMatch.final : TableMatch.Statement .final := by unfold TableMatch.Statement; decide
theorem TableMatch.dfeed (s : Byte) : TableMatch.Statement (.dfeed s) := by
  revert s; unfold TableMatch.Statement; decide +kernel
theorem TableMatch.dlast (s : Byte) : TableMatch.Statement (.dlast s) := by
  revert s; unfold TableMatch.Statement; decide +kernel
theorem TableMatch.dend : TableMatch.Statement .dend := by unfold TableMatch.Statement; decide
theorem TableMatch.hrd (s : Byte) : TableMatch.Statement (.hrd s) := by
  revert s; unfold TableMatch.Statement; decide +kernel
theorem TableMatch.clrd (s : Byte) : TableMatch.Statement (.clrd s) := by
  revert s; unfold TableMatch.Statement; decide +kernel
theorem TableMatch.cbrd (s : Byte) (k : BitVec 3) : TableMatch.Statement (.cbrd s k) := by
  revert s k; unfold TableMatch.Statement; decide +kernel
theorem TableMatch.pop : TableMatch.Statement .pop := by unfold TableMatch.Statement; decide

end Sys2Proof.Laws
end

