-- ==== Sys2Proof/Laws/Walk.lean ====
section
/-! SUPPORT. What the tree walk can do (44_decode.md R96, R97). -/

namespace Sys2Proof.Machine

/-- `s` after a walk that consumed `n` bits, emitted `syms` and stands at `cur`. -/
def walked (syms : List Byte) (n : Nat) (cur : NodeRef) (s : State) : State :=
  { s with
    fifo := s.fifo ++ syms
    symcnt := s.symcnt + BitVec.ofNat 32 syms.length
    bitcnt := s.bitcnt + BitVec.ofNat 64 n
    cur := cur }

theorem walked_nil (s : State) : walked [] 0 s.cur s = s := by
  simp [walked]

theorem walked_walked (a b : List Byte) (m n : Nat) (c d : NodeRef) (s : State) :
    walked b n d (walked a m c s) = walked (a ++ b) (m + n) d s := by
  simp [walked, BitVec.ofNat_add, BitVec.add_assoc]

/-- Everything DecodeBit can do when it completes: descend to an internal node, or emit a leaf and restart at ROOT
(44_decode.md R96). -/
theorem decodeBit_done_cases {b : Bool} {s t : State} (h : decodeBit b s = .done t) :
    ∃ i w l r nxt, s.cur = some i ∧ nodeAt s.tree i = .internal w l r ∧ (if b then r else l) = some nxt ∧
      ((∃ sym v, nodeAt s.tree nxt = .leaf sym v ∧ t = walked [sym] 1 s.tree.root s) ∨
       (∃ v l' r', nodeAt s.tree nxt = .internal v l' r' ∧ t = walked [] 1 (some nxt) s)) := by
  unfold decodeBit at h
  split at h
  · next w l r hcur =>
    rw [Option.map_eq_some_iff] at hcur
    obtain ⟨i, hi, hn⟩ := hcur
    split at h
    · cases h
    · next nxt hnxt =>
      refine ⟨i, w, l, r, nxt, hi, hn, hnxt, ?_⟩
      split at h
      · next sym v hv => cases h; exact .inl ⟨sym, v, hv, by simp [walked, fifoPush]⟩
      · next v l' r' hv => cases h; exact .inr ⟨v, l', r', hv, by simp [walked]⟩
  · cases h
  · cases h

/-- Everything FeedBits' loop can do when it completes: some symbols emitted, at most one per bit consumed, never past
ORIG_LEN (44_decode.md R97). -/
theorem walkBits_done_cases {bs : List Bool} {s t : State} (h : walkBits bs s = .done t)
    (hle : s.symcnt.toNat ≤ s.origLen.toNat) :
    ∃ syms n, t = walked syms n t.cur s ∧ syms.length ≤ n ∧ n ≤ bs.length ∧
      s.symcnt.toNat + syms.length ≤ s.origLen.toNat := by
  induction bs generalizing s with
  | nil =>
    cases h
    exact ⟨[], 0, (walked_nil _).symm, by simp, by simp, by simpa using hle⟩
  | cons b bs ih =>
    unfold walkBits at h
    split at h
    · cases h
      exact ⟨[], 0, (walked_nil _).symm, by simp, by simp, by simpa using hle⟩
    · next hne =>
      have hlt : s.symcnt.toNat < s.origLen.toNat := by
        rcases Nat.lt_or_ge s.symcnt.toNat s.origLen.toNat with h1 | h1
        · exact h1
        · exact absurd (BitVec.eq_of_toNat_eq (by omega)) hne
      split at h
      · next u hu =>
        have hol := s.origLen.isLt
        obtain ⟨i, w, l, r, nxt, -, -, -, ⟨sym, v, -, rfl⟩ | ⟨v, l', r', -, rfl⟩⟩ := decodeBit_done_cases hu
        · have h1 : (walked [sym] 1 s.tree.root s).symcnt.toNat = s.symcnt.toNat + 1 := by
            simp only [walked, BitVec.toNat_add, List.length_singleton, BitVec.toNat_ofNat]
            omega
          obtain ⟨syms, n, ht, h2, h3, h4⟩ := ih h (by rw [h1]; exact hlt)
          refine ⟨sym :: syms, 1 + n, ?_, by simp; omega, by simp; omega, ?_⟩
          · rw [walked_walked] at ht; exact ht
          · rw [h1] at h4
            have h5 : (walked [sym] 1 s.tree.root s).origLen = s.origLen := rfl
            rw [h5] at h4
            simp; omega
        · have h1 : (walked [] 1 (some nxt) s).symcnt.toNat = s.symcnt.toNat := by simp [walked]
          obtain ⟨syms, n, ht, h2, h3, h4⟩ := ih h (by rw [h1]; exact hle)
          refine ⟨syms, 1 + n, ?_, by omega, by simp; omega, ?_⟩
          · rw [walked_walked] at ht; exact ht
          · rw [h1] at h4; exact h4
      · cases h
      · cases h

/-- The walk never stops while CUR and ROOT are internal, and leaves them so (44_decode.md R96). -/
theorem walkBits_ready {bs : List Bool} {s : State} (hc : isInternal s.tree s.cur = true)
    (hr : isInternal s.tree s.tree.root = true) :
    (∀ f, walkBits bs s ≠ .stuck f) ∧ ∀ t, walkBits bs s = .done t → isInternal t.tree t.cur = true := by
  induction bs generalizing s with
  | nil => exact ⟨by simp [walkBits], by intro t h; cases h; exact hc⟩
  | cons b bs ih =>
    unfold walkBits
    split
    · exact ⟨by simp, by intro t h; cases h; exact hc⟩
    · cases hd : decodeBit b s with
      | done u =>
        simp only
        obtain ⟨i, w, l, r, nxt, -, -, -, ⟨sym, v, -, rfl⟩ | ⟨v, l', r', hv, rfl⟩⟩ := decodeBit_done_cases hd
        · exact ih hr hr
        · exact ih (by simp [walked, isInternal, hv]) hr
      | raise e => simp
      | stuck f =>
        exfalso
        unfold decodeBit at hd
        unfold isInternal at hc
        split at hd
        · split at hd
          · cases hd
          · split at hd <;> cases hd
        · next h => rw [h] at hc; simp at hc
        · next h => rw [h] at hc; simp at hc

/-- A bit that leads to an internal node moves CUR there. -/
theorem walkBits_descend {s : State} {i j : NodeIdx} {w v : Word} {l r l' r' : NodeRef} {x : Bool} {bs : List Bool}
    (hcur : s.cur = some i) (hn : nodeAt s.tree i = .internal w l r) (hx : (if x then r else l) = some j)
    (hj : nodeAt s.tree j = .internal v l' r') (hne : s.symcnt ≠ s.origLen) :
    walkBits (x :: bs) s = walkBits bs (walked [] 1 (some j) s) := by
  rw [walkBits, if_neg hne]
  simp [decodeBit, hcur, hn, hx, hj, walked]

/-- A bit that leads to a leaf emits its symbol and restarts at ROOT. -/
theorem walkBits_emit {s : State} {i j : NodeIdx} {w v : Word} {l r : NodeRef} {x : Bool} {bs : List Bool} {b : Byte}
    (hcur : s.cur = some i) (hn : nodeAt s.tree i = .internal w l r) (hx : (if x then r else l) = some j)
    (hj : nodeAt s.tree j = .leaf b v) (hne : s.symcnt ≠ s.origLen) :
    walkBits (x :: bs) s = walkBits bs (walked [b] 1 s.tree.root s) := by
  rw [walkBits, if_neg hne]
  simp [decodeBit, hcur, hn, hx, hj, walked, fifoPush]

/-- The walk along the path of a symbol emits the symbol and restarts at ROOT (44_decode.md R96, R101). -/
theorem walkBits_codePath {t : TreeMem} {r : NodeRef} {p : List Bool} {b : Byte} (h : CodePath t r p b)
    (rest : List Bool) (s : State) (ht : s.tree = t) (hcur : s.cur = r) (hne : s.symcnt ≠ s.origLen) (hp : p ≠ []) :
    walkBits (p ++ rest) s = walkBits rest (walked [b] p.length s.tree.root s) := by
  induction h generalizing s with
  | leaf => exact absurd rfl hp
  | left h hq ih =>
    subst ht
    cases hq with
    | leaf hj => exact walkBits_emit hcur h rfl hj hne
    | left hj hq =>
      rw [List.cons_append, walkBits_descend hcur h rfl hj hne, ih (walked [] 1 (some _) s) rfl rfl (by simpa [walked] using hne) (by simp)]
      simp only [walked_walked, List.length_cons, Nat.add_comm 1]
      rfl
    | right hj hq =>
      rw [List.cons_append, walkBits_descend hcur h rfl hj hne, ih (walked [] 1 (some _) s) rfl rfl (by simpa [walked] using hne) (by simp)]
      simp only [walked_walked, List.length_cons, Nat.add_comm 1]
      rfl
  | right h hq ih =>
    subst ht
    cases hq with
    | leaf hj => exact walkBits_emit hcur h rfl hj hne
    | left hj hq =>
      rw [List.cons_append, walkBits_descend hcur h rfl hj hne, ih (walked [] 1 (some _) s) rfl rfl (by simpa [walked] using hne) (by simp)]
      simp only [walked_walked, List.length_cons, Nat.add_comm 1]
      rfl
    | right hj hq =>
      rw [List.cons_append, walkBits_descend hcur h rfl hj hne, ih (walked [] 1 (some _) s) rfl rfl (by simpa [walked] using hne) (by simp)]
      simp only [walked_walked, List.length_cons, Nat.add_comm 1]
      rfl

end Sys2Proof.Machine
end

