-- ==== Sys2Proof/Tests/Slice0.lean ====
section
/-! SUPPORT. Tests of the model. Expected values are those of spec/95_test_vectors.md (the vector is named) or are worked
by hand from the rule named. -/

namespace Sys2Proof.Tests

/- One elaboration thread is enough for these small tests; one for each would exhaust the check's memory limit. -/
set_option Elab.async false

open Sys2Proof.Machine Sys2Proof.Claims

/-! ## Helpers -/

/-- An outcome is a next state with a property. -/
def reached (o : Host.Outcome State Fault Refusal) (p : State → Bool) : Bool :=
  match o with
  | .next t => p t
  | .fault _ => false
  | .refused _ => false

theorem reached_next {o : Host.Outcome State Fault Refusal} {p : State → Bool} (h : reached o p = true) :
    ∃ t, o = .next t ∧ p t = true := by
  cases o with
  | next t => exact ⟨t, rfl, h⟩
  | fault _ => cases h
  | refused _ => cases h

/-- The reset state in another phase. -/
def inPhase (p : Phase) : State := { State.reset with phase := p }

/-- The reset state with a histogram of `ks`. -/
def withHist (ks : List (Byte × Word)) : State :=
  ks.foldl (fun s k => setHist k.1 k.2 { s with total := s.total + k.2 }) State.reset

/-- The state with one access pending. -/
def pending (a : Access) (s : State) : State := { s with bus := [a] }

/-- The histogram of "AB". -/
def ab : List (Byte × Word) := [(0x41#8, 1#32), (0x42#8, 1#32)]

/-- The histogram of "A". -/
def one : List (Byte × Word) := [(0x41#8, 1#32)]

/-- The histogram of "ABRACADABRA". -/
def abra : List (Byte × Word) := [(0x41#8, 5#32), (0x42#8, 2#32), (0x43#8, 1#32), (0x44#8, 1#32), (0x52#8, 2#32)]

/-- The arena of V-TREE-1, written out. -/
def abraTree : TreeMem :=
  { TreeMem.reset with
    node := ([(0, .leaf 0x41#8 5#32), (1, .leaf 0x42#8 2#32), (2, .leaf 0x43#8 1#32), (3, .leaf 0x44#8 1#32),
      (4, .leaf 0x52#8 2#32), (5, .internal 2#32 (some 2) (some 3)), (6, .internal 4#32 (some 4) (some 5)),
      (7, .internal 6#32 (some 1) (some 6)), (8, .internal 11#32 (some 0) (some 7))] : List (Nat × Node)).foldl
        (fun v p => v.setIfInBounds p.1 p.2) TreeMem.reset.node
    nn := 9, root := some 8 }

/-- The code table of V-TREE-1, written out. -/
def abraCodes : CodeTable :=
  setCode 0x41#8 1#8 0 (setCode 0x42#8 2#8 2 (setCode 0x43#8 4#8 14 (setCode 0x44#8 4#8 15 (setCode 0x52#8 3#8 6 CodeTable.reset))))

/-- ENCODE with the code table of V-TREE-1 and eleven symbols to encode. -/
def encodingAbra : State := { inPhase .encode with codes := abraCodes, ctValid := true, origLen := 11#32, total := 11#32 }

/-- DECODE with the arena of V-TREE-1 (the start of V-DEC-1). -/
def decodingAbra : State :=
  { inPhase .decode with tree := abraTree, cur := some 8, pad := 1#3, origLen := 11#32, total := 11#32 }

/-- ENCODE after "AB" (V-ENC-4: A = 0, B = 1). -/
def encodingAb : State :=
  { inPhase .encode with codes := setCode 0x41#8 1#8 0 (setCode 0x42#8 1#8 1 CodeTable.reset), ctValid := true, origLen := 2#32, total := 2#32 }

/-- The arena of V-TREE-3 with count 1. -/
def oneTree : TreeMem :=
  { TreeMem.reset with
    node := (TreeMem.reset.node.setIfInBounds 0 (.leaf 0x41#8 1#32)).setIfInBounds 1 (.internal 1#32 (some 0) none)
    nn := 2, root := some 1 }

/-- DECODE of one 'A' with PAD 7 (the start of V-DEC-5). -/
def decodingOne : State := { inPhase .decode with tree := oneTree, cur := some 1, pad := 7#3, origLen := 1#32, total := 1#32 }

/-! ## WellFormed: an ill-formed access for each check (20_memory.md R43) -/

theorem test_byte_read_is_ill_formed : (Access.read .byte 0x08#8).wellFormed = false := by decide
theorem test_half_write_is_ill_formed : (Access.write .half 0x14#8 1#32).wellFormed = false := by decide
theorem test_misaligned_read_is_ill_formed : (Access.read .word 0x09#8).wellFormed = false := by decide
theorem test_misaligned_write_is_ill_formed : (Access.write .word 0x1A#8 1#32).wellFormed = false := by decide
theorem test_aligned_word_is_well_formed : (Access.write .word 0x18#8 1#32).wellFormed = true := by decide

/-! ## Decode: words written out field by field from 30_encoding.md R59 to R64 -/

theorem test_decode_nop : decode 0b00000000_0000000000000000_00000000#32 = .ok .nop := by decide
theorem test_decode_clear : decode 0b00000001_0000000000000000_00000000#32 = .ok .clear := by decide
theorem test_decode_feed : decode 0b00010000_0000000000000000_01000001#32 = .ok (.feed 0x41#8) := by decide
theorem test_decode_hadd : decode 0b00010001_0000000000000000_11111111#32 = .ok (.hadd 0xFF#8) := by decide
theorem test_decode_setlen : decode 0b00010010_0000000000000000_00000000#32 = .ok .setlen := by decide
theorem test_decode_setpad : decode 0b00010011_0000000000000000_00000000#32 = .ok .setpad := by decide
theorem test_decode_builde : decode 0b00100000_0000000000000000_00000000#32 = .ok .builde := by decide
theorem test_decode_buildd : decode 0b00100001_0000000000000000_00000000#32 = .ok .buildd := by decide
theorem test_decode_enc : decode 0b00110000_0000000000000000_10000001#32 = .ok (.enc 0x81#8) := by decide
theorem test_decode_final : decode 0b00110001_0000000000000000_00000000#32 = .ok .final := by decide
theorem test_decode_dfeed : decode 0b01000000_0000000000000000_01011001#32 = .ok (.dfeed 0x59#8) := by decide
theorem test_decode_dlast : decode 0b01000001_0000000000000000_01011000#32 = .ok (.dlast 0x58#8) := by decide
theorem test_decode_dend : decode 0b01000010_0000000000000000_00000000#32 = .ok .dend := by decide
theorem test_decode_hrd : decode 0b01010000_0000000000000000_01010010#32 = .ok (.hrd 0x52#8) := by decide
theorem test_decode_clrd : decode 0b01010001_0000000000000000_01000011#32 = .ok (.clrd 0x43#8) := by decide
theorem test_decode_cbrd : decode 0b01010010_0000000000000_110_01000011#32 = .ok (.cbrd 0x43#8 6#3) := by decide
theorem test_decode_pop : decode 0b01010011_0000000000000000_00000000#32 = .ok .pop := by decide
/-- R66: a reserved opcode; a reserved bit of each format. -/
theorem test_decode_reserved_opcode : decode 0b01010100_0000000000000000_00000000#32 = .error .reservedOpcode := by decide
theorem test_decode_format_n_operand : decode 0x530000FF#32 = .error .reservedBits := by decide
theorem test_decode_format_b_bit8 : decode 0x30000141#32 = .error .reservedBits := by decide
theorem test_decode_format_bk_bit11 : decode 0x52000800#32 = .error .reservedBits := by decide
theorem test_decodeTableWord_pop : decodeTableWord 32 0x53000000 = some .pop := by decide
theorem test_decodeTableWord_illegal : decodeTableWord 32 0xFF000000 = none := by decide

/-! ## Steps -/

/-- 60_exceptions.md R115, 70_reset_and_hazards.md R116: with no access pending the block waits unchanged. -/
theorem test_idle_step : step State.reset = .next State.reset := rfl
/-- V-CTL-1. -/
theorem test_nop : step (State.reset.withFetchWord 32 0x00000000) = .next State.reset := rfl
/-- V-CTL-2. -/
theorem test_clear : reached (exec .clear { inPhase .error with errcode := .truncated, total := 11#32, fifo := [1#8, 2#8, 3#8, 4#8] })
    (fun t => statusWord t == 0#32 && t.errcode == .none && t.total == 0#32 && t.fifo == []) = true := by decide +kernel
/-- V-CTL-3: a write to a read-only register is ignored. -/
theorem test_write_read_only : reached (step (pending (.write .word 0x20#8 5#32) State.reset)) (fun t => t.total == 0#32) = true := by
  decide +kernel
/-- V-CTL-7. -/
theorem test_read_params : reached (step (pending (.read .word 0x04#8) State.reset)) (fun t => t.observed == [0xFF20FF40#32]) = true := by
  decide +kernel
/-- V-HIST-1, its third FEED. -/
theorem test_feed : reached (exec (.feed 0x42#8) (withHist [(0x41#8, 2#32)]))
    (fun t => histAt t 0x41#8 == 2#32 && histAt t 0x42#8 == 1#32 && t.total == 3#32 && nsym t == 2) = true := by decide +kernel
/-- V-HIST-3. -/
theorem test_feed_overflow : reached (exec (.feed 0x79#8) (withHist [(0x78#8, 0xFFFFFFFF#32)]))
    (fun t => t.errcode == .overflow && t.errcmd == 0x10000079#32 && histAt t 0x79#8 == 0#32 && statusWord t == 0x17#32) = true := by
  decide +kernel
/-- V-HIST-5. -/
theorem test_hadd : reached (exec (.hadd 0x73#8) { withHist [(0x01#8, 0xFFFFFFF0#32)] with arg := 0x0F#32 })
    (fun t => t.errcode == .none && t.total == 0xFFFFFFFF#32 && histAt t 0x73#8 == 0x0F#32) = true := by decide +kernel
/-- V-HIST-4. -/
theorem test_hadd_overflow : reached (exec (.hadd 0x73#8) { withHist [(0x01#8, 0xFFFFFFF0#32)] with arg := 0x10#32 })
    (fun t => t.errcode == .overflow && t.total == 0xFFFFFFF0#32 && histAt t 0x73#8 == 0#32) = true := by decide +kernel
/-- V-HIST-8. -/
theorem test_setlen : reached (exec .setlen { State.reset with arg := 11#32 }) (fun t => t.origLen == 11#32 && t.arg == 11#32) = true := by
  decide +kernel
/-- V-HIST-13. -/
theorem test_setpad : reached (exec .setpad { inPhase .decode with arg := 3#32 }) (fun t => t.pad == 3#3 && t.phase == .decode) = true := by
  decide +kernel
/-- V-HIST-11. -/
theorem test_setpad_corrupt : reached (exec .setpad { State.reset with arg := 0xFFFFFFFF#32 })
    (fun t => t.errcode == .corrupt && t.errcmd == 0x13000000#32 && t.pad == 0#3) = true := by decide +kernel
/-- V-TREE-3, 42_tree_build.md R89: BUILDE of one symbol. -/
theorem test_builde : reached (exec .builde { withHist one with pad := 5#3 })
    (fun t => statusWord t == 0x21#32 && t.origLen == 1#32 && t.pad == 0#3 && t.tree.nn == 2 && t.tree.root == some 1
      && codeOf t.codes 0x41#8 == [false] && codeLenAt t.codes 0x42#8 == 0#8) = true := by decide +kernel
/-- V-ERR-7: the second BUILDE. -/
theorem test_builde_sequence : reached (exec .builde encodingAb)
    (fun t => t.errcode == .sequence && t.errcmd == 0x20000000#32 && statusWord t == 0x37#32) = true := by decide +kernel
/-- V-DEC-9: BUILDD of the empty histogram. -/
theorem test_buildd : reached (exec .buildd { State.reset with ctValid := true, pad := 5#3 })
    (fun t => statusWord t == 0x03#32 && t.cur == none && t.pad == 5#3) = true := by decide +kernel
/-- V-TREE-13. -/
theorem test_buildd_corrupt : reached (exec .buildd { withHist [(0x61#8, 9999#32), (0x62#8, 1#32)] with origLen := 9999#32 })
    (fun t => t.errcode == .corrupt && t.errcmd == 0x21000000#32 && statusWord t == 0x17#32) = true := by decide +kernel
/-- V-ENC-1, row 5: the code 1110 of 'C' after the seven bits 0101100 fills a byte. -/
theorem test_enc :
    reached (exec (.enc 0x43#8) { encodingAbra with symcnt := 4#32, bitcnt := 7#64, fill := 7#3, bitbuf := 0x58#8 })
      (fun t => t.bitcnt == 11#64 && t.fill == 3#3 && t.bitbuf == 0xC0#8 && t.fifo == [0x59#8] && t.symcnt == 5#32) = true := by
  decide +kernel
/-- V-ENC-16: NOCODE is checked before LENGTH. -/
theorem test_enc_nocode : reached (exec (.enc 0x43#8) { encodingAb with symcnt := 2#32 })
    (fun t => t.errcode == .noCode && t.errcmd == 0x30000043#32) = true := by decide +kernel
/-- V-ENC-1, the last row. -/
theorem test_final :
    reached (exec .final { encodingAbra with
        symcnt := 11#32, bitcnt := 23#64, fill := 7#3, bitbuf := 0x58#8, fifo := [0x59#8, 0xCF#8] })
      (fun t => t.pad == 1#3 && statusWord t == 0x322#32 && t.fifo == [0x59#8, 0xCF#8, 0x58#8] && t.bitcnt == 23#64) = true := by
  decide +kernel
/-- V-ENC-17. -/
theorem test_final_length : reached (exec .final { encodingAb with symcnt := 1#32, bitcnt := 1#64, fill := 1#3 })
    (fun t => t.errcode == .length && t.symcnt == 1#32 && t.fifo == []) = true := by decide +kernel
/-- V-DEC-1, the first row, and V-DEC-2. -/
theorem test_dfeed : reached (exec (.dfeed 0x59#8) decodingAbra)
    (fun t => t.fifo == [0x41#8, 0x42#8, 0x52#8, 0x41#8] && t.symcnt == 4#32 && t.bitcnt == 8#64 && t.cur == some 7
      && statusWord t == 0x403#32) = true := by decide +kernel
/-- V-DEC-12: a stray byte. -/
theorem test_dfeed_excess : reached (exec (.dfeed 0xFF#8) (inPhase .decode))
    (fun t => t.excess && t.fifo == [] && t.errcode == .none && t.symcnt == 0#32) = true := by decide +kernel
/-- V-DEC-1, the last row. -/
theorem test_dlast : reached (exec (.dlast 0x58#8) { decodingAbra with symcnt := 7#32, bitcnt := 16#64 })
    (fun t => t.fifo == [0x41#8, 0x42#8, 0x52#8, 0x41#8] && t.phase == .decDone && t.bitcnt == 23#64 && t.symcnt == 11#32) = true := by
  decide +kernel
/-- V-DEC-5: a 1 at the root of a one-symbol tree. -/
theorem test_dlast_corrupt : reached (exec (.dlast 0x80#8) decodingOne)
    (fun t => t.errcode == .corrupt && t.errcmd == 0x41000080#32 && t.symcnt == 0#32) = true := by decide +kernel
/-- V-DEC-9. -/
theorem test_dend : reached (exec .dend (inPhase .decode)) (fun t => t.phase == .decDone && t.fifo == []) = true := by
  decide +kernel
theorem test_dend_truncated : reached (exec .dend decodingOne)
    (fun t => t.errcode == .truncated && t.errcmd == 0x42000000#32) = true := by decide +kernel
/-- V-RB-1. -/
theorem test_hrd : reached (exec (.hrd 0x41#8) (withHist abra)) (fun t => t.result == 5#32) = true := by decide +kernel
/-- V-RB-3, V-RB-14. -/
theorem test_clrd : reached (exec (.clrd 0x43#8) encodingAbra) (fun t => t.result == 4#32) = true := by decide +kernel
theorem test_clrd_not_valid : reached (exec (.clrd 0x41#8) { decodingAbra with codes := abraCodes })
    (fun t => t.result == 0#32) = true := by decide +kernel
/-- V-RB-7, V-RB-8: the code of 44 ones. -/
theorem test_cbrd : reached (exec (.cbrd 0x01#8 0#3) { encodingAb with codes := setCode 0x01#8 44#8 0xFFFFFFFFFFF CodeTable.reset })
    (fun t => t.result == 0xFFFFFFFF#32) = true := by decide +kernel
theorem test_cbrd_high_word :
    reached (exec (.cbrd 0x01#8 1#3) { encodingAb with codes := setCode 0x01#8 44#8 0xFFFFFFFFFFF CodeTable.reset })
      (fun t => t.result == 0x00000FFF#32) = true := by decide +kernel
/-- V-RB-15, its first POP; V-RB-16. -/
theorem test_pop : reached (exec .pop { inPhase .encDone with fifo := [0x59#8, 0xCF#8, 0x58#8] })
    (fun t => t.result == 0x159#32 && t.fifo == [0xCF#8, 0x58#8]) = true := by decide +kernel
theorem test_pop_zero_byte : reached (exec .pop { inPhase .encDone with fifo := [0x00#8] }) (fun t => t.result == 0x100#32) = true := by
  decide +kernel
/-- V-ERR-1. -/
theorem test_illegal : reached (step (State.reset.withFetchWord 32 0x02000000))
    (fun t => t.errcode == .illegal && t.errcmd == 0x02000000#32 && statusWord t == 0x17#32) = true := by decide +kernel
/-- 42_tree_build.md R88 on the arena of V-TREE-1. -/
theorem test_gen_codes : ([0x41#8, 0x42#8, 0x43#8, 0x44#8, 0x52#8, 0x45#8].map fun b => codeOf (genCodes abraTree) b) =
    [[false], [true, false], [true, true, true, false], [true, true, true, true], [true, true, false], []] := by decide +kernel
/-- V-TREE-12: the four merges of five equal leaves. -/
theorem test_merges : (let t := mergeAll 5 (([0x41#8, 0x42#8, 0x43#8, 0x44#8, 0x45#8] : List Byte).foldl
      (fun t b => insertNew (.leaf b 1#32) t) TreeMem.reset)
    [nodeAt t 5, nodeAt t 6, nodeAt t 7, nodeAt t (heapMin t)]) =
    [.internal 2#32 (some 0) (some 4), .internal 2#32 (some 3) (some 1), .internal 3#32 (some 2) (some 6),
     .internal 5#32 (some 5) (some 7)] := by decide +kernel
/-- V-HEAP-2: with four equal weights the last element, moved to the root, stays there. -/
theorem test_heap_tie : (let t := [0, 1, 2, 3].foldl (fun t _ => insertNew (.leaf 0#8 2#32) t) TreeMem.reset
    [heapMin t, heapMin (heapRemoveMin t), heapMin (heapRemoveMin (heapRemoveMin t))]) = [0, 3, 2] := by decide +kernel
/-- 20_memory.md R50 and P1: ORIG_LEN 11 in the container. -/
theorem test_le32 : le32 0x0000000B#32 = [0x0B#8, 0#8, 0#8, 0#8] := by decide
/-- 95_test_vectors.md P2 and V-DEC-3: a truncated stream is reported as such, with its code and command word. -/
theorem test_truncated_reported :
    hostFinish .loadingContainer { inPhase .error with errcode := .truncated, errcmd := 0x410000CF#32 } (fun _ => none) =
      some (.failed (some .truncatedStream) 5#32 0x410000CF#32) := by decide +kernel
/-- 60_exceptions.md R106, R111, P2: OVERFLOW while loading counts and CORRUPT are CorruptContainer. -/
theorem test_documentKind : ([0#32, 3#32, 4#32, 6#32, 10#32].map (documentKind .loadingContainer)) =
    [none, some .corruptContainer, some .corruptContainer, some .programmingError, none] ∧
    documentKind .compressing 3#32 = some .inputTooLarge := by decide
/-- 20_memory.md R52: a file shorter than the header. -/
theorem test_short_container : checkContainer (List.replicate 1033 0#8) = some .shorterThanHeader := by decide +kernel


/-! ## Witnesses: for every statement with hypotheses, states and operands that meet all of them together -/

/-- A command's phases: one that accepts it, one that does not, and ERROR. -/
theorem phase_witness (phases : List Phase) (p q : Phase) (hp : p ∈ phases) (hq : q ∉ phases) (hne : q ≠ .error)
    (he : .error ∉ phases) :
    (inPhase p).phase ∈ phases ∧ (inPhase q).phase ∉ phases ∧ (inPhase q).phase ≠ .error ∧
      (inPhase .error).phase ∉ phases ∧ (inPhase .error).phase = .error := ⟨hp, hq, hne, he, rfl⟩

/-- The walk of a byte ends in a given way. -/
def walkEnds (bits : List Bool) (s : State) (p : Result → Bool) : Bool := p (walkBits bits (markExcess s))

def isDone : Result → Bool
  | .done _ => true
  | .raise _ => false
  | .stuck _ => false

def isRaise : Result → Bool
  | .raise _ => true
  | .done _ => false
  | .stuck _ => false

def isStuck : Result → Bool
  | .stuck _ => true
  | .done _ => false
  | .raise _ => false

theorem isDone_exists {r : Result} (h : isDone r = true) : ∃ t, r = .done t := by cases r <;> first | exact ⟨_, rfl⟩ | cases h
theorem isRaise_exists {r : Result} (h : isRaise r = true) : ∃ e, r = .raise e := by cases r <;> first | exact ⟨_, rfl⟩ | cases h
theorem isStuck_exists {r : Result} (h : isStuck r = true) : ∃ f, r = .stuck f := by cases r <;> first | exact ⟨_, rfl⟩ | cases h

theorem illegal_words : (∀ i, decode 0x02000000#32 ≠ .ok i) ∧ (∀ i, decode 0x00000001#32 ≠ .ok i) ∧
    (∀ i, decode 0x52000800#32 ≠ .ok i) := by
  refine ⟨?_, ?_, ?_⟩ <;> intro i <;>
    first
    | (rw [show decode 0x02000000#32 = .error .reservedOpcode by decide]; simp)
    | (rw [show decode 0x00000001#32 = .error .reservedBits by decide]; simp)
    | (rw [show decode 0x52000800#32 = .error .reservedBits by decide]; simp)

theorem witness_EncodeOfDecodeIsTheWord : decode 0x520007FF#32 = .ok (.cbrd 0xFF#8 7#3) := by decide

theorem witness_LegalWordsAreTheOpcodeTable :
    (∃ row ∈ opcodeTable, 0x520007FF#32 &&& row.2 = row.1) ∧ ¬ ∃ row ∈ opcodeTable, 0x52000800#32 &&& row.2 = row.1 := by
  decide

theorem witness_StepRunsTheDecodedCommand :
    let s := pending (.write .word 0x18#8 0x100000FF#32) State.reset
    s.busy = false ∧ s.bus = .write .word 0x18#8 0x100000FF#32 :: [] ∧ decode 0x100000FF#32 = .ok (.feed 0xFF#8) ∧
      decode (BitVec.ofNat 32 0x53000000) = .ok .pop := by
  refine ⟨rfl, rfl, ?_, ?_⟩ <;> decide

theorem witness_IllegalWordRaisesIllegal :
    let a := Access.write .word 0x18#8 0x02000000#32
    (pending a State.reset).busy = false ∧ (pending a State.reset).bus = a :: [] ∧
      (∀ i, decode 0x02000000#32 ≠ .ok i) ∧ (pending a State.reset).phase ≠ .error ∧
      (pending a (inPhase .error)).busy = false ∧ (pending a (inPhase .error)).bus = a :: [] ∧
      (pending a (inPhase .error)).phase = .error :=
  ⟨rfl, rfl, illegal_words.1, by decide, rfl, rfl, rfl⟩

/-- The first and the last register, the reserved offsets 0x3C, 0x40 and 0xFC, the ignored writes, ARG and CMD. -/
theorem witness_WindowAccessEffects :
    State.reset.busy = false ∧ (0x00#8, 0x48554631#32) ∈ windowReads State.reset ∧ (0x38#8, 0#32) ∈ windowReads State.reset ∧
      ((0x3C#8).toNat % 4 = 0 ∧ (0x3C#8).toNat = 0x3C) ∧ ((0x40#8).toNat % 4 = 0 ∧ 0x40 ≤ (0x40#8).toNat) ∧
      ((0xFC#8).toNat % 4 = 0 ∧ 0x40 ≤ (0xFC#8).toNat) ∧
      ((0x00#8).toNat % 4 = 0 ∧ 0x00#8 ≠ 0x14#8 ∧ 0x00#8 ≠ 0x18#8) ∧ ((0xFC#8).toNat % 4 = 0 ∧ 0xFC#8 ≠ 0x14#8 ∧ 0xFC#8 ≠ 0x18#8) ∧
      decode 0x53000000#32 = .ok .pop ∧
      (∀ a, (pending a State.reset).busy = false ∧ (pending a State.reset).bus = a :: []) := by
  refine ⟨rfl, by simp [windowReads], ?_, by decide, by decide, by decide, by decide, by decide, by decide, fun _ => ⟨rfl, rfl⟩⟩
  simp [windowReads, State.reset]

theorem witness_StatusFields :
    (∀ p : Phase, (inPhase p).phase = p) ∧ ({ State.reset with fifo := List.replicate 64 0xFF#8 } : State).fifo.length ≤ 64 := by
  refine ⟨fun _ => rfl, by simp⟩

theorem witness_ReadsHaveNoSideEffect :
    let s : State := { State.reset with bus := [.read .word 0xFC#8, .read .word 0xFC#8] }
    s.busy = false ∧ (0xFC#8).toNat % 4 = 0 ∧ s.bus = .read .word 0xFC#8 :: .read .word 0xFC#8 :: [] := ⟨rfl, by decide, rfl⟩

theorem witness_NarrowOrMisalignedAccessIsRefused :
    (Width.byte ≠ .word ∧ Width.half ≠ .word ∧ (0x15#8).toNat % 4 ≠ 0) ∧
      ∀ a, (pending a State.reset).bus = a :: [] := ⟨by decide, fun _ => rfl⟩

theorem witness_BusyHazard :
    let s (a : Access) : State := pending a { State.reset with busy := true }
    (∀ a, (s a).busy = true ∧ (s a).bus = a :: []) ∧ ((0x14#8).toNat % 4 = 0 ∧ (0x18#8).toNat % 4 = 0) ∧
      (∀ a, (0x04#8, 0xFF20FF40#32) ∈ windowReads (s a)) ∧ (∀ a, (0x08#8, 0x08#32) ∈ windowReads (s a)) ∧
      (0x20#8).toNat % 4 = 0 := by
  have h (a : Access) : statusWord (pending a { State.reset with busy := true }) = 0x08#32 := by
    simp [statusWord, errFlag, pending, State.reset, phaseCode]
  refine ⟨fun _ => ⟨rfl, rfl⟩, by decide, fun _ => by simp [windowReads], fun a => ?_, by decide⟩
  exact .tail _ (.tail _ (List.mem_cons.mpr (.inl (Prod.ext rfl (h a).symm))))

theorem witness_WindowBytesAreLittleEndian :
    (0x00#8, 0x48554631#32) ∈ windowReads State.reset ∧ (0x38#8, 0#32) ∈ windowReads State.reset ∧ 0 < 4 ∧ 3 < 4 := by
  refine ⟨by simp [windowReads], by simp [windowReads, State.reset], by decide, by decide⟩

theorem witness_StateAfterReset : (pending .reset (inPhase .error)).bus = .reset :: [] := rfl

theorem witness_NopDoesNothing :
    (∀ p, (inPhase p).phase ∈ allPhases) ∧ 0x00FFFFFF#32 ≠ 0#32 ∧ (0x00FFFFFF#32).extractLsb' 24 8 = 0#8 ∧
      (0x00000001#32).extractLsb' 24 8 = 0#8 := by
  refine ⟨fun p => by cases p <;> decide, by decide, by decide, by decide⟩

theorem witness_ClearReturnsToReset :
    (∀ p, (inPhase p).phase ∈ allPhases) ∧ State.reset.busy = false ∧ ∃ t, exec .clear State.reset = .next t :=
  ⟨fun p => by cases p <;> decide, rfl, _, rfl⟩

theorem witness_FeedCountsOneSymbol :
    State.reset.total ≠ 0xFFFFFFFF#32 ∧ ({ State.reset with total := 0xFFFFFFFE#32 } : State).total ≠ 0xFFFFFFFF#32 ∧
      ({ State.reset with total := 0xFFFFFFFF#32 } : State).total = 0xFFFFFFFF#32 ∧ State.reset.phase ∈ [Phase.load] ∧
      (inPhase .encode).phase ∉ [Phase.load] ∧ (inPhase .encode).phase ≠ .error ∧ (inPhase .error).phase ∉ [Phase.load] := by
  refine ⟨by decide, by decide, rfl, ?_, ?_, ?_, ?_⟩ <;> decide

/-- LOAD with nothing counted, within the invariant. -/
theorem witness_FeedCountsOneSymbol_nsym :
    Inv { State.reset with arg := 1#32 } ∧ ({ State.reset with arg := 1#32 } : State).phase = .load ∧
      ({ State.reset with arg := 1#32 } : State).total ≠ 0xFFFFFFFF#32 := by
  refine ⟨?_, rfl, by decide⟩
  constructor
  case totalIsSum => exact (by decide +kernel : State.reset.total.toNat = (State.reset.hist.toList.map BitVec.toNat).sum)
  all_goals simp [State.reset, TreeMem.reset, treeBuilt]

theorem witness_HaddMergesAPartialCount :
    let s (a : Word) : State := { State.reset with total := 0xFFFFFFF0#32, arg := a }
    ¬ (s 0x0F#32).total.setWidth 33 + (s 0x0F#32).arg.setWidth 33 > 0xFFFFFFFF#33 ∧
      (s 0x10#32).total.setWidth 33 + (s 0x10#32).arg.setWidth 33 > 0xFFFFFFFF#33 ∧ (s 0).phase ∈ [Phase.load] ∧
      (inPhase .decode).phase ∉ [Phase.load] ∧ (inPhase .decode).phase ≠ .error ∧ (inPhase .error).phase ∉ [Phase.load] := by
  refine ⟨?_, ?_, ?_, ?_, ?_, ?_⟩ <;> decide

theorem witness_SetlenLoadsTheDeclaredLength :
    (inPhase .load).phase ∈ [Phase.load] ∧ (inPhase .decode).phase ∉ [Phase.load] ∧ (inPhase .decode).phase ≠ .error ∧
      (inPhase .error).phase ∉ [Phase.load] ∧ (inPhase .error).phase = .error :=
  phase_witness [.load] .load .decode (by decide) (by decide) (by decide) (by decide)

theorem witness_SetpadLoadsThePadCount :
    (¬ ({ State.reset with arg := 7#32 } : State).arg > 7#32) ∧ ({ State.reset with arg := 8#32 } : State).arg > 7#32 ∧
      (inPhase .load).phase ∈ [Phase.load, .decode] ∧ (inPhase .decode).phase ∈ [Phase.load, .decode] ∧
      (inPhase .encode).phase ∉ [Phase.load, .decode] ∧ (inPhase .encode).phase ≠ .error ∧
      (inPhase .error).phase ∉ [Phase.load, .decode] := by
  refine ⟨?_, ?_, ?_, ?_, ?_, ?_, ?_⟩ <;> decide

theorem witness_BuildeEntersEncode :
    (inPhase .load).phase ∈ [Phase.load] ∧ (inPhase .encode).phase ∉ [Phase.load] ∧ (inPhase .encode).phase ≠ .error ∧
      (inPhase .error).phase ∉ [Phase.load] ∧ (inPhase .error).phase = .error :=
  phase_witness [.load] .load .encode (by decide) (by decide) (by decide) (by decide)

theorem witness_BuilddChecksTheLengthAndEntersDecode :
    State.reset.total = State.reset.origLen ∧
      ({ State.reset with origLen := 1#32 } : State).total ≠ ({ State.reset with origLen := 1#32 } : State).origLen ∧
      State.reset.phase ∈ [Phase.load] ∧ (inPhase .decDone).phase ∉ [Phase.load] ∧ (inPhase .decDone).phase ≠ .error ∧
      (inPhase .error).phase ∉ [Phase.load] := by
  refine ⟨rfl, ?_, ?_, ?_, ?_, ?_⟩ <;> decide

/-- No failing check with the FIFO at the boundary, and each failing check with the earlier ones passed. -/
theorem witness_EncPacksTheCode :
    let s (n : Nat) : State := { encodingAb with fifo := List.replicate n 0#8 }
    (codeLenAt (s 32).codes 0x41#8 ≠ 0 ∧ (s 32).symcnt ≠ (s 32).origLen ∧ ¬ 64 - (s 32).fifo.length < 32) ∧
      codeLenAt (s 0).codes 0x43#8 = 0 ∧
      (codeLenAt encodingAb.codes 0x41#8 ≠ 0 ∧ ({ encodingAb with symcnt := 2#32 } : State).symcnt = encodingAb.origLen) ∧
      64 - (s 33).fifo.length < 32 ∧ (s 0).phase ∈ [Phase.encode] ∧ (inPhase .load).phase ∉ [Phase.encode] := by
  refine ⟨?_, ?_, ?_, ?_, ?_, ?_⟩ <;> decide +kernel

theorem witness_FinalFlushesThePartialByte :
    let s (n : Nat) : State := { inPhase .encode with fill := 1#3, fifo := List.replicate n 0#8 }
    ((s 63).symcnt = (s 63).origLen ∧ ¬ ((s 63).fill ≠ 0 ∧ (s 63).fifo.length = 64)) ∧
      ((s 64).fill ≠ 0 ∧ (s 64).fifo.length = 64) ∧
      ({ s 0 with origLen := 1#32 } : State).symcnt ≠ ({ s 0 with origLen := 1#32 } : State).origLen ∧
      (s 0).phase ∈ [Phase.encode] ∧ (inPhase .encDone).phase ∉ [Phase.encode] := by
  refine ⟨?_, ?_, ?_, ?_, ?_⟩ <;> decide

theorem witness_DfeedUnpacksAByte :
    let bits (b : Byte) := [7, 6, 5, 4, 3, 2, 1, 0].map fun j => b.getLsbD j
    (64 - (List.replicate 57 0#8).length < 8 ∧ 64 - (List.replicate 56 0#8).length ≥ 8) ∧ decodingAbra.phase = .decode ∧
      (∃ t, walkBits (bits 0x59#8) (markExcess decodingAbra) = .done t) ∧
      (∃ e, walkBits (bits 0x80#8) (markExcess decodingOne) = .raise e) ∧
      (∃ f, walkBits (bits 0x00#8) (markExcess { inPhase .decode with origLen := 1#32 }) = .stuck f) ∧
      ((inPhase .load).phase ≠ .decode ∧ (inPhase .load).phase ≠ .error) ∧ (inPhase .error).phase = .error :=
  ⟨by decide, rfl, isDone_exists (by decide +kernel), isRaise_exists (by decide +kernel), isStuck_exists (by decide +kernel),
    by decide, rfl⟩

theorem isDone_and {r : Result} {p : State → Bool}
    (h : (match r with | .done t => p t | .raise _ => false | .stuck _ => false) = true) : ∃ t, r = .done t ∧ p t = true := by
  cases r with
  | done t => exact ⟨t, rfl, h⟩
  | raise _ => cases h
  | stuck _ => cases h

theorem witness_DlastUnpacksTheFinalByte :
    let bits (b : Byte) (n : Nat) := ([7, 6, 5, 4, 3, 2, 1, 0].map fun j => b.getLsbD j).take n
    let last : State := { decodingAbra with symcnt := 7#32, bitcnt := 16#64 }
    (∃ t, walkBits (bits 0x58#8 7) (markExcess decodingAbra) = .done t ∧ decide (t.symcnt.toNat < t.origLen.toNat) = true) ∧
      (∃ t, walkBits (bits 0x58#8 7) (markExcess last) = .done t ∧ decide (t.symcnt.toNat ≥ t.origLen.toNat) = true) ∧
      (∃ e, walkBits (bits 0x80#8 1) (markExcess decodingOne) = .raise e) ∧
      (∃ f, walkBits (bits 0x00#8 8) (markExcess { inPhase .decode with origLen := 1#32 }) = .stuck f) ∧
      8 - decodingAbra.pad.toNat = 7 ∧ 8 - decodingOne.pad.toNat = 1 ∧ 8 - (inPhase .decode).pad.toNat = 8 :=
  ⟨isDone_and (p := fun t => decide (t.symcnt.toNat < t.origLen.toNat)) (by decide +kernel),
    isDone_and (p := fun t => decide (t.symcnt.toNat ≥ t.origLen.toNat)) (by decide +kernel),
    isRaise_exists (by decide +kernel), isStuck_exists (by decide +kernel), by decide, by decide, by decide⟩

theorem witness_DendEndsAStream :
    ¬ ((inPhase .decode).symcnt.toNat < (inPhase .decode).origLen.toNat) ∧ decodingOne.symcnt.toNat < decodingOne.origLen.toNat ∧
      (inPhase .decode).phase ∈ [Phase.decode] ∧ (inPhase .decDone).phase ∉ [Phase.decode] ∧ (inPhase .decDone).phase ≠ .error ∧
      (inPhase .error).phase ∉ [Phase.decode] := by
  refine ⟨?_, ?_, ?_, ?_, ?_, ?_⟩ <;> decide

theorem witness_readback_commands :
    (∀ p, (inPhase p).phase ∈ allPhases) ∧ (0x52000800#32).extractLsb' 24 8 = 0x52#8 ∧ (0x52000800#32).extractLsb' 11 13 ≠ 0#13 ∧
      (0x52800000#32).extractLsb' 11 13 ≠ 0#13 := by
  refine ⟨fun p => by cases p <;> decide, by decide, by decide, by decide⟩

/-- A state with the reset values other than the reset state. -/
theorem resetValues_witness : ResetValues { State.reset with observed := [0#32] } := by
  refine ⟨rfl, rfl, rfl, rfl, rfl, rfl, rfl, rfl, rfl, rfl, rfl, rfl, rfl, ?_, rfl, rfl, rfl, rfl, rfl, rfl, rfl⟩
  intro b
  simp [histAt, State.reset]

theorem witness_FeedsCountTheSequence :
    ResetValues { State.reset with observed := [0#32] } ∧ [0x41#8, 0x42#8, 0x41#8].length ≤ 4294967295 :=
  ⟨resetValues_witness, by decide⟩

/-- P6's two chunks, and the largest admitted sum. -/
theorem witness_MergingPartialCountsAddsThem :
    ResetValues { State.reset with observed := [0#32] } ∧
      ([(0x41#8, some 3#32), (0x41#8, some 2#32), (0x42#8, none)].map countAmount).sum ≤ 4294967295 ∧
      ([(0x78#8, some 0xFFFFFFFF#32)].map countAmount).sum ≤ 4294967295 :=
  ⟨resetValues_witness, by decide, by decide⟩

/-- Every weight equal: the heap order holds at every size, among them 0, 510 and 511. -/
theorem witness_HeapKeepsItsOrder :
    ∀ n, HeapOrdered { TreeMem.reset with hs := n } := by
  have h : ∀ n i, slotWeight { TreeMem.reset with hs := n } i = 0#32 := by
    intro n i; simp [slotWeight, nodeAt, nodeWeight, TreeMem.reset]
  intro n i _ _
  rw [h, h]

/-- A heap of three entries of weights 3, 2 and 1, out of order. -/
def heavyTop : TreeMem :=
  { TreeMem.reset with
    node := ((TreeMem.reset.node.setIfInBounds 0 (.leaf 0#8 3#32)).setIfInBounds 1 (.leaf 0#8 2#32)).setIfInBounds 2 (.leaf 0#8 1#32)
    heap := (TreeMem.reset.heap.setIfInBounds 1 1).setIfInBounds 2 2
    hs := 3 }

/-- A heap of n entries of equal weight. -/
def levelHeap (n : Nat) : TreeMem := { TreeMem.reset with hs := n }

/-- The turns of the sifts: strictly heavier and lighter, and equal weights, with the bounds on HS met exactly. -/
theorem witness_HeapKeepsItsOrder_turns :
    ((slotWeight heavyTop 1).toNat < (slotWeight heavyTop ((1 - 1) / 2)).toNat ∧ 2 * 0 + 2 < heavyTop.hs ∧
      (slotWeight heavyTop (2 * 0 + 2)).toNat < (slotWeight heavyTop (2 * 0 + 1)).toNat ∧
      (slotWeight heavyTop (smallerChild heavyTop 0)).toNat < (slotWeight heavyTop 0).toNat ∧
      heavyTop.hs ≤ 2 * 1 + 1 ∧ ({ heavyTop with hs := 2 } : TreeMem).hs ≤ 2 * 0 + 2) ∧
      (0 < (levelHeap 510).hs ∧ (levelHeap 510).hs < 511 ∧
        (slotWeight (levelHeap 510) ((510 - 1) / 2)).toNat ≤ (nodeWeight (nodeAt (levelHeap 510) 0)).toNat) ∧
      (2 * 0 + 2 < (levelHeap 3).hs ∧
        (slotWeight (levelHeap 3) (2 * 0 + 1)).toNat ≤ (slotWeight (levelHeap 3) (2 * 0 + 2)).toNat ∧
        2 * 0 + 1 < (levelHeap 3).hs ∧
        (slotWeight (levelHeap 3) 0).toNat ≤ (slotWeight (levelHeap 3) (smallerChild (levelHeap 3) 0)).toNat) := by
  refine ⟨?_, ?_, ?_⟩ <;> decide +kernel

theorem ab_hist (b : Byte) : countAt (withHist ab).hist b = if b = 0x42#8 then 1#32 else if b = 0x41#8 then 1#32 else 0#32 := by
  revert b; decide +kernel

theorem one_hist (b : Byte) : countAt (withHist one).hist b = if b = 0x41#8 then 1#32 else 0#32 := by
  revert b; decide +kernel

theorem witness_BuildTreeEdgeCases :
    (∀ b, countAt State.reset.hist b = 0) ∧
      (countAt (withHist one).hist 0x41#8 ≠ 0 ∧ ∀ a, a ≠ 0x41#8 → countAt (withHist one).hist a = 0) ∧
      2 ≤ countedSymbols (withHist ab).hist := by
  refine ⟨fun b => by simp [countAt, State.reset], ⟨by simp [one_hist], fun a h => by simp [one_hist, h]⟩, by decide +kernel⟩

/-- The first and the last counted symbol of "AB". -/
theorem witness_BuildTreeEdgeCases_leaves :
    (countedList (withHist ab).hist)[0]? = some 0x41#8 ∧ (countedList (withHist ab).hist)[1]? = some 0x42#8 := by
  have h : countedList (withHist ab).hist =
      allBytes.filter fun b => (if b = 0x42#8 then 1#32 else if b = 0x41#8 then 1#32 else 0#32) != 0 := by
    simp only [countedList, ab_hist]
  rw [h]
  decide +kernel

theorem witness_StreamLengthIsTheInternalWeight :
    (allBytes.map fun b => (countAt (withHist ab).hist b).toNat).sum ≤ 4294967295 := by
  have h : (allBytes.map fun b => (countAt (withHist ab).hist b).toNat) =
      allBytes.map fun b => if b = 0x42#8 then 1 else if b = 0x41#8 then 1 else 0 := by
    apply List.map_congr_left
    intro b _
    rw [ab_hist]
    split
    · rfl
    · split <;> rfl
  rw [h]
  decide +kernel

/-- Every heap of equal weights from two entries to the largest; HS = 2 and HS = 1 are the bounds of the last clause. -/
theorem witness_MergeTakesTheTwoLightest :
    ∀ n, 2 ≤ n → n ≤ 511 → let t : TreeMem := { TreeMem.reset with hs := n, nn := 510 }
      HeapOrdered t ∧ 2 ≤ t.hs ∧ t.hs ≤ 511 ∧ t.nn < 511 ∧ ∀ i ∈ heapEntries t, i.val < t.nn := by
  intro n h2 h511
  refine ⟨?_, h2, h511, by simp, ?_⟩
  · have h : ∀ i, slotWeight { TreeMem.reset with hs := n, nn := 510 } i = 0#32 := by
      intro i; simp [slotWeight, nodeAt, nodeWeight, TreeMem.reset]
    intro i _ _
    rw [h, h]
  · intro i hi
    simp only [heapEntries, List.mem_map] at hi
    obtain ⟨k, -, rfl⟩ := hi
    by_cases hk : k < 511 <;> simp [heapAt, TreeMem.reset, hk]

theorem witness_CodesAreTheTreePaths : countAt (withHist ab).hist 0x41#8 ≠ 0 := by simp [ab_hist]

theorem witness_CodesArePrefixFree :
    0x41#8 ≠ 0x42#8 ∧ countAt (withHist ab).hist 0x41#8 ≠ 0 ∧ countAt (withHist ab).hist 0x42#8 ≠ 0 := by
  simp [ab_hist]

theorem witness_KraftSumOfTheCodes :
    2 ≤ countedSymbols (withHist ab).hist ∧ countedSymbols (withHist one).hist = 1 :=
  ⟨witness_BuildTreeEdgeCases.2.2, by decide +kernel⟩

/-- ENCs with a POP between them and a POP after FINAL. -/
theorem witness_EncsAndFinalPackTheCodes :
    (encodingAb.phase = .encode ∧ encodingAb.symcnt = 0 ∧ encodingAb.bitcnt = 0 ∧ encodingAb.bitbuf = 0 ∧ encodingAb.fill = 0) ∧
      (∀ i ∈ [Instr.enc 0x41#8, .pop, .enc 0x42#8], i = .pop ∨ ∃ b, i = .enc b) ∧ (∀ i ∈ [Instr.pop], i = .pop) ∧
      ∃ out t, drained ([.enc 0x41#8, .pop, .enc 0x42#8] ++ .final :: [.pop]) encodingAb = some (out, t) ∧ t.phase = .encDone := by
  have h {o : Option (List Byte × State)} (h : (o.map fun r => r.2.phase) = some .encDone) :
      ∃ out t, o = some (out, t) ∧ t.phase = .encDone := by
    obtain ⟨⟨out, t⟩, rfl, ht⟩ := Option.map_eq_some_iff.mp h
    exact ⟨out, t, rfl, ht⟩
  exact ⟨⟨rfl, rfl, rfl, rfl, rfl⟩, by simp, by simp, h (by decide +kernel)⟩

theorem witness_DecodeBitTakesOneStep :
    isInternal State.reset.tree State.reset.cur = false ∧ isInternal oneTree (some 0) = false ∧
      (nodeAt oneTree 1 = .internal 1#32 (some 0) none ∧ nodeAt oneTree 0 = .leaf 0x41#8 1#32) ∧
      (nodeAt abraTree 8 = .internal 11#32 (some 0) (some 7) ∧ nodeAt abraTree 7 = .internal 6#32 (some 1) (some 6)) := by
  refine ⟨?_, ?_, ?_, ?_⟩ <;> decide +kernel

theorem ab_tree : (let t := buildTree (withHist ab).hist TreeMem.reset
    nodeAt t 2 = .internal 2#32 (some 0) (some 1) ∧ t.hs = 0 ∧ t.nn = 3 ∧ t.root = some 2) := by decide +kernel

theorem ab_codes : (let t := genCodes (buildTree (withHist ab).hist TreeMem.reset)
    [codeOf t 0x41#8, codeOf t 0x42#8]) = [[false], [true]] := by decide +kernel

theorem one_tree : (let t := buildTree (withHist one).hist TreeMem.reset
    nodeAt t 1 = .internal 1#32 (some 0) none ∧ t.hs = 0 ∧ t.nn = 2 ∧ t.root = some 1) := by decide +kernel

/-- DECODE after BUILDD of "AB", and of "A" (42_tree_build.md R90). -/
def decodingAb : State :=
  { withHist ab with origLen := 2#32, tree := buildTree (withHist ab).hist TreeMem.reset, cur := some 2, phase := .decode }
def decodingA : State :=
  { withHist one with origLen := 1#32, tree := buildTree (withHist one).hist TreeMem.reset, cur := some 1, phase := .decode }
/-- ERROR with the reset input asserted. -/
def inError (a : Access) : State :=
  { State.reset with phase := .error, errcode := .illegal, errcmd := 0x02000000#32, bus := [a] }

/-- The invariant holds of a state as BUILDD leaves it. -/
theorem decoding_inv (s : State) (i : NodeIdx) (w : Word) (l r : NodeRef)
    (hfresh : s = { State.reset with hist := s.hist, total := s.total, origLen := s.total, phase := .decode, cur := some i,
                                     tree := buildTree s.hist TreeMem.reset })
    (hsum : s.total.toNat = (s.hist.toList.map BitVec.toNat).sum)
    (ht : nodeAt (buildTree s.hist TreeMem.reset) i = .internal w l r ∧ (buildTree s.hist TreeMem.reset).hs = 0 ∧
      (buildTree s.hist TreeMem.reset).nn ≤ 511 ∧ (buildTree s.hist TreeMem.reset).root = some i) : Inv s := by
  obtain ⟨hnode, hs, hnn, hroot⟩ := ht
  rw [hfresh]
  constructor
  case totalIsSum => exact hsum
  case heapEmpty => exact hs
  case arenaBound => exact hnn
  case treeOfHist => exact fun _ => ⟨_, rfl⟩
  case decodePhase => exact fun _ => ⟨rfl, rfl⟩
  case walkReady =>
    intro _ _
    refine ⟨by simp [isInternal, hnode], by simp [isInternal, hroot, hnode], [], ?_⟩
    simp only [hroot]
    exact .here _
  all_goals simp [State.reset]

theorem decodingAb_inv : Inv decodingAb :=
  decoding_inv _ 2 2#32 (some 0) (some 1) rfl (by decide +kernel) ⟨ab_tree.1, ab_tree.2.1, ab_tree.2.2.1 ▸ by decide, ab_tree.2.2.2⟩

theorem decodingAb_tree : decodingAb.tree = buildTree decodingAb.hist TreeMem.reset := by simp only [decodingAb]

theorem decodingA_inv : Inv decodingA :=
  decoding_inv _ 1 1#32 (some 0) none rfl (by decide +kernel) ⟨one_tree.1, one_tree.2.1, one_tree.2.2.1 ▸ by decide, one_tree.2.2.2⟩

theorem inError_inv (a : Access) : Inv (inError a) := by
  constructor
  case totalIsSum => exact (by decide +kernel : State.reset.total.toNat = (State.reset.hist.toList.map BitVec.toNat).sum)
  all_goals simp [inError, State.reset, TreeMem.reset, treeBuilt]

/-- Two or no symbols with any byte; one symbol with the byte 0; an outstanding symbol and none. -/
theorem witness_DfeedCompletes :
    (Inv decodingAb ∧ decodingAb.phase = .decode ∧ decodingAb.fifo.length ≤ 56 ∧ countedSymbols decodingAb.hist ≠ 1) ∧
      (Inv decodingA ∧ decodingA.phase = .decode ∧ decodingA.fifo.length ≤ 56 ∧ 0x00#8 = 0#8) :=
  ⟨⟨decodingAb_inv, rfl, by simp [decodingAb, withHist, ab, State.reset, setHist],
      fun h => absurd (witness_BuildTreeEdgeCases.2.2) (by rw [show countedSymbols (withHist ab).hist = 1 from h]; decide)⟩,
    ⟨decodingA_inv, rfl, by simp [decodingA, withHist, one, State.reset, setHist], rfl⟩⟩

/-- V-DEC-6: DLAST 0x7F with PAD 0. -/
theorem witness_DlastCompletes :
    Inv decodingAb ∧ decodingAb.phase = .decode ∧ decodingAb.cur = decodingAb.tree.root ∧
      (∀ a ∈ [0x41#8, 0x42#8], histAt decodingAb a ≠ 0) ∧
      decodingAb.origLen.toNat = decodingAb.symcnt.toNat + [0x41#8, 0x42#8].length ∧
      byteBits 0x7F#8 (8 - decodingAb.pad.toNat) =
        codeString (genCodes decodingAb.tree) [0x41#8, 0x42#8] ++ [true, true, true, true, true, true] ∧
      ({ decodingAb with symcnt := 2#32 } : State).symcnt = decodingAb.origLen := by
  have h := ab_codes
  simp only [List.cons.injEq, and_true] at h
  refine ⟨decodingAb_inv, rfl, ab_tree.2.2.2.symm, ?_, rfl, ?_, rfl⟩
  · intro a ha
    simp only [List.mem_cons, List.not_mem_nil, or_false] at ha
    show countAt (withHist ab).hist a ≠ 0
    rw [ab_hist]
    rcases ha with rfl | rfl <;> decide
  · rw [decodingAb_tree, show decodingAb.pad = 0#3 by decide +kernel]
    rw [show decodingAb.hist = (withHist ab).hist by simp only [decodingAb]]
    simp only [codeString, List.flatMap_cons, List.flatMap_nil, h.1, h.2]
    decide

theorem witness_CorruptStreamMeansOneSymbol :
    Inv decodingA ∧ decodingA.phase = .decode ∧
      ∃ t, (exec (.dfeed 0x80#8) decodingA = .next t ∨ exec (.dlast 0x80#8) decodingA = .next t) ∧ t.errcode = .corrupt := by
  refine ⟨decodingA_inv, rfl, ?_⟩
  obtain ⟨t, h, hp⟩ := reached_next (o := exec (.dfeed 0x80#8) decodingA) (p := fun t => decide (t.errcode = .corrupt))
    (by decide +kernel)
  exact ⟨t, .inl h, of_decide_eq_true hp⟩

theorem witness_WalkDecodesTheCodes :
    decodingAb.tree = buildTree decodingAb.hist TreeMem.reset ∧ decodingAb.cur = decodingAb.tree.root ∧
      (∀ b ∈ [0x41#8, 0x42#8], histAt decodingAb b ≠ 0) ∧
      decodingAb.origLen.toNat = decodingAb.symcnt.toNat + [0x41#8, 0x42#8].length :=
  ⟨decodingAb_tree, witness_DlastCompletes.2.2.1, witness_DlastCompletes.2.2.2.1, by decide +kernel⟩

/-- The empty input and eleven bytes, from the reset state and from ERROR. -/
theorem witness_DecompressOfCompressIsTheInput :
    ([] : List Byte).length ≤ 4294967295 ∧ [0x41#8, 0x42#8, 0x52#8, 0x41#8].length ≤ 4294967295 ∧ State.reset.busy = false ∧
      (inPhase .error).busy = false := by
  refine ⟨by simp, by simp, rfl, rfl⟩

theorem witness_ContainerParsesBack :
    let c : Container := { origLen := 0xFFFFFFFF#32, pad := 7#8, counts := List.replicate 256 0xFFFFFFFF#32, stream := [0x58#8] }
    let e : Container := { origLen := 0#32, pad := 0#8, counts := List.replicate 256 0#32, stream := [] }
    (c.counts.length = 256 ∧ c.pad.toNat ≤ 7 ∧ (c.stream = [] → c.pad = 0)) ∧
      (e.counts.length = 256 ∧ e.pad.toNat ≤ 7 ∧ (e.stream = [] → e.pad = 0)) := by
  refine ⟨⟨List.length_replicate, by decide, by simp⟩, ⟨List.length_replicate, by decide, by simp⟩⟩

theorem witness_ErrorsArePrecise :
    (∃ t, issueCommand 0x30000041#32 State.reset = .next t ∧ State.reset.phase ≠ .error ∧ t.phase = .error) ∧
      (∃ t, issueCommand 0x02000000#32 State.reset = .next t ∧ State.reset.phase ≠ .error ∧ t.phase = .error) ∧
      ∃ t, issueCommand 0x50000041#32 (inPhase .error) = .next t ∧ (inPhase .error).phase = .error ∧ t.phase = .error :=
  ⟨⟨_, rfl, by decide, rfl⟩, ⟨_, rfl, by decide, rfl⟩, ⟨_, rfl, rfl, rfl⟩⟩

theorem witness_ErrorPhaseIgnoresCommands :
    (inPhase .error).phase = .error ∧ (Instr.setpad ≠ .nop ∧ Instr.setpad ≠ .clear ∧ Instr.setpad ≠ .pop ∧
      (∀ b, Instr.setpad ≠ .hrd b) ∧ (∀ b, Instr.setpad ≠ .clrd b) ∧ ∀ b k, Instr.setpad ≠ .cbrd b k) := by
  refine ⟨rfl, ?_⟩
  simp

theorem witness_OnlyClearAndResetLeaveError :
    (∃ t, Inv (inError .reset) ∧ step (inError .reset) = .next t ∧ (inError .reset).phase = .error ∧ t.phase ≠ .error) ∧
      ∃ t, Inv (inError (cmdAccess .clear)) ∧ step (inError (cmdAccess .clear)) = .next t ∧ t.phase ≠ .error :=
  ⟨⟨_, inError_inv _, rfl, rfl, by decide⟩, ⟨_, inError_inv _, rfl, by decide⟩⟩

/-- A next state of a writer and of a command that writes none of them. -/
theorem witness_ArgAndResultWriters :
    (∃ t, exec .clear (inPhase .decDone) = .next t) ∧ (∃ t, exec (.enc 0x41#8) State.reset = .next t) ∧
      ∃ t, exec .setlen State.reset = .next t := ⟨⟨_, rfl⟩, ⟨_, rfl⟩, ⟨_, rfl⟩⟩

theorem witness_FlagWriters :
    (∃ t, exec (.enc 0x41#8) State.reset = .next t ∧ State.reset.phase ≠ .error ∧ t.phase = .error) ∧
    (∃ t, exec .clear (inError .reset) = .next t ∧ (inError .reset).phase = .error ∧ t.phase ≠ .error) ∧
      (∃ t, exec .clear { State.reset with ctValid := true, excess := true } = .next t ∧ t.ctValid ≠ true ∧ t.excess ≠ true) ∧
      (∃ t, exec .builde State.reset = .next t ∧ t.ctValid ≠ State.reset.ctValid) ∧
      ∃ t, exec (.dfeed 0xFF#8) (inPhase .decode) = .next t ∧ t.excess ≠ (inPhase .decode).excess :=
  ⟨⟨_, rfl, by decide, rfl⟩, ⟨_, rfl, rfl, by decide⟩, ⟨_, rfl, by decide, by decide⟩, ⟨_, rfl, by decide⟩, ⟨_, rfl, by decide⟩⟩

theorem witness_MemoryWriters :
    (∃ t, exec .pop { State.reset with fifo := [1#8] } = .next t) ∧ (∃ t, exec (.feed 0x41#8) State.reset = .next t) ∧
      (∃ t, exec .clear State.reset = .next t) ∧ ∃ t, exec .final { inPhase .encode with fill := 7#3 } = .next t :=
  ⟨⟨_, rfl⟩, ⟨_, rfl⟩, ⟨_, rfl⟩, ⟨_, rfl⟩⟩

theorem witness_StreamRegisterWriters :
    (∃ t, exec .final (inPhase .encode) = .next t) ∧ (∃ t, exec .dend (inPhase .decode) = .next t) ∧
      ∃ t, exec .nop State.reset = .next t := ⟨⟨_, rfl⟩, ⟨_, rfl⟩, ⟨_, rfl⟩⟩

theorem witness_EveryStepKeepsTheInvariant :
    Inv (inError (cmdAccess .pop)) ∧ ∃ t, step (inError (cmdAccess .pop)) = .next t := ⟨inError_inv _, _, rfl⟩

theorem witness_NoFaultAndOnlyBadAccessesRefused :
    Inv (inError (.read .byte 0x08#8)) ∧ step (inError (.read .byte 0x08#8)) = .refused .accessNotAdmitted :=
  ⟨inError_inv _, rfl⟩

end Sys2Proof.Tests
end

section
/-! SUPPORT. What a command that answers a next state can do (40_control.md R72, R73): one rule for each command, and the
constructor of `Completes` that says everything the rule does when it completes. -/

namespace Sys2Proof.Machine

open Sys2Proof.Claims

/-- The rule of a command, which `exec` runs as the command step of 40_control.md R72. -/
def ruleOf : Instr → State → Result
  | .nop => .done
  | .clear => fun s => .done (clearBlock s)
  | .feed b => countSymbol b 1
  | .hadd b => fun s => countSymbol b s.arg s
  | .setlen => fun s => .done { s with origLen := s.arg }
  | .setpad => setPad
  | .builde => fun s => .done (buildForEncode s)
  | .buildd => buildForDecode
  | .enc b => encSymbol b
  | .final => finishStream
  | .dfeed b => feedBits b 8
  | .dlast b => feedLast b
  | .dend => endStream
  | .hrd b => fun s => .done { s with result := histAt s b }
  | .clrd b => fun s => .done { s with result := if s.ctValid then (codeLenAt s.codes b).setWidth 32 else 0 }
  | .cbrd b k => fun s => .done { s with result := if s.ctValid then patternWord (codePatAt s.codes b) k else 0 }
  | .pop => fun s => .done (popByte s)

theorem exec_eq_runCommand (i : Instr) (s : State) : exec i s = runCommand i (ruleOf i) s := by cases i <;> rfl

/-- CLEAR completes in every phase. -/
theorem exec_clear (s : State) : exec .clear s = .next (clearBlock s) := rfl

/-- POP completes in every phase. -/
theorem exec_pop (s : State) : exec .pop s = .next (popByte s) := rfl

section Walk

variable {b : Bool} {bs : List Bool} {s t : State} {e : ErrCode}

/-- A walk that completes changes FIFO, SYMCNT, BITCNT and CUR only, whatever the state it begins in. -/
theorem walkBits_done_walked (h : walkBits bs s = .done t) : ∃ syms n cur, t = walked syms n cur s := by
  induction bs generalizing s with
  | nil => cases h; exact ⟨[], 0, _, (walked_nil _).symm⟩
  | cons b bs ih =>
    unfold walkBits at h
    split at h
    · cases h; exact ⟨[], 0, _, (walked_nil _).symm⟩
    · split at h
      next u hu =>
        obtain ⟨syms, n, cur, rfl⟩ := ih h
        obtain ⟨-, -, -, -, nxt, -, -, -, ⟨sym, -, -, rfl⟩ | ⟨-, -, -, -, rfl⟩⟩ := decodeBit_done_cases hu
        · exact ⟨_, _, _, walked_walked ..⟩
        · exact ⟨_, _, _, walked_walked ..⟩
      next => cases h
      next => cases h

/-- A step of the walk raises CORRUPT only (44_decode.md R96). -/
theorem decodeBit_raise (h : decodeBit b s = .raise e) : e = .corrupt := by
  unfold decodeBit at h
  split at h
  · split at h
    · cases h; rfl
    · split at h <;> cases h
  · cases h
  · cases h

/-- A walk raises CORRUPT only (44_decode.md R96). -/
theorem walkBits_raise (h : walkBits bs s = .raise e) : e = .corrupt := by
  induction bs generalizing s with
  | nil => cases h
  | cons b bs ih =>
    unfold walkBits at h
    split at h
    · cases h
    · split at h
      next => exact ih h
      next hd => cases h; exact decodeBit_raise hd
      next => cases h

/-- FeedBits begins by marking EXCESS (44_decode.md R97). -/
theorem feedBits_eq (v : Byte) (n : Nat) (s : State) :
    feedBits v n s =
      if fifoRoom s < Config.decRoom then .raise .overrun else walkBits (byteBits v n) (markExcess s) := by
  unfold feedBits markExcess
  by_cases hx : s.symcnt = s.origLen <;> simp [hx]

end Walk

/-- Everything a command can do when its rule completes: the phases that accept it, the checks it passes and the state it
answers. -/
inductive Completes (s : State) : Instr → State → Prop
  | nop : Completes s .nop s
  | clear : Completes s .clear (clearBlock s)
  | feed {b : Byte} (hp : s.phase = .load) (hsum : s.total.toNat + (1#32).toNat ≤ 0xFFFFFFFF) :
      Completes s (.feed b) (setHist b (histAt s b + 1#32) { s with total := s.total + 1#32 })
  | hadd {b : Byte} (hp : s.phase = .load) (hsum : s.total.toNat + s.arg.toNat ≤ 0xFFFFFFFF) :
      Completes s (.hadd b) (setHist b (histAt s b + s.arg) { s with total := s.total + s.arg })
  | setlen (hp : s.phase = .load) : Completes s .setlen { s with origLen := s.arg }
  | setpad (hp : s.phase = .load ∨ s.phase = .decode) (harg : s.arg.toNat ≤ 7) :
      Completes s .setpad { s with pad := s.arg.extractLsb' 0 3 }
  | builde (hp : s.phase = .load) : Completes s .builde (buildForEncode s)
  | buildd (hp : s.phase = .load) (hlen : s.total = s.origLen) :
      Completes s .buildd { s with
        tree := buildTree s.hist s.tree, symcnt := 0, bitcnt := 0, cur := (buildTree s.hist s.tree).root,
        ctValid := false, phase := .decode }
  | enc {b : Byte} (hp : s.phase = .encode) (hcode : codeLenAt s.codes b ≠ 0) (hout : s.symcnt ≠ s.origLen)
      (hroom : Config.encRoom ≤ fifoRoom s) :
      Completes s (.enc b) { putBits (codeOf s.codes b) s with symcnt := s.symcnt + 1 }
  | flush (hp : s.phase = .encode) (hall : s.symcnt = s.origLen) (hfill : s.fill ≠ 0)
      (hroom : fifoCount s ≠ Config.outDepth) :
      Completes s .final (fifoPush s.bitbuf
        { s with pad := BitVec.ofNat 3 (8 - s.fill.toNat), bitbuf := 0, fill := 0, phase := .encDone })
  | aligned (hp : s.phase = .encode) (hall : s.symcnt = s.origLen) (hfill : s.fill = 0) :
      Completes s .final { s with pad := 0, phase := .encDone }
  | dfeed {b : Byte} {syms : List Byte} {n : Nat} {cur : NodeRef} (hp : s.phase = .decode)
      (hroom : Config.decRoom ≤ fifoRoom s)
      (hwalk : walkBits (byteBits b 8) (markExcess s) = .done (walked syms n cur (markExcess s))) :
      Completes s (.dfeed b) (walked syms n cur (markExcess s))
  | dlast {b : Byte} {syms : List Byte} {n : Nat} {cur : NodeRef} (hp : s.phase = .decode)
      (hroom : Config.decRoom ≤ fifoRoom s)
      (hwalk : walkBits (byteBits b (8 - s.pad.toNat)) (markExcess s) = .done (walked syms n cur (markExcess s)))
      (hall : s.origLen.toNat ≤ (walked syms n cur (markExcess s)).symcnt.toNat) :
      Completes s (.dlast b) { walked syms n cur (markExcess s) with phase := .decDone }
  | dend (hp : s.phase = .decode) (hall : s.origLen.toNat ≤ s.symcnt.toNat) :
      Completes s .dend { s with phase := .decDone }
  | hrd {b : Byte} : Completes s (.hrd b) { s with result := histAt s b }
  | clrd {b : Byte} :
      Completes s (.clrd b) { s with result := if s.ctValid then (codeLenAt s.codes b).setWidth 32 else 0 }
  | cbrd {b : Byte} {k : BitVec 3} :
      Completes s (.cbrd b k) { s with result := if s.ctValid then patternWord (codePatAt s.codes b) k else 0 }
  | pop : Completes s .pop (popByte s)

section RuleCases

variable {i : Instr} {s t : State} {e : ErrCode}

theorem countSymbol_done {b : Byte} {a : Word} (h : countSymbol b a s = .done t) :
    s.total.toNat + a.toNat ≤ 0xFFFFFFFF ∧ t = setHist b (histAt s b + a) { s with total := s.total + a } := by
  unfold countSymbol at h
  split at h
  next => cases h
  next hsum => cases h; exact ⟨by omega, rfl⟩

theorem encSymbol_done {b : Byte} (h : encSymbol b s = .done t) :
    codeLenAt s.codes b ≠ 0 ∧ s.symcnt ≠ s.origLen ∧ Config.encRoom ≤ fifoRoom s ∧
      t = { putBits (codeOf s.codes b) s with symcnt := s.symcnt + 1 } := by
  unfold encSymbol at h
  split at h
  next => cases h
  next hcode =>
    split at h
    next => cases h
    next hout =>
      split at h
      next => cases h
      next hroom => cases h; exact ⟨hcode, hout, by omega, by rw [putBits_symcnt]⟩

theorem finishStream_done (hp : s.phase = .encode) (h : finishStream s = .done t) : Completes s .final t := by
  unfold finishStream at h
  split at h
  next => cases h
  next hall =>
    have hall : s.symcnt = s.origLen := by simpa using hall
    split at h
    next => cases h
    next hroom =>
      split at h
      next hfill => cases h; exact .flush hp hall hfill fun hfull => hroom ⟨hfill, hfull⟩
      next hfill => cases h; exact .aligned hp hall (by simpa using hfill)

theorem feedBits_done {v : Byte} {n : Nat} (h : feedBits v n s = .done t) :
    Config.decRoom ≤ fifoRoom s ∧ walkBits (byteBits v n) (markExcess s) = .done t := by
  rw [feedBits_eq] at h
  split at h
  next => cases h
  next hroom => exact ⟨by omega, h⟩

theorem endStream_done (h : endStream s = .done t) :
    s.origLen.toNat ≤ s.symcnt.toNat ∧ t = { s with phase := .decDone } := by
  unfold endStream at h
  split at h
  next => cases h
  next hall => cases h; exact ⟨by omega, rfl⟩

theorem feedLast_done {b : Byte} (h : feedLast b s = .done t) :
    ∃ u, feedBits b (8 - s.pad.toNat) s = .done u ∧ endStream u = .done t := by
  unfold feedLast at h
  split at h
  next u hu => exact ⟨u, hu, h⟩
  next => cases h
  next => cases h

/-- Every accepted command whose rule completes is one of the constructors of `Completes`. -/
theorem completes_of_rule_done (ha : acceptedIn i s.phase = true) (h : ruleOf i s = .done t) : Completes s i t := by
  cases i with
  | nop => cases h; exact .nop
  | clear => cases h; exact .clear
  | feed b => obtain ⟨hsum, rfl⟩ := countSymbol_done h; exact .feed (by simpa [acceptedIn] using ha) hsum
  | hadd b => obtain ⟨hsum, rfl⟩ := countSymbol_done h; exact .hadd (by simpa [acceptedIn] using ha) hsum
  | setlen => cases h; exact .setlen (by simpa [acceptedIn] using ha)
  | setpad =>
    simp only [ruleOf, setPad] at h
    split at h
    next => cases h
    next harg => cases h; exact .setpad (by simpa [acceptedIn] using ha) (by omega)
  | builde => cases h; exact .builde (by simpa [acceptedIn] using ha)
  | buildd =>
    simp only [ruleOf, buildForDecode] at h
    split at h
    next => cases h
    next hlen => cases h; exact .buildd (by simpa [acceptedIn] using ha) (by simpa using hlen)
  | enc b =>
    obtain ⟨hcode, hout, hroom, rfl⟩ := encSymbol_done h
    exact .enc (by simpa [acceptedIn] using ha) hcode hout hroom
  | final => exact finishStream_done (by simpa [acceptedIn] using ha) h
  | dfeed b =>
    obtain ⟨hroom, hwalk⟩ := feedBits_done h
    obtain ⟨syms, n, cur, rfl⟩ := walkBits_done_walked hwalk
    exact .dfeed (by simpa [acceptedIn] using ha) hroom hwalk
  | dlast b =>
    obtain ⟨u, hu, hend⟩ := feedLast_done h
    obtain ⟨hroom, hwalk⟩ := feedBits_done hu
    obtain ⟨syms, n, cur, rfl⟩ := walkBits_done_walked hwalk
    obtain ⟨hall, rfl⟩ := endStream_done hend
    exact .dlast (by simpa [acceptedIn] using ha) hroom hwalk hall
  | dend => obtain ⟨hall, rfl⟩ := endStream_done h; exact .dend (by simpa [acceptedIn] using ha) hall
  | hrd b => cases h; exact .hrd
  | clrd b => cases h; exact .clrd
  | cbrd b k => cases h; exact .cbrd
  | pop => cases h; exact .pop

theorem countSymbol_raise {b : Byte} {a : Word} (h : countSymbol b a s = .raise e) : e = .overflow := by
  unfold countSymbol at h
  split at h <;> cases h
  rfl

theorem feedBits_raise {v : Byte} {n : Nat} (h : feedBits v n s = .raise e) : e = .overrun ∨ e = .corrupt := by
  rw [feedBits_eq] at h
  split at h
  · cases h; exact .inl rfl
  · exact .inr (walkBits_raise h)

theorem endStream_raise (h : endStream s = .raise e) : e = .truncated := by
  unfold endStream at h
  split at h <;> cases h
  rfl

theorem feedLast_raise {b : Byte} (h : feedLast b s = .raise e) : e = .overrun ∨ e = .corrupt ∨ e = .truncated := by
  unfold feedLast at h
  split at h
  · exact .inr (.inr (endStream_raise h))
  next hf => cases h; exact (feedBits_raise hf).imp_right .inl
  · cases h

theorem encSymbol_raise {b : Byte} (h : encSymbol b s = .raise e) : e = .noCode ∨ e = .length ∨ e = .overrun := by
  unfold encSymbol at h
  split at h
  · cases h; exact .inl rfl
  · split at h
    · cases h; exact .inr (.inl rfl)
    · split at h <;> cases h
      exact .inr (.inr rfl)

theorem finishStream_raise (h : finishStream s = .raise e) : e = .length ∨ e = .overrun := by
  unfold finishStream at h
  split at h
  · cases h; exact .inl rfl
  · split at h
    · cases h; exact .inr rfl
    · split at h <;> cases h

/-- An error the model records: NONE is no error, and BUSY is recorded by hardware only (60_exceptions.md R106, R112). -/
def Recordable (e : ErrCode) : Prop := e ≠ .none ∧ e ≠ .busy

/-- No rule raises NONE or BUSY, and no command that is accepted in ERROR raises anything. -/
theorem ruleOf_raise (ha : acceptedIn i s.phase = true) (h : ruleOf i s = .raise e) :
    Recordable e ∧ s.phase ≠ .error := by
  have outside (hi : acceptedIn i .error = false) : s.phase ≠ .error := by
    intro hp
    rw [hp, hi] at ha
    cases ha
  cases i with
  | nop | clear | setlen | builde | hrd | clrd | cbrd | pop => cases h
  | feed b | hadd b => cases countSymbol_raise h; exact ⟨by simp [Recordable], outside rfl⟩
  | setpad =>
    simp only [ruleOf, setPad] at h
    split at h <;> cases h
    exact ⟨by simp [Recordable], outside rfl⟩
  | buildd =>
    simp only [ruleOf, buildForDecode] at h
    split at h <;> cases h
    exact ⟨by simp [Recordable], outside rfl⟩
  | enc b => obtain rfl | rfl | rfl := encSymbol_raise h <;> exact ⟨by simp [Recordable], outside rfl⟩
  | final => obtain rfl | rfl := finishStream_raise h <;> exact ⟨by simp [Recordable], outside rfl⟩
  | dfeed b => obtain rfl | rfl := feedBits_raise h <;> exact ⟨by simp [Recordable], outside rfl⟩
  | dlast b => obtain rfl | rfl | rfl := feedLast_raise h <;> exact ⟨by simp [Recordable], outside rfl⟩
  | dend => cases endStream_raise h; exact ⟨by simp [Recordable], outside rfl⟩

end RuleCases

/-- Everything a command that answers a next state can do (40_control.md R72): it completes; or, outside ERROR, it records
an error and nothing else; or, in ERROR, it is ignored. -/
theorem exec_next_cases {i : Instr} {s t : State} (h : exec i s = .next t) :
    Completes s i t ∨
    (s.phase ≠ .error ∧ ∃ e, Recordable e ∧ t = errorRecorded e (encode i) s) ∨
    (s.phase = .error ∧ t = s) := by
  rw [exec_eq_runCommand] at h
  obtain ⟨ha, hr⟩ | ⟨e, ha, hr, rfl⟩ | ⟨-, hp, rfl⟩ | ⟨-, hp, rfl⟩ := runCommand_next_cases h
  · exact .inl (completes_of_rule_done ha hr)
  · obtain ⟨he, hp⟩ := ruleOf_raise ha hr
    exact .inr (.inl ⟨hp, e, he, recordError_eq e _ s hp⟩)
  · exact .inr (.inr ⟨hp, rfl⟩)
  · exact .inr (.inl ⟨hp, .sequence, by simp [Recordable], recordError_eq _ _ s hp⟩)

/-- A word written to CMD that answers a next state runs a command or, being illegal, records ILLEGAL outside ERROR
(30_encoding.md R65, 40_control.md R72). -/
theorem issueCommand_next_cases {c : Word} {s t : State} (h : issueCommand c s = .next t) :
    (∃ i, decode c = .ok i ∧ exec i s = .next t) ∨
    (s.phase ≠ .error ∧ t = errorRecorded .illegal c s) ∨ (s.phase = .error ∧ t = s) := by
  unfold issueCommand at h
  split at h
  next =>
    cases h
    by_cases hp : s.phase = .error
    · exact .inr (.inr ⟨hp, recordError_in_error _ _ s hp⟩)
    · exact .inr (.inl ⟨hp, recordError_eq _ _ s hp⟩)
  next i hi => exact .inl ⟨i, hi, h⟩

end Sys2Proof.Machine
end

section
/-! SUPPORT. What a completed command leaves unchanged (40_control.md R73), and the statements of who writes what. -/

namespace Sys2Proof.Machine

open Sys2Proof.Claims

section Frames

variable {s t : State} {i : Instr}

/-- PutBit into a byte that it does not complete. -/
theorem putBit_of_fill_ne (b : Bool) (s : State) (h : s.fill ≠ 7) : putBit b s =
    { s with bitcnt := s.bitcnt + 1, bitbuf := setBit (7 - s.fill.toNat) b s.bitbuf, fill := s.fill + 1 } :=
  if_neg h

/-- PutBit that completes a byte. -/
theorem putBit_of_fill_eq (b : Bool) (s : State) (h : s.fill = 7) : putBit b s =
    { s with
      bitcnt := s.bitcnt + 1, fifo := s.fifo ++ [setBit (7 - s.fill.toNat) b s.bitbuf], bitbuf := 0, fill := 0 } :=
  if_pos h

/-- PutBits only appends to the FIFO. -/
theorem putBits_fifo_extends (bs : List Bool) (s : State) : ∃ ps, (putBits bs s).fifo = s.fifo ++ ps := by
  induction bs generalizing s with
  | nil => exact ⟨[], by simp⟩
  | cons b bs ih =>
    obtain ⟨ps, hps⟩ := ih (putBit b s)
    rw [putBits_cons, hps]
    by_cases h : s.fill = 7
    · rw [putBit_of_fill_eq b s h]
      exact ⟨_, List.append_assoc ..⟩
    · rw [putBit_of_fill_ne b s h]
      exact ⟨ps, rfl⟩

theorem popByte_fifo (s : State) : (popByte s).fifo = s.fifo.tail := by
  unfold popByte
  split <;> simp [*]

/-- POP takes a byte off the FIFO, writes RESULT and does nothing else (45_readback.md R105). -/
theorem popByte_eq (s : State) : popByte s = { s with result := (popByte s).result, fifo := s.fifo.tail } := by
  unfold popByte
  split <;> simp [*]

theorem Completes.arg_eq (h : Completes s i t) (hi : i ≠ .clear) : t.arg = s.arg := by
  cases h with
  | clear => exact absurd rfl hi
  | enc => exact putBits_arg ..
  | pop => rw [popByte_eq]
  | _ => rfl

/-- Only CLEAR and the read-backs write RESULT (10_state.md R23). -/
theorem Completes.result_eq (h : Completes s i t) (hclear : i ≠ .clear) (hpop : i ≠ .pop) (hhrd : ∀ b, i ≠ .hrd b)
    (hclrd : ∀ b, i ≠ .clrd b) (hcbrd : ∀ b k, i ≠ .cbrd b k) : t.result = s.result := by
  cases h with
  | clear => exact absurd rfl hclear
  | pop => exact absurd rfl hpop
  | hrd => exact absurd rfl (hhrd _)
  | clrd => exact absurd rfl (hclrd _)
  | cbrd => exact absurd rfl (hcbrd _ _)
  | enc => exact putBits_result ..
  | _ => rfl

/-- A command that completes does not enter ERROR. -/
theorem Completes.phase_ne_error (h : Completes s i t) (hp : s.phase ≠ .error) : t.phase ≠ .error := by
  cases h with
  | enc => simpa using hp
  | pop => rw [popByte_eq]; exact hp
  | clear | builde | buildd | flush | aligned | dlast | dend => nofun
  | _ => exact hp

/-- Only CLEAR leaves ERROR (60_exceptions.md R109). -/
theorem Completes.eq_clear_of_leaves_error (h : Completes s i t) (hs : s.phase = .error) (ht : t.phase ≠ .error) :
    i = .clear := by
  cases h with
  | clear => rfl
  | nop | hrd | clrd | cbrd => exact absurd hs ht
  | pop => rw [popByte_eq] at ht; exact absurd hs ht
  | setpad hp => simp [hs] at hp
  | feed hp | hadd hp | setlen hp | builde hp | buildd hp | enc hp | flush hp | aligned hp | dfeed hp | dlast hp
  | dend hp => simp [hs] at hp

/-- CT_VALID is set by BUILDE and cleared by CLEAR and BUILDD only (10_state.md R30). -/
theorem Completes.ctValid_cases (h : Completes s i t) :
    t.ctValid = s.ctValid ∨ (i = .builde ∧ t.ctValid = true) ∨ ((i = .clear ∨ i = .buildd) ∧ t.ctValid = false) := by
  cases h with
  | clear => exact .inr (.inr ⟨.inl rfl, rfl⟩)
  | builde => exact .inr (.inl ⟨rfl, rfl⟩)
  | buildd => exact .inr (.inr ⟨.inr rfl, rfl⟩)
  | enc => exact .inl (putBits_ctValid ..)
  | pop => rw [popByte_eq]; exact .inl rfl
  | _ => exact .inl rfl

/-- EXCESS is cleared by CLEAR and set by a stream byte that finds no symbol outstanding only (10_state.md R30). -/
theorem Completes.excess_cases (h : Completes s i t) :
    t.excess = s.excess ∨ (i = .clear ∧ t.excess = false) ∨
      ((∃ b, i = .dfeed b ∨ i = .dlast b) ∧ t.excess = (s.excess || decide (s.symcnt = s.origLen))) := by
  cases h with
  | clear => exact .inr (.inl ⟨rfl, rfl⟩)
  | dfeed => exact .inr (.inr ⟨⟨_, .inl rfl⟩, rfl⟩)
  | dlast => exact .inr (.inr ⟨⟨_, .inr rfl⟩, rfl⟩)
  | enc => exact .inl (putBits_excess ..)
  | pop => rw [popByte_eq]; exact .inl rfl
  | _ => exact .inl rfl

/-- No command writes BUSY (10_state.md R29). -/
theorem Completes.busy_eq (h : Completes s i t) : t.busy = s.busy := by
  cases h with
  | enc => exact putBits_busy ..
  | pop => rw [popByte_eq]
  | _ => rfl

/-- HIST[b] is written by CLEAR, FEED b and HADD b only (10_state.md R31). -/
theorem Completes.histAt_eq (h : Completes s i t) (b : Byte) (hclear : i ≠ .clear) (hfeed : i ≠ .feed b)
    (hhadd : i ≠ .hadd b) : histAt t b = histAt s b := by
  cases h with
  | clear => exact absurd rfl hclear
  | feed => exact histAt_setHist_other _ _ _ _ fun e => hfeed (e ▸ rfl)
  | hadd => exact histAt_setHist_other _ _ _ _ fun e => hhadd (e ▸ rfl)
  | enc => simp [histAt]
  | pop => rw [popByte_eq]; rfl
  | _ => rfl

/-- The tree memories are written by CLEAR and the builds only (10_state.md R34). -/
theorem Completes.tree_eq (h : Completes s i t) (hclear : i ≠ .clear) (hbuilde : i ≠ .builde)
    (hbuildd : i ≠ .buildd) : t.tree = s.tree := by
  cases h with
  | clear => exact absurd rfl hclear
  | builde => exact absurd rfl hbuilde
  | buildd => exact absurd rfl hbuildd
  | enc => exact putBits_tree ..
  | pop => rw [popByte_eq]
  | _ => rfl

/-- The code table is written by BUILDE only (10_state.md R35). -/
theorem Completes.codes_eq (h : Completes s i t) (hbuilde : i ≠ .builde) : t.codes = s.codes := by
  cases h with
  | builde => exact absurd rfl hbuilde
  | enc => exact putBits_codes ..
  | pop => rw [popByte_eq]
  | _ => rfl

/-- But for CLEAR and POP the FIFO only grows at its end, and only by the commands that emit bytes (10_state.md R36). -/
theorem Completes.fifo_extends (h : Completes s i t) (hclear : i ≠ .clear) (hpop : i ≠ .pop) :
    ∃ bs, t.fifo = s.fifo ++ bs ∧
      (bs ≠ [] → (∃ b, i = .enc b) ∨ i = .final ∨ (∃ b, i = .dfeed b) ∨ ∃ b, i = .dlast b) := by
  cases h with
  | clear => exact absurd rfl hclear
  | pop => exact absurd rfl hpop
  | enc =>
    obtain ⟨ps, hps⟩ := putBits_fifo_extends (codeOf s.codes _) s
    exact ⟨ps, hps, fun _ => .inl ⟨_, rfl⟩⟩
  | flush => exact ⟨[s.bitbuf], rfl, fun _ => .inr (.inl rfl)⟩
  | dfeed => exact ⟨_, rfl, fun _ => .inr (.inr (.inl ⟨_, rfl⟩))⟩
  | dlast => exact ⟨_, rfl, fun _ => .inr (.inr (.inr ⟨_, rfl⟩))⟩
  | _ => exact ⟨[], (List.append_nil _).symm, fun hne => absurd rfl hne⟩

end Frames

/-- Settles O54: a completed command writes ARG and RESULT as its rule says, and an error entry writes neither. -/
theorem argAndResultWriters : Obligations.ArgAndResultWriters := by
  intro i s t h
  refine ⟨fun hi => ?_, ?_, fun hclear hpop hhrd hclrd hcbrd => ?_⟩
  · obtain hc | ⟨-, e, -, rfl⟩ | ⟨-, rfl⟩ := exec_next_cases h
    · exact hc.arg_eq hi
    · rfl
    · rfl
  · rintro rfl
    cases (exec_clear s).symm.trans h
    exact ⟨rfl, rfl⟩
  · obtain hc | ⟨-, e, -, rfl⟩ | ⟨-, rfl⟩ := exec_next_cases h
    · exact hc.result_eq hclear hpop hhrd hclrd hcbrd
    · rfl
    · rfl

/-- Settles O55: of the three things a command can do, an error entry alone sets ERR, and a completed command alone writes
the other flags. -/
theorem flagWriters : Obligations.FlagWriters := by
  intro i s t h
  obtain hc | ⟨hp, e, he, rfl⟩ | ⟨hp, rfl⟩ := exec_next_cases h
  · refine ⟨fun hp => ⟨fun ht => absurd ht (hc.phase_ne_error hp), ?_⟩, hc.eq_clear_of_leaves_error,
      fun hne => hc.ctValid_cases.resolve_left hne, fun hne => ?_, hc.busy_eq⟩
    · rintro ⟨e, -, -, rfl⟩
      rfl
    · refine (hc.excess_cases.resolve_left hne).imp_right fun ⟨hi, hx⟩ => ?_
      by_cases hout : s.symcnt = s.origLen
      · exact ⟨hi, hout, by simp [hx, hout]⟩
      · exact absurd (by simpa [hout] using hx) hne
  · exact ⟨fun _ => ⟨fun _ => ⟨e, he.1, he.2, rfl⟩, fun _ => rfl⟩, fun hp' => absurd hp' hp,
      fun hne => absurd rfl hne, fun hne => absurd rfl hne, rfl⟩
  · exact ⟨fun hp' => absurd hp hp', fun _ hp' => absurd hp hp', fun hne => absurd rfl hne,
      fun hne => absurd rfl hne, rfl⟩

/-- Settles O56: a completed command writes the memories its rule names, and an error entry writes none. -/
theorem memoryWriters : Obligations.MemoryWriters := by
  intro i s t h
  have hclear : i = .clear → t.fifo = [] := by
    rintro rfl
    cases (exec_clear s).symm.trans h
    rfl
  have hpop : i = .pop → t.fifo = s.fifo.tail := by
    rintro rfl
    cases (exec_pop s).symm.trans h
    exact popByte_fifo s
  obtain hc | ⟨-, e, -, rfl⟩ | ⟨-, rfl⟩ := exec_next_cases h
  · exact ⟨hc.histAt_eq, hc.tree_eq, hc.codes_eq, hclear, hpop, hc.fifo_extends⟩
  all_goals exact ⟨fun _ _ _ _ => rfl, fun _ _ _ => rfl, fun _ => rfl, hclear, hpop,
    fun _ _ => ⟨[], (List.append_nil _).symm, fun hne => absurd rfl hne⟩⟩

end Sys2Proof.Machine
end

section
/-! SUPPORT. The fields of the STATUS word (10_state.md R18). -/

namespace Sys2Proof.Machine

section Status

variable (s : State)

theorem statusWord_phase : (statusWord s).extractLsb' 0 3 = phaseCode s.phase := by
  ext j hj
  simp only [statusWord, BitVec.getElem_extractLsb', BitVec.getLsbD_append]
  simp [hj]

theorem statusWord_busy : (statusWord s).getLsbD 3 = s.busy := by
  simp only [statusWord, BitVec.getLsbD_append]
  simp

theorem statusWord_ctValid : (statusWord s).getLsbD 5 = s.ctValid := by
  simp only [statusWord, BitVec.getLsbD_append]
  simp

theorem statusWord_excess : (statusWord s).getLsbD 6 = s.excess := by
  simp only [statusWord, BitVec.getLsbD_append]
  simp

theorem statusWord_bit7 : (statusWord s).getLsbD 7 = false := by
  simp only [statusWord, BitVec.getLsbD_append]
  simp

theorem statusWord_outCount : (statusWord s).extractLsb' 8 8 = BitVec.ofNat 8 s.fifo.length := by
  ext j hj
  simp only [statusWord, BitVec.getElem_extractLsb', BitVec.getLsbD_append]
  grind

theorem statusWord_high : (statusWord s).extractLsb' 16 16 = 0#16 := by
  ext j hj
  simp only [statusWord, BitVec.getElem_extractLsb', BitVec.getLsbD_append]
  grind

end Status

/-- Settles O8, field by field: PHASE is its code, and OUT_COUNT does not wrap up to OUT_DEPTH bytes. -/
theorem statusFields : Obligations.StatusFields := by
  intro s
  have hcode (p : Phase) (hp : s.phase = p) : (statusWord s).extractLsb' 0 3 = phaseCode p :=
    hp ▸ statusWord_phase s
  have herr : (statusWord s).getLsbD 4 = true ↔ s.phase = .error := by simp [errFlag]
  have hcount (hle : s.fifo.length ≤ 64) : ((statusWord s).extractLsb' 8 8).toNat = s.fifo.length := by
    rw [statusWord_outCount, BitVec.toNat_ofNat, Nat.mod_eq_of_lt (by omega)]
  exact ⟨hcode .load, hcode .encode, hcode .encDone, hcode .decode, hcode .decDone, hcode .error, statusWord_busy s, herr,
    statusWord_ctValid s, statusWord_excess s, statusWord_bit7 s, hcount, statusWord_high s⟩

end Sys2Proof.Machine
end

section
/-! SUPPORT. The state after reset (10_state.md R40, 70_reset_and_hazards.md R116). -/

namespace Sys2Proof.Machine

open Sys2Proof.Claims

/-- A reset access from any state puts the block in the reset state and keeps the host's lists (entry 1). -/
theorem step_reset {s : State} {rest : List Access} (h : s.bus = .reset :: rest) :
    step s = .next (resetBlock { s with bus := rest }) := by
  simp [step, hostStep, h, performAccess, Access.wellFormed]

theorem nsym_reset : nsym State.reset = 0 := by
  unfold nsym State.reset
  rw [Vector.toList_replicate, List.countP_replicate]
  rfl

/-- The values of 10_state.md R40 are those of the block after a reset, whatever the host's lists hold. -/
theorem resetValues_resetBlock (s : State) : ResetValues (resetBlock s) := by
  have hhist (b : Byte) : histAt (resetBlock s) b = 0 := Vector.getElem_replicate ..
  exact ⟨rfl, rfl, rfl, rfl, rfl, rfl, rfl, rfl, rfl, rfl, rfl, rfl, rfl, hhist, rfl, rfl, rfl, rfl, rfl, rfl, rfl⟩

theorem resetReads_resetBlock (s : State) : ResetReads (resetBlock s) := by
  have hparams : Config.paramsWord = 0xFF20FF40#32 := by decide
  have hstatus : statusWord State.reset = 0#32 := by decide
  exact ⟨rfl, hparams, hstatus, congrArg (BitVec.ofNat 32) nsym_reset⟩

/-- Settles O13: the reset state is the reset block of itself, and a reset access answers the reset block. -/
theorem stateAfterReset : Obligations.StateAfterReset :=
  ⟨resetValues_resetBlock State.reset, resetReads_resetBlock State.reset, fun _ _ h =>
    ⟨_, step_reset h, resetValues_resetBlock _, resetReads_resetBlock _, rfl, rfl⟩⟩

end Sys2Proof.Machine
end

section
/-! SUPPORT. What the operations of the commands do to the parts of the state the invariant speaks of. -/

namespace Sys2Proof.Machine

open Sys2Proof.Claims

section Counting

variable (h : Vector Word 256) (b : Byte) (v : Word)

/-- The sum of the counts of a histogram (10_state.md R24). -/
def histSum (h : Vector Word 256) : Nat := (h.toList.map BitVec.toNat).sum

/-- Writing one count moves the sum by the difference. -/
theorem histSum_set : histSum (h.set b.toNat v b.isLt) + (h[b.toNat]'b.isLt).toNat = histSum h + v.toNat := by
  have hlt : b.toNat < (h.toList.map BitVec.toNat).length := by simpa using b.isLt
  have hsplit := List.sum_take_add_sum_drop (h.toList.map BitVec.toNat) b.toNat
  rw [List.drop_eq_getElem_cons hlt, List.sum_cons] at hsplit
  unfold histSum
  rw [Vector.toList_set, List.map_set, List.sum_set, if_pos hlt]
  simp only [List.getElem_map, Vector.getElem_toList] at hsplit
  omega

/-- No count is above the sum. -/
theorem le_histSum : (h[b.toNat]'b.isLt).toNat ≤ histSum h := by
  have := histSum_set h b 0
  simp at this
  omega

theorem histSum_replicate_zero : histSum (Vector.replicate 256 0) = 0 := by
  unfold histSum
  rw [Vector.toList_replicate, List.map_replicate, List.sum_replicate]
  rfl

/-- A histogram that counts no symbol has sum 0. -/
theorem histSum_eq_zero_of_no_symbols (hs : symbolsOf h = []) : histSum h = 0 := by
  apply List.sum_eq_zero
  intro n hn
  obtain ⟨w, hw, rfl⟩ := List.mem_map.mp hn
  obtain ⟨k, hk, rfl⟩ := List.getElem_of_mem hw
  have hk' : k < 256 := by simpa using hk
  by_contra hne
  have hmem : (BitVec.ofNat 8 k, h[k]) ∈ symbolsOf h := by
    rw [mem_symbolsOf]
    refine ⟨by simp [Nat.mod_eq_of_lt hk'], fun hz => hne ?_⟩
    simp [hz]
  simp [hs] at hmem

end Counting

section BuiltTree

variable (hist : Vector Word 256) (t : TreeMem)

/-- A build leaves the heap empty (10_state.md R33). -/
theorem buildTree_hs : (buildTree hist t).hs = 0 := by
  rcases hsyms : symbolsOf hist with _ | ⟨⟨b, w⟩, _ | ⟨x, rest⟩⟩
  · exact (buildTree_empty hist t hsyms).2.2
  · exact (buildTree_single hist t hsyms).2.2.1
  · exact (buildTree_many hist t (by simp [hsyms])).2.1

/-- A build stays in the arena (42_tree_build.md R92). -/
theorem buildTree_nn_le : (buildTree hist t).nn ≤ Config.arenaCap := by
  have hle := symbolsOf_length_le hist
  unfold Config.arenaCap
  rcases hsyms : symbolsOf hist with _ | ⟨⟨b, w⟩, _ | ⟨x, rest⟩⟩
  · have := (buildTree_empty hist t hsyms).2.1
    omega
  · have := (buildTree_single hist t hsyms).2.1
    omega
  · have := (buildTree_many hist t (by simp [hsyms])).1
    omega

/-- A tree with two leaves or more is represented by an internal node. -/
theorem Reps.isInternal {t : TreeMem} {i : NodeIdx} {T : HTree} (h : Reps t.node t.nn i T) (hT : 2 ≤ T.leaves.length) :
    isInternal t (some i) = true := by
  cases h with
  | leaf => simp [HTree.leaves] at hT
  | node hi hn hl hr =>
    unfold Machine.isInternal nodeAt
    simp [hn]

/-- ROOT is an internal node as soon as one symbol is counted (42_tree_build.md R85, 44_decode.md R96). -/
theorem buildTree_root_isInternal (h : symbolsOf hist ≠ []) :
    isInternal (buildTree hist t) (buildTree hist t).root = true := by
  rcases hsyms : symbolsOf hist with _ | ⟨⟨b, w⟩, _ | ⟨x, rest⟩⟩
  · exact absurd hsyms h
  · obtain ⟨hroot, -, -, -, hnode⟩ := buildTree_single hist t hsyms
    simp [isInternal, hroot, hnode]
  · obtain ⟨-, -, -, r, T, hroot, hT, hperm⟩ := buildTree_many hist t (by simp [hsyms])
    rw [hroot]
    exact hT.isInternal (by simp [hperm.length_eq, hsyms])

end BuiltTree

section Packing

variable (b : Bool) (bs : List Bool) (s : State)

/-- The bits of BITBUF below the fill are 0 (10_state.md R37). -/
def PackerClear (s : State) : Prop := ∀ j, j < 8 - s.fill.toNat → s.bitbuf.getLsbD j = false

/-- PutBit counts its bit in FIFO and FILL together. -/
theorem putBit_count :
    8 * (putBit b s).fifo.length + (putBit b s).fill.toNat = 8 * s.fifo.length + s.fill.toNat + 1 := by
  by_cases h : s.fill = 7
  · rw [putBit_of_fill_eq b s h]
    simp [h]
    omega
  · have hne : s.fill.toNat ≠ 7 := fun e => h (BitVec.eq_of_toNat_eq e)
    have hlt := s.fill.isLt
    rw [putBit_of_fill_ne b s h]
    simp [BitVec.toNat_add]
    omega

/-- PutBits counts every bit in FIFO and FILL together. -/
theorem putBits_count :
    8 * (putBits bs s).fifo.length + (putBits bs s).fill.toNat = 8 * s.fifo.length + s.fill.toNat + bs.length := by
  induction bs generalizing s with
  | nil => rfl
  | cons b bs ih =>
    have := putBit_count b s
    rw [putBits_cons, ih, List.length_cons]
    omega

variable {s}

theorem putBit_packerClear (h : PackerClear s) : PackerClear (putBit b s) := by
  by_cases h7 : s.fill = 7
  · rw [putBit_of_fill_eq b s h7]
    intro j _
    simp
  · have hne : s.fill.toNat ≠ 7 := fun e => h7 (BitVec.eq_of_toNat_eq e)
    have hlt := s.fill.isLt
    rw [putBit_of_fill_ne b s h7]
    intro j hj
    have hj : j < 7 - s.fill.toNat := by
      simp [BitVec.toNat_add] at hj
      omega
    simp only [getLsbD_setBit _ j b _ (by omega : 7 - s.fill.toNat < 8) (by omega)]
    rw [if_neg (by omega)]
    exact h j (by omega)

theorem putBits_packerClear (h : PackerClear s) : PackerClear (putBits bs s) := by
  induction bs generalizing s with
  | nil => exact h
  | cons b bs ih => exact ih (putBit_packerClear b h)

end Packing

section Walking

/-- A path that ends at an internal node goes on to either child. -/
theorem NodePath.snoc {t : TreeMem} {r : NodeRef} {p : List Bool} {i : NodeIdx} {w : Word} {lc rc : NodeRef}
    (h : NodePath t r p (some i)) (hi : nodeAt t i = .internal w lc rc) (b : Bool) :
    NodePath t r (p ++ [b]) (if b then rc else lc) := by
  generalize hq : some i = q at h
  induction h with
  | here =>
    subst hq
    cases b
    · exact .left hi (.here _)
    · exact .right hi (.here _)
  | left hn _ ih => exact .left hn (ih hq)
  | right hn _ ih => exact .right hn (ih hq)

variable {bs : List Bool} {s t : State}

/-- CUR stays on a path from ROOT (10_state.md R38, 44_decode.md R96). -/
theorem walkBits_nodePath (h : walkBits bs s = .done t) (hs : ∃ p, NodePath s.tree s.tree.root p s.cur) :
    ∃ p, NodePath t.tree t.tree.root p t.cur := by
  induction bs generalizing s with
  | nil => cases h; exact hs
  | cons b bs ih =>
    unfold walkBits at h
    split at h
    · cases h; exact hs
    · split at h
      next u hu =>
        refine ih h ?_
        obtain ⟨i, w, l, r, nxt, hcur, hn, hnxt, ⟨sym, v, -, rfl⟩ | ⟨v, l', r', -, rfl⟩⟩ := decodeBit_done_cases hu
        · exact ⟨[], .here _⟩
        · obtain ⟨p, hp⟩ := hs
          exact ⟨p ++ [b], hnxt ▸ (hcur ▸ hp).snoc hn b⟩
      next => cases h
      next => cases h

/-- A walk emits at most one symbol per bit, and none past ORIG_LEN (44_decode.md R97). -/
theorem walkBits_bounds (h : walkBits bs s = .done t) (hle : s.symcnt.toNat ≤ s.origLen.toNat) :
    t.fifo.length ≤ s.fifo.length + bs.length ∧ t.symcnt.toNat ≤ t.origLen.toNat := by
  obtain ⟨syms, n, ht, hn, hbs, hsum⟩ := walkBits_done_cases h hle
  have hlt := s.origLen.isLt
  rw [ht]
  refine ⟨?_, ?_⟩
  · simp only [walked, List.length_append]
    omega
  · simp only [walked, BitVec.toNat_add, BitVec.toNat_ofNat]
    omega

end Walking

end Sys2Proof.Machine
end

section
/-! SUPPORT. The invariant (10_state.md R19 to R38): it holds after reset, and each effect of a command keeps it. -/

namespace Sys2Proof.Machine

open Sys2Proof.Claims

/-- Settles O58: no symbol is counted, no tree is built and every other clause speaks of a later phase. -/
theorem invariantAtReset : Obligations.InvariantAtReset := by
  constructor
  case totalIsSum => exact histSum_replicate_zero.symm
  all_goals simp [State.reset, TreeMem.reset, treeBuilt]

section Effects

variable {s : State}

/-- The invariant does not speak of ERRCMD, ARG, RESULT, PAD and the host's side of the state. -/
theorem Inv.of_unconstrained (h : Inv s) (errcmd arg result : Word) (pad : BitVec 3) (bus : List Access)
    (observed : List Word) (freeReads : Nat) :
    Inv { s with errcmd := errcmd, arg := arg, result := result, pad := pad, bus := bus, observed := observed,
                 freeReads := freeReads } :=
  ⟨h.totalIsSum, h.symcntBound, h.errcodeIff, h.noBusyError, h.notBusy, h.fifoBound, h.heapEmpty, h.arenaBound,
    h.packerClear, h.loadFresh, h.treeOfHist, h.codesOfTree, h.encodePhase, h.encDonePhase, h.decodePhase, h.walkReady,
    h.decDonePhase⟩

/-- A reset access restores the invariant from any state. -/
theorem inv_resetBlock (s : State) : Inv (resetBlock s) :=
  Inv.of_unconstrained invariantAtReset 0 0 0 0 s.bus s.observed s.freeReads

/-- CLEAR restores the invariant from any state with BUSY = 0. -/
theorem inv_clearBlock (hbusy : s.busy = false) : Inv (clearBlock s) := by
  constructor
  case totalIsSum => exact histSum_replicate_zero.symm
  all_goals simp [clearBlock, treeBuilt, hbusy]

/-- An error entry keeps the invariant: no clause about a phase speaks of ERROR. -/
theorem Inv.errorRecorded (h : Inv s) {e : ErrCode} (he : Recordable e) (c : Word) : Inv (errorRecorded e c s) where
  totalIsSum := h.totalIsSum
  symcntBound := h.symcntBound
  errcodeIff := ⟨fun hn => absurd hn he.1, fun hp => absurd rfl hp⟩
  noBusyError := he.2
  notBusy := h.notBusy
  fifoBound := h.fifoBound
  heapEmpty := h.heapEmpty
  arenaBound := h.arenaBound
  packerClear := h.packerClear
  loadFresh := nofun
  treeOfHist := nofun
  codesOfTree := h.codesOfTree
  encodePhase := nofun
  encDonePhase := nofun
  decodePhase := nofun
  walkReady := nofun
  decDonePhase := nofun

/-- FEED and HADD add the same amount to TOTAL and to one count, which cannot wrap while TOTAL does not. -/
theorem Inv.countSymbol (h : Inv s) (hp : s.phase = .load) {b : Byte} {a : Word}
    (hsum : s.total.toNat + a.toNat ≤ 0xFFFFFFFF) :
    Inv (setHist b (histAt s b + a) { s with total := s.total + a }) := by
  have htotal : s.total.toNat = histSum s.hist := h.totalIsSum
  have hle : (histAt s b).toNat ≤ histSum s.hist := le_histSum s.hist b
  have hset : histSum (s.hist.set b.toNat (histAt s b + a) b.isLt) + (histAt s b).toNat =
      histSum s.hist + (histAt s b + a).toNat := histSum_set s.hist b _
  refine { h with
    totalIsSum := ?_
    treeOfHist := by simp [hp, treeBuilt]
    encodePhase := by simp [hp]
    decodePhase := by simp [hp] }
  show (s.total + a).toNat = histSum (s.hist.set b.toNat (histAt s b + a) b.isLt)
  rw [BitVec.toNat_add] at hset ⊢
  omega

/-- SETLEN is accepted in LOAD, where SYMCNT is 0. -/
theorem Inv.setlen (h : Inv s) (hp : s.phase = .load) : Inv { s with origLen := s.arg } := by
  obtain ⟨-, -, -, hsymcnt, -⟩ := h.loadFresh hp
  refine { h with
    symcntBound := by simp [hsymcnt]
    encodePhase := by simp [hp]
    encDonePhase := by simp [hp]
    decodePhase := by simp [hp]
    walkReady := by simp [hp]
    decDonePhase := by simp [hp] }

/-- BUILDE builds the tree and the code table of HIST and starts an empty packer (42_tree_build.md R89). -/
theorem Inv.buildForEncode (h : Inv s) (hp : s.phase = .load) : Inv (buildForEncode s) where
  totalIsSum := h.totalIsSum
  symcntBound := Nat.zero_le _
  errcodeIff := by simpa [Machine.buildForEncode, hp] using h.errcodeIff
  noBusyError := h.noBusyError
  notBusy := h.notBusy
  fifoBound := h.fifoBound
  heapEmpty := buildTree_hs s.hist s.tree
  arenaBound := buildTree_nn_le s.hist s.tree
  packerClear := fun j _ => by simp [Machine.buildForEncode]
  loadFresh := nofun
  treeOfHist := fun _ => ⟨s.tree, rfl⟩
  codesOfTree := fun _ => rfl
  encodePhase := fun _ => ⟨rfl, rfl, rfl⟩
  encDonePhase := nofun
  decodePhase := nofun
  walkReady := nofun
  decDonePhase := nofun

/-- BUILDD builds the tree of HIST and stands at ROOT, an internal node while a symbol is counted (42_tree_build.md R90). -/
theorem Inv.buildForDecode (h : Inv s) (hp : s.phase = .load) (hlen : s.total = s.origLen) :
    Inv { s with
      tree := buildTree s.hist s.tree, symcnt := 0, bitcnt := 0, cur := (buildTree s.hist s.tree).root,
      ctValid := false, phase := .decode } where
  totalIsSum := h.totalIsSum
  symcntBound := Nat.zero_le _
  errcodeIff := by simpa [hp] using h.errcodeIff
  noBusyError := h.noBusyError
  notBusy := h.notBusy
  fifoBound := h.fifoBound
  heapEmpty := buildTree_hs s.hist s.tree
  arenaBound := buildTree_nn_le s.hist s.tree
  packerClear := h.packerClear
  loadFresh := nofun
  treeOfHist := fun _ => ⟨s.tree, rfl⟩
  codesOfTree := nofun
  encodePhase := nofun
  encDonePhase := nofun
  decodePhase := fun _ => ⟨rfl, hlen.symm⟩
  walkReady := by
    intro _ hne
    have hsyms : symbolsOf s.hist ≠ [] := by
      intro hnil
      apply hne
      apply BitVec.eq_of_toNat_eq
      rw [← hlen]
      exact h.totalIsSum.trans (histSum_eq_zero_of_no_symbols s.hist hnil)
    have hroot := buildTree_root_isInternal s.hist s.tree hsyms
    exact ⟨hroot, hroot, [], .here _⟩
  decDonePhase := nofun

/-- ENC packs at most 255 bits into a FIFO with 32 free entries and counts one outstanding symbol (43_encode.md R93). -/
theorem Inv.encSymbol (h : Inv s) (hp : s.phase = .encode) {b : Byte} (hout : s.symcnt ≠ s.origLen)
    (hroom : Config.encRoom ≤ fifoRoom s) : Inv { putBits (codeOf s.codes b) s with symcnt := s.symcnt + 1 } := by
  obtain ⟨hvalid, hlen, hfill⟩ := h.encodePhase hp
  have hcount := putBits_count (codeOf s.codes b) s
  have hbitcnt := congrArg BitVec.toNat (putBits_bitcnt (codeOf s.codes b) s)
  have hcode : (codeOf s.codes b).length ≤ 255 := by
    have := (codeLenAt s.codes b).isLt
    simp only [codeOf, codeBits_length]
    omega
  have hfillLt := s.fill.isLt
  have hfillLt' := (putBits (codeOf s.codes b) s).fill.isLt
  generalize codeOf s.codes b = bits at *
  constructor
  case totalIsSum => simpa using h.totalIsSum
  case symcntBound =>
    have hle := h.symcntBound
    simp only [putBits_origLen]
    bv_omega
  case errcodeIff => simpa using h.errcodeIff
  case noBusyError => simpa using h.noBusyError
  case notBusy => simpa using h.notBusy
  case fifoBound =>
    simp only [fifoRoom, fifoCount, Config.encRoom, Config.outDepth] at hroom
    simp only [Config.outDepth]
    omega
  case heapEmpty => simpa using h.heapEmpty
  case arenaBound => simpa using h.arenaBound
  case packerClear => exact putBits_packerClear bits h.packerClear
  case treeOfHist => simpa [hp, treeBuilt] using h.treeOfHist
  case codesOfTree => simpa using h.codesOfTree
  case encodePhase =>
    intro _
    refine ⟨by simpa using hvalid, by simpa using hlen, ?_⟩
    rw [BitVec.toNat_add, BitVec.toNat_ofNat] at hbitcnt
    simp only
    omega
  all_goals simp [hp]

/-- FINAL leaves an empty packer and a valid table with every symbol encoded (43_encode.md R94). -/
theorem Inv.toEncDone (h : Inv s) (hp : s.phase = .encode) (hall : s.symcnt = s.origLen) {pad : BitVec 3}
    {fifo : List Byte} {bitbuf : Byte} {fill : BitVec 3} (hfifo : fifo.length ≤ Config.outDepth) (hfill : fill = 0)
    (hbuf : ∀ j, j < 8 - fill.toNat → bitbuf.getLsbD j = false) :
    Inv { s with pad := pad, fifo := fifo, bitbuf := bitbuf, fill := fill, phase := .encDone } where
  totalIsSum := h.totalIsSum
  symcntBound := h.symcntBound
  errcodeIff := by simpa [hp] using h.errcodeIff
  noBusyError := h.noBusyError
  notBusy := h.notBusy
  fifoBound := hfifo
  heapEmpty := h.heapEmpty
  arenaBound := h.arenaBound
  packerClear := hbuf
  loadFresh := nofun
  treeOfHist := fun _ => h.treeOfHist (by simp [hp, treeBuilt])
  codesOfTree := h.codesOfTree
  encodePhase := nofun
  encDonePhase := fun _ => ⟨(h.encodePhase hp).1, hall, hfill⟩
  decodePhase := nofun
  walkReady := nofun
  decDonePhase := nofun

/-- A stream byte begins by marking EXCESS, which only LOAD has at a fixed value. -/
theorem Inv.markExcess (h : Inv s) (hp : s.phase = .decode) : Inv (markExcess s) :=
  { h with loadFresh := by simp [Claims.markExcess, hp] }

/-- A walk of at most eight bits into a FIFO with eight free entries (44_decode.md R96, R97). -/
theorem Inv.walked (h : Inv s) (hp : s.phase = .decode) {bits : List Bool} {syms : List Byte} {n : Nat} {cur : NodeRef}
    (hbits : bits.length ≤ 8) (hroom : Config.decRoom ≤ fifoRoom s)
    (hwalk : walkBits bits s = .done (walked syms n cur s)) : Inv (walked syms n cur s) := by
  obtain ⟨hfifo, hsymcnt⟩ := walkBits_bounds hwalk h.symcntBound
  refine { h with
    symcntBound := hsymcnt
    fifoBound := ?_
    loadFresh := by simp [Machine.walked, hp]
    encodePhase := by simp [Machine.walked, hp]
    encDonePhase := by simp [Machine.walked, hp]
    walkReady := ?_
    decDonePhase := by simp [Machine.walked, hp] }
  · simp only [fifoRoom, fifoCount, Config.decRoom, Config.outDepth] at hroom
    unfold Config.outDepth
    omega
  · intro _ hne
    obtain ⟨hcur, hroot, hpath⟩ := h.walkReady hp hne
    exact ⟨(walkBits_ready hcur hroot).2 _ hwalk, hroot, walkBits_nodePath hwalk hpath⟩

/-- A stream ends with every symbol decoded (44_decode.md R99, R100). -/
theorem Inv.endStream (h : Inv s) (hp : s.phase = .decode) (hall : s.origLen.toNat ≤ s.symcnt.toNat) :
    Inv { s with phase := .decDone } :=
  { h with
    errcodeIff := by simpa [hp] using h.errcodeIff
    loadFresh := nofun
    treeOfHist := fun _ => h.treeOfHist (by simp [hp, treeBuilt])
    encodePhase := nofun
    encDonePhase := nofun
    decodePhase := nofun
    walkReady := nofun
    decDonePhase := fun _ => ⟨(h.decodePhase hp).1, BitVec.eq_of_toNat_eq (h.symcntBound.antisymm hall)⟩ }

/-- POP writes RESULT and shortens the FIFO (45_readback.md R105). -/
theorem Inv.popByte (h : Inv s) : Inv (popByte s) := by
  rw [popByte_eq]
  have hlen : s.fifo.tail.length ≤ Config.outDepth := by
    have := h.fifoBound
    rw [List.length_tail]
    omega
  exact { h with
    fifoBound := hlen
    loadFresh := fun hp => by
      obtain ⟨hfifo, hrest⟩ := h.loadFresh hp
      exact ⟨by rw [hfifo]; rfl, hrest⟩ }

end Effects

section Steps

variable {s t : State}

/-- Every command that completes keeps the invariant. -/
theorem Completes.inv {i : Instr} (hc : Completes s i t) (h : Inv s) : Inv t := by
  cases hc with
  | nop => exact h
  | clear => exact inv_clearBlock h.notBusy
  | feed hp hsum => exact h.countSymbol hp hsum
  | hadd hp hsum => exact h.countSymbol hp hsum
  | setlen hp => exact h.setlen hp
  | builde hp => exact h.buildForEncode hp
  | buildd hp hlen => exact h.buildForDecode hp hlen
  | enc hp _ hout hroom => exact h.encSymbol hp hout hroom
  | flush hp hall _ hroom =>
    have hlen : (s.fifo ++ [s.bitbuf]).length ≤ Config.outDepth := by
      have := h.fifoBound
      rw [List.length_append, List.length_singleton]
      unfold fifoCount at hroom
      omega
    exact h.toEncDone hp hall hlen rfl fun j _ => by simp
  | aligned hp hall hfill => exact h.toEncDone hp hall h.fifoBound hfill h.packerClear
  | dfeed hp hroom hwalk => exact (h.markExcess hp).walked hp (by simp) hroom hwalk
  | dlast hp hroom hwalk hall => exact ((h.markExcess hp).walked hp (by simp) hroom hwalk).endStream hp hall
  | dend hp hall => exact h.endStream hp hall
  | setpad => exact h.of_unconstrained ..
  | hrd | clrd | cbrd => exact h.of_unconstrained ..
  | pop => exact h.popByte

/-- Every command that answers a next state keeps the invariant. -/
theorem exec_inv {i : Instr} (h : Inv s) (he : exec i s = .next t) : Inv t := by
  obtain hc | ⟨-, e, hrec, rfl⟩ | ⟨-, rfl⟩ := exec_next_cases he
  · exact hc.inv h
  · exact h.errorRecorded hrec _
  · exact h

/-- A word written to CMD keeps the invariant, legal or not. -/
theorem issueCommand_inv {c : Word} (h : Inv s) (hc : issueCommand c s = .next t) : Inv t := by
  obtain ⟨i, -, he⟩ | ⟨-, rfl⟩ | ⟨-, rfl⟩ := issueCommand_next_cases hc
  · exact exec_inv h he
  · exact h.errorRecorded (by simp [Recordable]) c
  · exact h

/-- A read adds to what the host observed and changes nothing of the block (20_memory.md R45). -/
theorem readAccess_inv (h : Inv s) (off : Byte) : Inv (readAccess off s) := by
  unfold readAccess
  split
  · exact h.of_unconstrained ..
  · exact h.of_unconstrained ..

/-- A write reaches ARG, which the invariant leaves free, or issues a command. -/
theorem writeAccess_inv {off : Byte} {v : Word} (h : Inv s) (hw : writeAccess off v s = .next t) : Inv t := by
  unfold writeAccess at hw
  split at hw
  · split at hw <;> cases hw
    exact h.of_unconstrained ..
  · split at hw
    · cases hw
    · exact issueCommand_inv h hw
  · cases hw
    exact h

/-- Every access that answers a next state keeps the invariant. -/
theorem performAccess_inv {a : Access} (h : Inv s) (ha : performAccess a s = .next t) : Inv t := by
  unfold performAccess at ha
  split at ha
  · cases a with
    | read w off => cases ha; exact readAccess_inv h off
    | write w off v => exact writeAccess_inv h ha
    | reset => cases ha; exact inv_resetBlock s
  · cases ha

end Steps

/-- Settles O59: a step performs the host's oldest access on the state without it, and every access keeps the
invariant. -/
theorem everyStepKeepsTheInvariant : Obligations.EveryStepKeepsTheInvariant := by
  intro s t h hstep
  unfold step hostStep at hstep
  split at hstep
  · cases hstep
    exact h
  · exact performAccess_inv (h.of_unconstrained s.errcmd s.arg s.result s.pad _ s.observed s.freeReads) hstep

end Sys2Proof.Machine
end

section
/-! SUPPORT. The heap order (10_state.md R33) through HeapInsert and HeapExtractMin (42_tree_build.md R86, R87). While an
entry sifts, the order holds but at one place, its hole. -/

namespace Sys2Proof.Machine

open Sys2Proof.Claims

section Weights

variable {t u : TreeMem} {i j : Nat}

/-- The weight of a slot as a number, the form in which the heap order compares it. -/
def slotW (t : TreeMem) (i : Nat) : Nat := (slotWeight t i).toNat

/-- A slot's weight is decided by the arena and the index it holds. -/
theorem slotW_congr (hnode : t.node = u.node) (hat : heapAt t i = heapAt u j) : slotW t i = slotW u j := by
  unfold slotW slotWeight
  rw [hat, nodeAt_congr hnode]

/-- A swap exchanges two slots, read case by case. -/
theorem heapAt_swapHeap_ite (t : TreeMem) (k : Nat) (hi : i < 511) (hj : j < 511) :
    heapAt (swapHeap i j t) k = if k = i then heapAt t j else if k = j then heapAt t i else heapAt t k := by
  rw [heapAt_swapHeap t i j k hi hj, Equiv.swap_apply_def]
  split_ifs <;> rfl

/-- A swap exchanges the weights of two slots. -/
theorem slotW_swapHeap (t : TreeMem) (k : Nat) (hi : i < 511) (hj : j < 511) :
    slotW (swapHeap i j t) k = if k = i then slotW t j else if k = j then slotW t i else slotW t k := by
  have hat := heapAt_swapHeap_ite t k hi hj
  split_ifs at hat ⊢ <;> exact slotW_congr rfl hat

/-- A slot other than the one written keeps its weight. -/
theorem slotW_setHeap_other (t : TreeMem) (x : NodeIdx) (h : j ≠ i) : slotW (setHeap i x t) j = slotW t j :=
  slotW_congr rfl (heapAt_setHeap_other t i j x h)

end Weights

section SiftUp

variable {t : TreeMem} {i : Nat}

/-- The order holds but between slot `i` and its parent, and the children of `i` are no lighter than that parent: the heap
while an entry at slot `i` sifts up. -/
structure OrderedBelow (t : TreeMem) (i : Nat) : Prop where
  order : ∀ k, 0 < k → k < t.hs → k ≠ i → slotW t ((k - 1) / 2) ≤ slotW t k
  skip : ∀ k, 0 < i → 0 < k → k < t.hs → (k - 1) / 2 = i → slotW t ((i - 1) / 2) ≤ slotW t k

/-- At the root, or under a parent that is no heavier, nothing is out of order. -/
theorem OrderedBelow.heapOrdered (h : OrderedBelow t i) (hi : 0 < i → slotW t ((i - 1) / 2) ≤ slotW t i) :
    HeapOrdered t := by
  intro k hk hlt
  by_cases e : k = i
  · subst e
    exact hi hk
  · exact h.order k hk hlt e

/-- One turn of sift-up: the hole moves to the parent. -/
theorem OrderedBelow.swap (h : OrderedBelow t i) (h0 : 0 < i) (hi : i < t.hs) (hs : t.hs ≤ 511)
    (hlt : slotW t i < slotW t ((i - 1) / 2)) : OrderedBelow (swapHeap ((i - 1) / 2) i t) ((i - 1) / 2) := by
  have hw (k : Nat) := slotW_swapHeap t k (by omega : (i - 1) / 2 < 511) (by omega : i < 511)
  constructor
  · intro k hk hks hne
    rw [hw, hw, if_neg hne]
    split_ifs with hpp hki hpi hki hki
    · exact hlt.le
    · exact hlt.le.trans (hpp ▸ h.order k hk hks hki)
    · omega
    · exact h.skip k h0 hk hks hpi
    · exact absurd (hki ▸ rfl) hpp
    · exact h.order k hk hks hki
  · intro k hp hk hks hkp
    have hup := h.order ((i - 1) / 2) hp (by omega) (by omega)
    rw [hw, hw, if_neg (by omega), if_neg (by omega), if_neg (by omega)]
    split_ifs with hki
    · exact hup
    · exact hup.trans (hkp ▸ h.order k hk hks hki)

/-- Sift-up repairs the order; `i` turns are enough, since the slot falls at every turn (42_tree_build.md R86). -/
theorem siftUp_heapOrdered {fuel : Nat} (h : OrderedBelow t i) (hi : i < t.hs) (hs : t.hs ≤ 511) (hfuel : i ≤ fuel) :
    HeapOrdered (siftUp fuel i t) := by
  induction fuel generalizing i t with
  | zero => exact h.heapOrdered fun h0 => by omega
  | succ fuel ih =>
    unfold siftUp
    split
    next hc => exact ih (h.swap hc.1 hi hs hc.2) (by rw [swapHeap_hs]; omega) hs (by omega)
    next hc => exact h.heapOrdered fun h0 => Nat.le_of_not_lt fun hgt => hc ⟨h0, hgt⟩

/-- HeapInsert keeps the order (42_tree_build.md R86). -/
theorem heapInsert_heapOrdered (x : NodeIdx) (h : HeapOrdered t) (hs : t.hs < 511) : HeapOrdered (heapInsert x t) := by
  refine siftUp_heapOrdered ⟨?_, ?_⟩ (Nat.lt_succ_self _) hs le_rfl
  · intro k hk hks hne
    have hks : k < t.hs + 1 := hks
    have hk' : slotW (setHeap t.hs x t) k = slotW t k := slotW_setHeap_other t x hne
    have hp : slotW (setHeap t.hs x t) ((k - 1) / 2) = slotW t ((k - 1) / 2) := slotW_setHeap_other t x (by omega)
    exact (hp.trans_le (h k hk (by omega))).trans_eq hk'.symm
  · intro k _ _ hks hkp
    have hks : k < t.hs + 1 := hks
    omega

end SiftUp

section SiftDown

variable {t : TreeMem} {i : Nat}

/-- The order holds but between slot `i` and its children, which are no lighter than the parent of `i`: the heap while an
entry at slot `i` sifts down. -/
structure OrderedAbove (t : TreeMem) (i : Nat) : Prop where
  order : ∀ k, 0 < k → k < t.hs → (k - 1) / 2 ≠ i → slotW t ((k - 1) / 2) ≤ slotW t k
  skip : ∀ k, 0 < i → 0 < k → k < t.hs → (k - 1) / 2 = i → slotW t ((i - 1) / 2) ≤ slotW t k

/-- Above children that are no lighter, nothing is out of order. -/
theorem OrderedAbove.heapOrdered (h : OrderedAbove t i)
    (hi : ∀ k, 0 < k → k < t.hs → (k - 1) / 2 = i → slotW t i ≤ slotW t k) : HeapOrdered t := by
  intro k hk hlt
  by_cases e : (k - 1) / 2 = i
  · rw [e]
    exact hi k hk hlt e
  · exact h.order k hk hlt e

theorem smallerChild_parent (t : TreeMem) (i : Nat) : 0 < smallerChild t i ∧ (smallerChild t i - 1) / 2 = i := by
  unfold smallerChild
  split <;> omega

/-- No child is lighter than the smaller child (42_tree_build.md R87). -/
theorem slotW_smallerChild_le {k : Nat} (hk : 0 < k) (hks : k < t.hs) (hp : (k - 1) / 2 = i) :
    slotW t (smallerChild t i) ≤ slotW t k := by
  have hcase : k = 2 * i + 1 ∨ k = 2 * i + 2 := by omega
  unfold smallerChild
  split
  next hc =>
    obtain rfl | rfl := hcase
    · exact Nat.le_of_lt hc.2
    · exact le_rfl
  next hc =>
    obtain rfl | rfl := hcase
    · exact le_rfl
    · exact Nat.le_of_not_lt fun hlt => hc ⟨hks, hlt⟩

/-- One turn of sift-down: the hole moves to the smaller child. -/
theorem OrderedAbove.swap (h : OrderedAbove t i) (hi : 2 * i + 1 < t.hs) (hs : t.hs ≤ 511)
    (hlt : slotW t (smallerChild t i) < slotW t i) : OrderedAbove (swapHeap (smallerChild t i) i t) (smallerChild t i) := by
  obtain ⟨hc0, hcp⟩ := smallerChild_parent t i
  have hcs := smallerChild_lt hi
  have hmin (k : Nat) (hk : 0 < k) (hks : k < t.hs) := slotW_smallerChild_le (i := i) hk hks
  have hw (k : Nat) := slotW_swapHeap t k (by omega : smallerChild t i < 511) (by omega : i < 511)
  generalize smallerChild t i = c at *
  constructor
  · intro k hk hks hne
    rw [hw, hw, if_neg hne]
    split_ifs with hpi hkc hki hkc hki
    · exact hlt.le
    · omega
    · exact hmin k hk hks hpi
    · exact absurd (hkc ▸ hcp) hpi
    · subst hki
      exact h.skip c hk hc0 hcs hcp
    · exact h.order k hk hks hpi
  · intro k _ hk hks hkp
    have hkc := h.order k hk hks (by omega)
    rw [hw, hw, if_neg (by omega), if_pos hcp, if_neg (by omega), if_neg (by omega)]
    exact hkp ▸ hkc

/-- Sift-down repairs the order; HS turns are enough, since every turn moves to a child (42_tree_build.md R87). -/
theorem siftDown_heapOrdered {fuel : Nat} (h : OrderedAbove t i) (hs : t.hs ≤ 511) (hfuel : t.hs ≤ fuel + i) :
    HeapOrdered (siftDown fuel i t) := by
  induction fuel generalizing i t with
  | zero => exact h.heapOrdered fun k hk hks hp => by omega
  | succ fuel ih =>
    obtain ⟨hc0, hcp⟩ := smallerChild_parent t i
    unfold siftDown
    split
    next hleaf => exact h.heapOrdered fun k hk hks hp => by omega
    next hchild =>
      split
      next hlt => exact ih (h.swap (by omega) hs hlt) hs (by rw [swapHeap_hs]; omega)
      next hnlt =>
        exact h.heapOrdered fun k hk hks hp => (Nat.le_of_not_lt hnlt).trans (slotW_smallerChild_le hk hks hp)

/-- HeapExtractMin keeps the order (42_tree_build.md R87). -/
theorem heapRemoveMin_heapOrdered (h : HeapOrdered t) (hs : t.hs ≤ 511) : HeapOrdered (heapRemoveMin t) := by
  unfold heapRemoveMin
  dsimp only
  split
  next hpos =>
    have hs' : t.hs - 1 ≤ 511 := by omega
    refine siftDown_heapOrdered ⟨?_, fun k h0 => absurd h0 (Nat.lt_irrefl 0)⟩ hs' le_rfl
    intro k hk hks hp
    have hks : k < t.hs - 1 := hks
    have hk' : slotW (setHeap 0 (heapAt t (t.hs - 1)) t) k = slotW t k := slotW_setHeap_other t _ (by omega)
    have hp' : slotW (setHeap 0 (heapAt t (t.hs - 1)) t) ((k - 1) / 2) = slotW t ((k - 1) / 2) :=
      slotW_setHeap_other t _ hp
    exact (hp'.trans_le (h k hk (by omega))).trans_eq hk'.symm
  next hpos =>
    intro k hk hks
    have hks : k < t.hs - 1 := hks
    omega

/-- No live entry is lighter than slot 0: the order, followed up from slot `k` (42_tree_build.md R87). -/
theorem slotW_zero_le (h : HeapOrdered t) (k : Nat) (hk : k < t.hs) : slotW t 0 ≤ slotW t k := by
  induction k using Nat.strong_induction_on with
  | _ k ih =>
    obtain rfl | hpos := Nat.eq_zero_or_pos k
    · exact le_rfl
    · exact (ih ((k - 1) / 2) (by omega) (by omega)).trans (h k hpos hk)

end SiftDown

section Turns

variable (t : TreeMem) (fuel i : Nat)

/-- Sift-up stops at the root and below a parent that is no heavier (42_tree_build.md R86). -/
theorem siftUp_stop (h : ¬(0 < i ∧ slotWeight t ((i - 1) / 2) > slotWeight t i)) : siftUp fuel i t = t := by
  cases fuel with
  | zero => rfl
  | succ fuel => rw [siftUp, if_neg h]

/-- Sift-down stops at a leaf of the heap (42_tree_build.md R87). -/
theorem siftDown_leaf (h : t.hs ≤ 2 * i + 1) : siftDown fuel i t = t := by
  cases fuel with
  | zero => rfl
  | succ fuel => rw [siftDown, if_pos h]

/-- Sift-down stops above children that are no lighter (42_tree_build.md R87). -/
theorem siftDown_stop (h : ¬slotWeight t (smallerChild t i) < slotWeight t i) : siftDown fuel i t = t := by
  cases fuel with
  | zero => rfl
  | succ fuel =>
    rw [siftDown, if_neg h]
    exact ite_self t

/-- An entry not lighter than its parent stays where it was appended (42_tree_build.md R86). -/
theorem heapInsert_of_parent_le (x : NodeIdx) (h0 : 0 < t.hs)
    (h : (slotWeight t ((t.hs - 1) / 2)).toNat ≤ (nodeWeight (nodeAt t x)).toNat) (hs : t.hs < 511) :
    heapInsert x t = { setHeap t.hs x t with hs := t.hs + 1 } := by
  refine siftUp_stop _ _ _ fun ⟨_, hgt⟩ => ?_
  have hparent : slotW (setHeap t.hs x t) ((t.hs - 1) / 2) = slotW t ((t.hs - 1) / 2) :=
    slotW_setHeap_other t x (by omega)
  have hnew : slotW (setHeap t.hs x t) t.hs = (nodeWeight (nodeAt t x)).toNat := by
    unfold slotW slotWeight
    rw [heapAt_setHeap_same t t.hs x hs]
    rfl
  have hgt : slotW (setHeap t.hs x t) t.hs < slotW (setHeap t.hs x t) ((t.hs - 1) / 2) := hgt
  rw [hparent, hnew] at hgt
  exact absurd h (Nat.not_le_of_lt hgt)

end Turns

/-- Settles O33: the order through the two operations by the holes of the sifts, and each turn from its own branch. -/
theorem heapKeepsItsOrder : Obligations.HeapKeepsItsOrder := by
  refine ⟨fun t h => ⟨fun x hs => ⟨heapInsert_heapOrdered x h hs, ?_⟩, fun h0 hs =>
    ⟨heapRemoveMin_heapOrdered h hs, ?_, ?_⟩⟩, ?_, ?_, ?_, ?_, ?_, ?_⟩
  · obtain ⟨-, -, -, -, hlive⟩ := heapInsert_spec x t hs
    exact hlive
  · obtain ⟨-, -, -, -, hlive⟩ := heapRemoveMin_spec t h0 hs
    exact hlive
  · intro i hi
    obtain ⟨k, hk, rfl⟩ := List.mem_map.mp hi
    exact slotW_zero_le h k (List.mem_range.mp hk)
  · exact fun t i j k hi hj => ⟨heapAt_swapHeap_ite t k hi hj, rfl⟩
  · refine fun x t => ⟨rfl, fun h0 hs hle => ?_⟩
    rw [heapInsert_of_parent_le t x h0 hle hs]
    exact ⟨heapAt_setHeap_same t t.hs x hs, fun k hk => heapAt_setHeap_other t t.hs k x (by omega)⟩
  · exact fun t fuel i => ⟨siftUp_stop t fuel 0 fun hc => Nat.lt_irrefl 0 hc.1, fun h0 hlt => by
        rw [siftUp, if_pos ⟨h0, hlt⟩],
      fun hle => siftUp_stop t fuel i fun hc => Nat.not_lt_of_le hle hc.2⟩
  · exact fun t i => ⟨fun h2 hlt => if_pos ⟨h2, hlt⟩, fun _ hle => if_neg fun hc => Nat.not_lt_of_le hle hc.2,
      fun hle => if_neg fun hc => Nat.not_lt_of_le hle hc.1⟩
  · refine fun t => ⟨fun h1 => ?_, fun h1 => ?_⟩
    · exact if_pos (by omega)
    · rw [heapRemoveMin, h1]
      rfl
  · exact fun t fuel i => ⟨siftDown_leaf t fuel i, fun hc hlt => by
        rw [siftDown, if_neg (Nat.not_le_of_lt hc), if_pos (BitVec.lt_def.mpr hlt)],
      fun _ hle => siftDown_stop t fuel i (Nat.not_lt_of_le hle)⟩

end Sys2Proof.Machine
end

section
/-! SUPPORT. The container (20_memory.md R48 to R52): what the host writes it reads back. -/

namespace Sys2Proof.Machine

open Sys2Proof.Claims

section Bytes

variable (w : Word) (pre post : List Byte)

/-- The four bytes of a u32 give it back (20_memory.md R50). -/
theorem ofLe32_le32 :
    ofLe32 (w.extractLsb' 0 8) (w.extractLsb' 8 8) (w.extractLsb' 16 8) (w.extractLsb' 24 8) = w := by
  unfold ofLe32
  ext j hj
  simp only [BitVec.getElem_append, BitVec.getElem_extractLsb']
  grind

@[simp] theorem le32_length : (le32 w).length = 4 := rfl

@[simp] theorem flatMap_le32_length (ws : List Word) : (ws.flatMap le32).length = 4 * ws.length := by
  simp [List.length_flatMap, Nat.mul_comm]

/-- Behind some first bytes, the later bytes are read their length further on. -/
theorem byteAt_append (j : Nat) : byteAt (pre ++ post) (pre.length + j) = byteAt post j := by
  simp [byteAt, List.getElem?_append_right]

theorem wordAt_append (j : Nat) : wordAt (pre ++ post) (pre.length + j) = wordAt post j := by
  simp only [wordAt, Nat.add_assoc, byteAt_append]

theorem wordAt_le32 : wordAt (le32 w ++ post) 0 = w := ofLe32_le32 w

/-- The k-th of a run of u32s stands 4k bytes after its start (20_memory.md R48, R50). -/
theorem wordAt_flatMap_le32 (ws : List Word) (k : Nat) (hk : k < ws.length) :
    wordAt (ws.flatMap le32 ++ post) (4 * k) = ws[k] := by
  induction ws generalizing k with
  | nil => cases hk
  | cons w ws ih =>
    rw [List.flatMap_cons, List.append_assoc]
    cases k with
    | zero => exact wordAt_le32 w _
    | succ k =>
      rw [Nat.mul_succ, Nat.add_comm, ← le32_length w, wordAt_append, List.getElem_cons_succ]
      exact ih k (Nat.lt_of_succ_lt_succ hk)

end Bytes

section Serialized

variable (c : Container)

/-- The bytes before the counts (20_memory.md R48). -/
def containerPrefix (c : Container) : List Byte := containerMarker ++ [containerVersion] ++ le32 c.origLen ++ [c.pad]

theorem serialize_eq : serialize c = containerPrefix c ++ c.counts.flatMap le32 ++ c.stream := rfl

theorem containerPrefix_length : (containerPrefix c).length = 10 := rfl

/-- The size of a container with its 256 counts (20_memory.md R51). -/
theorem serialize_length (h : c.counts.length = 256) : (serialize c).length = headerSize + c.stream.length := by
  rw [serialize_eq, List.length_append, List.length_append, containerPrefix_length, flatMap_le32_length, h]
  rfl

theorem serialize_marker : (serialize c).take 4 = containerMarker := rfl

theorem serialize_version : byteAt (serialize c) 4 = containerVersion := rfl

theorem serialize_pad : byteAt (serialize c) 9 = c.pad := rfl

theorem serialize_origLen : wordAt (serialize c) 5 = c.origLen := ofLe32_le32 c.origLen

theorem serialize_counts (h : c.counts.length = 256) :
    (List.range 256).map (fun k => wordAt (serialize c) (10 + 4 * k)) = c.counts := by
  refine List.ext_getElem (by simp [h]) fun k _ hk => ?_
  rw [List.getElem_map, List.getElem_range, serialize_eq, List.append_assoc, ← containerPrefix_length c, wordAt_append]
  exact wordAt_flatMap_le32 c.stream c.counts k hk

theorem serialize_stream (h : c.counts.length = 256) : (serialize c).drop headerSize = c.stream := by
  rw [serialize_eq]
  apply List.drop_left'
  rw [List.length_append, containerPrefix_length, flatMap_le32_length, h]
  rfl

/-- A container of the host's own making passes every check (20_memory.md R52). -/
theorem checkContainer_serialize (h : c.counts.length = 256) (hpad : c.pad.toNat ≤ 7)
    (hempty : c.stream = [] → c.pad = 0) : checkContainer (serialize c) = none := by
  have hlong : ¬(serialize c).length < headerSize := by
    rw [serialize_length c h]
    omega
  have hcount : ¬(byteAt (serialize c) 9).toNat > 7 := Nat.not_lt.mpr hpad
  have hstream : ¬((serialize c).length = headerSize ∧ byteAt (serialize c) 9 ≠ 0) := by
    rintro ⟨hlen, hne⟩
    rw [serialize_length c h] at hlen
    exact hne (hempty (List.eq_nil_of_length_eq_zero (by omega)))
  rw [checkContainer, if_neg hlong, if_neg (not_not.mpr (serialize_marker c)), if_neg (not_not.mpr (serialize_version c)),
    if_neg hcount, if_neg hstream]

end Serialized

/-- Settles O50: the host's bytes pass the checks, and each field stands at its offset. -/
theorem containerParsesBack : Obligations.ContainerParsesBack := by
  intro c hcounts hpad hempty
  refine ⟨?_, serialize_length c hcounts⟩
  rw [parseContainer, checkContainer_serialize c hcounts hpad hempty]
  dsimp only
  rw [serialize_origLen, serialize_pad, serialize_counts c hcounts, serialize_stream c hcounts]

end Sys2Proof.Machine
end

section
/-! SUPPORT. The register window (20_memory.md R43 to R47): its offsets, and what one pending access makes a step do. -/

namespace Sys2Proof.Machine

open Sys2Proof.Claims

section Offsets

variable {off : Byte} {r : Reg}

@[simp] theorem regAt_regOffset (r : Reg) : regAt (regOffset r) = some r := by cases r <;> rfl

/-- A register is found at its own offset only (10_state.md R15). -/
theorem eq_regOffset_of_regAt (h : regAt off = some r) : off = regOffset r := by
  unfold regAt at h
  split at h <;> cases h <;> rfl

/-- The registers stand at multiples of 4 up to 0x38 (10_state.md R15). -/
theorem regOffset_bounds (r : Reg) : (regOffset r).toNat % 4 = 0 ∧ (regOffset r).toNat ≤ 0x38 := by cases r <;> decide

/-- No register stands above 0x38 (10_state.md R15). -/
theorem regAt_reserved (h : 0x38 < off.toNat) : regAt off = none := by
  cases hr : regAt off with
  | none => rfl
  | some r =>
    obtain ⟨-, hle⟩ := regOffset_bounds r
    rw [eq_regOffset_of_regAt hr] at h
    omega

@[simp] theorem readOffset_regOffset (r : Reg) (s : State) : readOffset (regOffset r) s = readReg r s := by
  rw [readOffset, regAt_regOffset]

/-- A reserved offset reads 0 (20_memory.md R44). -/
theorem readOffset_reserved (s : State) (h : 0x38 < off.toNat) : readOffset off s = 0 := by
  rw [readOffset, regAt_reserved h]

/-- What the host has pending and has observed reaches no register (20_memory.md R45). -/
theorem readOffset_host (off : Byte) (s : State) (bus : List Access) (observed : List Word) :
    readOffset off { s with bus := bus, observed := observed } = readOffset off s := by
  unfold readOffset
  cases regAt off with
  | none => rfl
  | some r => cases r <;> rfl

end Offsets

section Values

variable {s : State} {off : Byte} {v : Word}

/-- NSYM counts the byte values with a nonzero count (10_state.md R27). -/
theorem nsym_eq_countP (s : State) : nsym s = (List.range 256).countP fun k => histAt s (BitVec.ofNat 8 k) != 0 := by
  have hlist : s.hist.toList = (List.range 256).map fun k => histAt s (BitVec.ofNat 8 k) := by
    refine List.ext_getElem (by simp) fun k hk _ => ?_
    have hk : k < 256 := by simpa using hk
    simp [histAt, Nat.mod_eq_of_lt hk]
  rw [nsym, hlist, List.countP_map]
  rfl

/-- The registers in the order of their offsets (10_state.md R15). -/
def windowRegs : List Reg :=
  [.id, .params, .status, .errcode, .errcmd, .arg, .cmd, .result, .total, .origLen, .symcnt, .nsym, .pad, .bitcntLo,
    .bitcntHi]

/-- The window's values are those of the registers at their offsets (20_memory.md R44). -/
theorem windowReads_eq_map (s : State) : windowReads s = windowRegs.map fun r => (regOffset r, readReg r s) := by
  have hparams : Config.paramsWord = 0xFF20FF40#32 := by decide
  have herr : (errCodeBits s.errcode).setWidth 32 = errorNumber s.errcode := by cases s.errcode <;> rfl
  have hlo : s.bitcnt.extractLsb' 0 32 = s.bitcnt.setWidth 32 := by ext j hj; simp
  have hhi : s.bitcnt.extractLsb' 32 32 = (s.bitcnt >>> 32).setWidth 32 := by ext j hj; simp
  simp only [windowReads, windowRegs, List.map, readReg, hparams, herr, hlo, hhi, nsym_eq_countP]
  rfl

theorem exists_reg_of_mem_windowReads (h : (off, v) ∈ windowReads s) : ∃ r, off = regOffset r ∧ v = readReg r s := by
  rw [windowReads_eq_map] at h
  obtain ⟨r, -, hr⟩ := List.mem_map.mp h
  cases hr
  exact ⟨r, rfl, rfl⟩

/-- A byte within an aligned word names the word and the byte's place in it (20_memory.md R47). -/
theorem windowByte_add {i : Nat} (ha : off.toNat % 4 = 0) (hi : i < 4) :
    windowByte (BitVec.ofNat 8 (off.toNat + i)) s = (readOffset off s).extractLsb' (8 * i) 8 := by
  have hword : BitVec.ofNat 8 (off.toNat + i) &&& 0xFC#8 = off := by
    have hall : ∀ o : Byte, o.toNat % 4 = 0 → ∀ k < 4, BitVec.ofNat 8 (o.toNat + k) &&& 0xFC#8 = o := by
      decide +kernel
    exact hall off ha i hi
  have hbyte : (BitVec.ofNat 8 (off.toNat + i)).toNat % 4 = i := by
    rw [BitVec.toNat_ofNat]
    omega
  rw [windowByte, hword, hbyte]

end Values

section Accesses

variable {s : State} {off : Byte} {v : Word} {rest : List Access}

/-- The accesses admitted are those of full width at a multiple of 4 (20_memory.md R43). -/
theorem admitted_iff {w : Width} : (w.isWord && offsetAligned off) = true ↔ w = .word ∧ off.toNat % 4 = 0 := by
  cases w <;> simp [Width.isWord, offsetAligned]

/-- A step performs the oldest pending access on the state without it (70_reset_and_hazards.md R118). -/
theorem step_of_bus {a : Access} (hbus : s.bus = a :: rest) : step s = performAccess a { s with bus := rest } := by
  simp [step, hostStep, hbus]

/-- An access that is not admitted is refused, whatever the state (20_memory.md R43). -/
theorem step_not_admitted {a : Access} (hbus : s.bus = a :: rest) (ha : a.wellFormed = false) :
    step s = .refused .accessNotAdmitted := by
  simp [step_of_bus hbus, performAccess, ha]

/-- A read with BUSY 0 adds the offset's value to what the host observed (20_memory.md R44, R45). -/
theorem step_read (hbusy : s.busy = false) (ha : off.toNat % 4 = 0) (hbus : s.bus = .read .word off :: rest) :
    step s = .next { s with bus := rest, observed := s.observed ++ [readOffset off s] } := by
  have hadm : (Access.read .word off).wellFormed = true := admitted_iff.mpr ⟨rfl, ha⟩
  rw [step_of_bus hbus, performAccess, if_pos hadm, readAccess, if_neg (by simp [hbusy]),
    readOffset_host off s rest s.observed]

/-- A write at an aligned offset is performed on the state without it (20_memory.md R44). -/
theorem step_write (ha : off.toNat % 4 = 0) (hbus : s.bus = .write .word off v :: rest) :
    step s = writeAccess off v { s with bus := rest } := by
  have hadm : (Access.write .word off v).wellFormed = true := admitted_iff.mpr ⟨rfl, ha⟩
  rw [step_of_bus hbus, performAccess, if_pos hadm]

/-- A write of any offset but those of ARG and CMD is ignored (20_memory.md R44). -/
theorem writeAccess_ignored (harg : off ≠ regOffset .arg) (hcmd : off ≠ regOffset .cmd) :
    writeAccess off v s = .next s := by
  unfold writeAccess
  split
  next h => exact absurd (eq_regOffset_of_regAt h) harg
  next h => exact absurd (eq_regOffset_of_regAt h) hcmd
  next => rfl

/-- A write of ARG with BUSY 0 sets ARG (10_state.md R21). -/
theorem writeAccess_arg (hbusy : s.busy = false) : writeAccess (regOffset .arg) v s = .next { s with arg := v } := by
  simp [writeAccess, hbusy]

/-- A write of a legal word to CMD with BUSY 0 runs its command (10_state.md R22). -/
theorem writeAccess_cmd {i : Instr} (hbusy : s.busy = false) (hdec : decode v = .ok i) :
    writeAccess (regOffset .cmd) v s = exec i s := by
  simp [writeAccess, hbusy, issueCommand, hdec]

end Accesses

/-- Settles O7: the value at each offset, and the three kinds of write. -/
theorem windowAccessEffects : Obligations.WindowAccessEffects := by
  refine ⟨?_, ?_, ?_, ?_, ?_⟩
  · intro s off v rest hbusy hv hbus
    obtain ⟨r, rfl, rfl⟩ := exists_reg_of_mem_windowReads hv
    rw [step_read hbusy (regOffset_bounds r).1 hbus, readOffset_regOffset]
  · intro s off rest hbusy ha hres hbus
    rw [step_read hbusy ha hbus, readOffset_reserved s (by omega)]
    rfl
  · intro s off v rest ha harg hcmd hbus
    rw [step_write ha hbus, writeAccess_ignored harg hcmd]
  · intro s v rest hbusy hbus
    rw [step_write (by decide) hbus]
    exact writeAccess_arg hbusy
  · intro s v i rest hbusy hdec hbus
    rw [step_write (by decide) hbus]
    exact writeAccess_cmd hbusy hdec

/-- Settles O9: the first read reaches no register, so the second observes the same value. -/
theorem readsHaveNoSideEffect : Obligations.ReadsHaveNoSideEffect := by
  intro s off rest hbusy ha hbus
  have hfirst := step_read hbusy ha hbus
  have hsecond := step_read (rest := rest)
    (s := { s with bus := .read .word off :: rest, observed := s.observed ++ [readOffset off s] }) hbusy ha rfl
  exact ⟨readOffset off s, by simp [runSteps, hfirst], by simp [runSteps, hfirst, hsecond, readOffset_host]⟩

/-- Settles O10: such an access is not well formed. -/
theorem narrowOrMisalignedAccessIsRefused : Obligations.NarrowOrMisalignedAccessIsRefused := by
  intro s w off v rest h
  have hbad : (w.isWord && offsetAligned off) = false := by
    rw [← Bool.not_eq_true, admitted_iff, not_and_or]
    exact h
  exact ⟨fun hbus => step_not_admitted hbus hbad, fun hbus => step_not_admitted hbus hbad⟩

/-- Settles O12: the register's offset is aligned and in the window, so its bytes are those of its value. -/
theorem windowBytesAreLittleEndian : Obligations.WindowBytesAreLittleEndian := by
  intro s off v i hv hi
  obtain ⟨r, rfl, rfl⟩ := exists_reg_of_mem_windowReads hv
  obtain ⟨ha, hle⟩ := regOffset_bounds r
  have hplace : Config.regBase + (regOffset r).toNat + i - Config.regBase = (regOffset r).toNat + i := by omega
  rw [busByte, if_pos ⟨by omega, by omega⟩, hplace, windowByte_add ha hi, readOffset_regOffset]

end Sys2Proof.Machine
end

section
/-! SUPPORT. The formats of a command word and the opcode table (30_encoding.md R58 to R66): a word as the number its
fields make, and a row as an opcode and a format. -/

namespace Sys2Proof

open Sys2Proof.Claims

section Formats

variable {f : Format} {c : Word} {opc s : Byte} {k : BitVec 3} {i : Instr}

/-- The word of a format with the given fields, those the format lacks being ignored (30_encoding.md R60 to R62). -/
def formatWord (f : Format) (opc s : Byte) (k : BitVec 3) : Word :=
  match f with
  | .n => wordN opc
  | .b => wordB opc s
  | .bk => wordBK opc s k

/-- The number of operand bits below a format's reserved bits (30_encoding.md R60 to R62). -/
def operandWidth : Format → Nat
  | .n => 0
  | .b => 8
  | .bk => 11

/-- The mask of a format's rows: every bit but those of the operands (30_encoding.md R66). -/
def formatMask (f : Format) : Word := BitVec.allOnes 32 <<< operandWidth f

theorem toNat_append_eq_add {m n : Nat} (x : BitVec m) (y : BitVec n) :
    (x ++ y).toNat = x.toNat * 2 ^ n + y.toNat := by
  rw [BitVec.toNat_append, ← Nat.shiftLeft_add_eq_or_of_lt y.isLt, Nat.shiftLeft_eq]

theorem toNat_wordN : (wordN opc).toNat = opc.toNat * 2 ^ 24 := by
  rw [wordN, toNat_append_eq_add, BitVec.toNat_ofNat]
  omega

theorem toNat_wordB : (wordB opc s).toNat = opc.toNat * 2 ^ 24 + s.toNat := by
  rw [wordB, toNat_append_eq_add, toNat_append_eq_add, BitVec.toNat_ofNat]
  omega

theorem toNat_wordBK : (wordBK opc s k).toNat = opc.toNat * 2 ^ 24 + k.toNat * 2 ^ 8 + s.toNat := by
  rw [wordBK, toNat_append_eq_add, toNat_append_eq_add, toNat_append_eq_add, BitVec.toNat_ofNat]
  omega

theorem toNat_opcField : (opcField c).toNat = c.toNat / 2 ^ 24 := by
  have hlt : c.toNat < 2 ^ 32 := c.isLt
  rw [opcField, BitVec.extractLsb'_toNat, Nat.shiftRight_eq_div_pow]
  omega

theorem toNat_sField : (sField c).toNat = c.toNat % 2 ^ 8 := by
  rw [sField, BitVec.extractLsb'_toNat, Nat.shiftRight_zero]

theorem toNat_kField : (kField c).toNat = c.toNat / 2 ^ 8 % 2 ^ 3 := by
  rw [kField, BitVec.extractLsb'_toNat, Nat.shiftRight_eq_div_pow]

/-- The bits between the operands and the opcode are the reserved ones (30_encoding.md R60 to R62). -/
theorem reservedZero_iff :
    reservedZero f c = true ↔ c.toNat / 2 ^ operandWidth f % 2 ^ (24 - operandWidth f) = 0 := by
  cases f <;> simp [reservedZero, operandWidth, ← BitVec.toNat_inj, Nat.shiftRight_eq_div_pow]

@[simp] theorem opcField_formatWord : opcField (formatWord f opc s k) = opc := by
  apply BitVec.eq_of_toNat_eq
  cases f <;> simp only [formatWord, toNat_opcField, toNat_wordN, toNat_wordB, toNat_wordBK] <;> omega

@[simp] theorem reservedZero_formatWord : reservedZero f (formatWord f opc s k) = true := by
  rw [reservedZero_iff]
  cases f <;> simp only [formatWord, operandWidth, toNat_wordN, toNat_wordB, toNat_wordBK] <;> omega

@[simp] theorem sField_wordB : sField (wordB opc s) = s := by
  apply BitVec.eq_of_toNat_eq
  rw [toNat_sField, toNat_wordB]
  omega

@[simp] theorem sField_wordBK : sField (wordBK opc s k) = s := by
  apply BitVec.eq_of_toNat_eq
  rw [toNat_sField, toNat_wordBK]
  omega

@[simp] theorem kField_wordBK : kField (wordBK opc s k) = k := by
  apply BitVec.eq_of_toNat_eq
  rw [toNat_kField, toNat_wordBK]
  omega

/-- A word whose reserved bits are 0 is the word of its own fields (30_encoding.md R59 to R62). -/
theorem formatWord_fields (h : reservedZero f c = true) : formatWord f (opcField c) (sField c) (kField c) = c := by
  rw [reservedZero_iff] at h
  apply BitVec.eq_of_toNat_eq
  cases f <;>
    simp only [formatWord, operandWidth, toNat_wordN, toNat_wordB, toNat_wordBK, toNat_opcField, toNat_sField,
      toNat_kField] at h ⊢ <;> omega

/-- A word matches a row exactly if it has the row's opcode and 0 in the format's reserved bits (30_encoding.md R66). -/
theorem and_formatMask_eq_wordN_iff :
    c &&& formatMask f = wordN opc ↔ opcField c = opc ∧ reservedZero f c = true := by
  rw [formatMask, ← BitVec.shiftLeft_ushiftRight, ← BitVec.toNat_inj, ← BitVec.toNat_inj, reservedZero_iff, toNat_wordN,
    toNat_opcField]
  cases f <;> simp [operandWidth, Nat.shiftRight_eq_div_pow, Nat.shiftLeft_eq] <;> omega

/-- A word decodes exactly to the command of its opcode's row whose reserved bits are 0 in it (30_encoding.md R65, R66). -/
theorem decode_eq_ok_iff :
    decode c = .ok i ↔ ∃ f, opcodeRow (opcField c) (sField c) (kField c) = some (f, i) ∧ reservedZero f c = true := by
  unfold decode
  split
  next h => simp [h]
  next f j h => cases hres : reservedZero f c <;> simp [h, hres]

/-- Every command has a row (30_encoding.md R64). -/
theorem exists_opcodeRow (i : Instr) : ∃ f opc s k, opcodeRow opc s k = some (f, i) := by
  cases i with
  | nop => exact ⟨_, 0x00#8, 0, 0, rfl⟩
  | clear => exact ⟨_, 0x01#8, 0, 0, rfl⟩
  | feed s => exact ⟨_, 0x10#8, s, 0, rfl⟩
  | hadd s => exact ⟨_, 0x11#8, s, 0, rfl⟩
  | setlen => exact ⟨_, 0x12#8, 0, 0, rfl⟩
  | setpad => exact ⟨_, 0x13#8, 0, 0, rfl⟩
  | builde => exact ⟨_, 0x20#8, 0, 0, rfl⟩
  | buildd => exact ⟨_, 0x21#8, 0, 0, rfl⟩
  | enc s => exact ⟨_, 0x30#8, s, 0, rfl⟩
  | final => exact ⟨_, 0x31#8, 0, 0, rfl⟩
  | dfeed s => exact ⟨_, 0x40#8, s, 0, rfl⟩
  | dlast s => exact ⟨_, 0x41#8, s, 0, rfl⟩
  | dend => exact ⟨_, 0x42#8, 0, 0, rfl⟩
  | hrd s => exact ⟨_, 0x50#8, s, 0, rfl⟩
  | clrd s => exact ⟨_, 0x51#8, s, 0, rfl⟩
  | cbrd s k => exact ⟨_, 0x52#8, s, k, rfl⟩
  | pop => exact ⟨_, 0x53#8, 0, 0, rfl⟩

/-- The word of a row's command is the word of the row's format and fields (30_encoding.md R64). -/
theorem encode_of_opcodeRow (h : opcodeRow opc s k = some (f, i)) : encode i = formatWord f opc s k := by
  unfold opcodeRow at h
  split at h <;> cases h <;> rfl

/-- A row's command takes no operand its format lacks, so the fields of its word give it again (30_encoding.md R63). -/
theorem opcodeRow_fields_formatWord (h : opcodeRow opc s k = some (f, i)) :
    opcodeRow opc (sField (formatWord f opc s k)) (kField (formatWord f opc s k)) = some (f, i) := by
  unfold opcodeRow at h
  split at h <;> cases h <;> simp [opcodeRow, formatWord]

/-- The opcode and the format of each row of spec/opcode_table.json (30_encoding.md R64). -/
def opcodeFormats : List (Byte × Format) :=
  [(0x00#8, .n), (0x01#8, .n), (0x10#8, .b), (0x11#8, .b), (0x12#8, .n), (0x13#8, .n), (0x20#8, .n), (0x21#8, .n),
   (0x30#8, .b), (0x31#8, .n), (0x40#8, .b), (0x41#8, .b), (0x42#8, .n), (0x50#8, .b), (0x51#8, .b), (0x52#8, .bk),
   (0x53#8, .n)]

theorem opcodeTable_eq_map : opcodeTable = opcodeFormats.map fun p => (wordN p.1, formatMask p.2) := by decide

/-- The decoder's rows are the rows of the table, whatever the operands (30_encoding.md R64). -/
theorem exists_opcodeRow_iff_mem (s : Byte) (k : BitVec 3) :
    (∃ i, opcodeRow opc s k = some (f, i)) ↔ (opc, f) ∈ opcodeFormats := by
  constructor
  · rintro ⟨i, h⟩
    unfold opcodeRow at h
    split at h <;> cases h <;> decide
  · have hrows : ∀ p ∈ opcodeFormats, ∃ i, opcodeRow p.1 s k = some (p.2, i) := by simp [opcodeFormats, opcodeRow]
    exact hrows (opc, f)

end Formats

/-- Settles O1: the word of a row has the row's opcode and operands and 0 in the reserved bits. -/
theorem decodeOfEncodeIsTheCommand : Obligations.DecodeOfEncodeIsTheCommand := by
  intro i
  obtain ⟨f, opc, s, k, hrow⟩ := exists_opcodeRow i
  rw [encode_of_opcodeRow hrow, decode_eq_ok_iff]
  exact ⟨f, by rw [opcField_formatWord, opcodeRow_fields_formatWord hrow], reservedZero_formatWord⟩

/-- Settles O2: a legal word is the word of its own fields. -/
theorem encodeOfDecodeIsTheWord : Obligations.EncodeOfDecodeIsTheWord := by
  intro c i h
  obtain ⟨f, hrow, hres⟩ := decode_eq_ok_iff.mp h
  rw [encode_of_opcodeRow hrow, formatWord_fields hres]

/-- Settles O3: to match a row is to have its opcode and 0 in the reserved bits of its format. -/
theorem legalWordsAreTheOpcodeTable : Obligations.LegalWordsAreTheOpcodeTable := by
  intro c
  calc (∃ i, decode c = .ok i)
    _ ↔ ∃ f, (opcField c, f) ∈ opcodeFormats ∧ reservedZero f c = true := by
      simp only [decode_eq_ok_iff, ← exists_opcodeRow_iff_mem (sField c) (kField c), ← exists_and_right]
      exact exists_comm
    _ ↔ ∃ p ∈ opcodeFormats, c &&& formatMask p.2 = wordN p.1 := by
      simp [and_formatMask_eq_wordN_iff]
    _ ↔ ∃ row ∈ opcodeTable, c &&& row.2 = row.1 := by simp [opcodeTable_eq_map]

/-- Settles O4, word by word. -/
theorem workedEncodings : Obligations.WorkedEncodings := by
  unfold Obligations.WorkedEncodings
  decide

end Sys2Proof
end

section
/-! SUPPORT. An illegal word written to CMD (30_encoding.md R65, 60_exceptions.md R107, R108). -/

namespace Sys2Proof.Machine

/-- A write of an illegal word to CMD with BUSY 0 is an error entry with that word (40_control.md R72). -/
theorem writeAccess_cmd_illegal {s : State} {v : Word} (hbusy : s.busy = false) (hdec : ∀ i, decode v ≠ .ok i) :
    writeAccess (regOffset .cmd) v s = .next (recordError .illegal v s) := by
  cases h : decode v with
  | error e => simp [writeAccess, hbusy, issueCommand, h]
  | ok i => exact absurd h (hdec i)

/-- Settles O6: the write is an error entry, which records nothing in ERROR. -/
theorem illegalWordRaisesIllegal : Obligations.IllegalWordRaisesIllegal := by
  intro s c rest hbusy hbus hdec
  have hstep : step s = .next (recordError .illegal c { s with bus := rest }) := by
    rw [step_write (by decide) hbus]
    exact writeAccess_cmd_illegal hbusy hdec
  exact ⟨fun hp => hstep.trans (congrArg _ (recordError_eq _ _ _ hp)),
    fun hp => hstep.trans (congrArg _ (recordError_in_error _ _ _ hp))⟩

end Sys2Proof.Machine
end

section
/-! SUPPORT. The statements of the control commands (40_control.md): who writes the stream registers (R73), the step of a
command word (R72), NOP and CLEAR (R74, R75). -/

namespace Sys2Proof.Machine

open Sys2Proof.Claims

section StreamFrames

variable {s t : State} {i : Instr}

/-- ORIG_LEN is written by CLEAR, SETLEN and BUILDE only (10_state.md R25). -/
theorem Completes.origLen_eq (h : Completes s i t) (hclear : i ≠ .clear) (hsetlen : i ≠ .setlen)
    (hbuilde : i ≠ .builde) : t.origLen = s.origLen := by
  cases h with
  | clear => exact absurd rfl hclear
  | setlen => exact absurd rfl hsetlen
  | builde => exact absurd rfl hbuilde
  | enc => exact putBits_origLen ..
  | pop => rw [popByte_eq]
  | _ => rfl

/-- PAD is written by CLEAR, SETPAD, BUILDE and FINAL only (41_histogram.md R81, 43_encode.md R94). -/
theorem Completes.pad_eq (h : Completes s i t) (hclear : i ≠ .clear) (hsetpad : i ≠ .setpad) (hbuilde : i ≠ .builde)
    (hfinal : i ≠ .final) : t.pad = s.pad := by
  cases h with
  | clear => exact absurd rfl hclear
  | setpad => exact absurd rfl hsetpad
  | builde => exact absurd rfl hbuilde
  | flush | aligned => exact absurd rfl hfinal
  | enc => exact putBits_pad ..
  | pop => rw [popByte_eq]
  | _ => rfl

/-- TOTAL is written by CLEAR, FEED and HADD only (10_state.md R24). -/
theorem Completes.total_eq (h : Completes s i t) (hclear : i ≠ .clear) (hfeed : ∀ b, i ≠ .feed b)
    (hhadd : ∀ b, i ≠ .hadd b) : t.total = s.total := by
  cases h with
  | clear => exact absurd rfl hclear
  | feed => exact absurd rfl (hfeed _)
  | hadd => exact absurd rfl (hhadd _)
  | enc => exact putBits_total ..
  | pop => rw [popByte_eq]
  | _ => rfl

/-- SYMCNT and BITCNT are written by CLEAR, the builds, ENC, DFEED and DLAST only (10_state.md R26, R27). -/
theorem Completes.counters_eq (h : Completes s i t) (hclear : i ≠ .clear) (hbuilde : i ≠ .builde)
    (hbuildd : i ≠ .buildd) (henc : ∀ b, i ≠ .enc b) (hdfeed : ∀ b, i ≠ .dfeed b) (hdlast : ∀ b, i ≠ .dlast b) :
    t.symcnt = s.symcnt ∧ t.bitcnt = s.bitcnt := by
  cases h with
  | clear => exact absurd rfl hclear
  | builde => exact absurd rfl hbuilde
  | buildd => exact absurd rfl hbuildd
  | enc => exact absurd rfl (henc _)
  | dfeed => exact absurd rfl (hdfeed _)
  | dlast => exact absurd rfl (hdlast _)
  | pop => rw [popByte_eq]; exact ⟨rfl, rfl⟩
  | _ => exact ⟨rfl, rfl⟩

/-- BITBUF and FILL are written by CLEAR, BUILDE, ENC and FINAL only (10_state.md R37). -/
theorem Completes.packer_eq (h : Completes s i t) (hclear : i ≠ .clear) (hbuilde : i ≠ .builde)
    (henc : ∀ b, i ≠ .enc b) (hfinal : i ≠ .final) : t.bitbuf = s.bitbuf ∧ t.fill = s.fill := by
  cases h with
  | clear => exact absurd rfl hclear
  | builde => exact absurd rfl hbuilde
  | enc => exact absurd rfl (henc _)
  | flush | aligned => exact absurd rfl hfinal
  | pop => rw [popByte_eq]; exact ⟨rfl, rfl⟩
  | _ => exact ⟨rfl, rfl⟩

/-- CUR is written by CLEAR, the builds, DFEED and DLAST only (10_state.md R38). -/
theorem Completes.cur_eq (h : Completes s i t) (hclear : i ≠ .clear) (hbuilde : i ≠ .builde) (hbuildd : i ≠ .buildd)
    (hdfeed : ∀ b, i ≠ .dfeed b) (hdlast : ∀ b, i ≠ .dlast b) : t.cur = s.cur := by
  cases h with
  | clear => exact absurd rfl hclear
  | builde => exact absurd rfl hbuilde
  | buildd => exact absurd rfl hbuildd
  | dfeed => exact absurd rfl (hdfeed _)
  | dlast => exact absurd rfl (hdlast _)
  | enc => exact putBits_cur ..
  | pop => rw [popByte_eq]
  | _ => rfl

/-- No command writes the host's side of the state (entries 1 and 4). -/
theorem Completes.host_eq (h : Completes s i t) :
    t.bus = s.bus ∧ t.observed = s.observed ∧ t.freeReads = s.freeReads := by
  cases h with
  | enc => exact ⟨putBits_bus .., putBits_observed .., putBits_freeReads ..⟩
  | pop => rw [popByte_eq]; exact ⟨rfl, rfl, rfl⟩
  | _ => exact ⟨rfl, rfl, rfl⟩

end StreamFrames

/-- Settles O57: a completed command writes the stream registers its rule names, and an error entry writes none. -/
theorem streamRegisterWriters : Obligations.StreamRegisterWriters := by
  intro i s t h
  obtain hc | ⟨-, e, -, rfl⟩ | ⟨-, rfl⟩ := exec_next_cases h
  · exact ⟨hc.origLen_eq, hc.pad_eq, hc.total_eq, hc.counters_eq, hc.packer_eq, hc.cur_eq, hc.host_eq⟩
  all_goals exact ⟨fun _ _ _ => rfl, fun _ _ _ _ => rfl, fun _ _ _ => rfl, fun _ _ _ _ _ _ => ⟨rfl, rfl⟩,
    fun _ _ _ _ => ⟨rfl, rfl⟩, fun _ _ _ _ _ => rfl, rfl, rfl, rfl⟩

section CommandWords

variable {s : State} {c : Word} {i : Instr}

/-- A step whose access writes a legal word to CMD, BUSY being 0, runs the word's command (40_control.md R72). -/
theorem step_command {rest : List Access} (hbusy : s.busy = false)
    (hbus : s.bus = .write .word (regOffset .cmd) c :: rest) (hdec : decode c = .ok i) :
    step s = exec i { s with bus := rest } := by
  rw [step_write (by decide) hbus]
  exact writeAccess_cmd hbusy hdec

@[simp] theorem tableWord_32 (w : Nat) : tableWord 32 w = BitVec.ofNat 32 w := by
  apply BitVec.eq_of_toNat_eq
  simp [tableWord]

/-- NOP's is the only row of opcode 0 (30_encoding.md R64). -/
theorem eq_nop_of_opcField_zero (hopc : opcField c = 0x00#8) (hdec : decode c = .ok i) : i = .nop := by
  obtain ⟨f, hrow, -⟩ := decode_eq_ok_iff.mp hdec
  rw [hopc] at hrow
  cases hrow
  rfl

end CommandWords

/-- Settles O5: the write is performed on the state without it, and `withFetchWord` places such a write. -/
theorem stepRunsTheDecodedCommand : Obligations.StepRunsTheDecodedCommand := by
  refine ⟨fun s c i rest => step_command, fun s w i hdec => ?_⟩
  have hbus : (s.withFetchWord 32 w).bus = .write .word (regOffset .cmd) (BitVec.ofNat 32 w) :: s.bus := by
    rw [State.withFetchWord, tableWord_32, pushCommand_bus]
  exact step_command (pushCommand_busy ..) hbus hdec

/-- What makes a command follow its statement: its word, the phases that accept it, and how its rule ends in them
(40_control.md R72, 60_exceptions.md R107, R108). -/
theorem commandRule_of_ruleOf {i : Instr} {word : Word} {phases : List Phase} {fails : State → Option ErrCode}
    {effect : State → State} (hword : encode i = word) (hphases : ∀ p, p ∈ phases ↔ acceptedIn i p = true)
    (hdone : ∀ s, s.phase ∈ phases → fails s = none → ruleOf i s = .done (effect s))
    (hraise : ∀ s e, s.phase ∈ phases → fails s = some e → ruleOf i s = .raise e) :
    CommandRule i word phases fails effect := by
  have hnot {s : State} (hp : s.phase ∉ phases) : acceptedIn i s.phase = false := by
    rwa [hphases, Bool.not_eq_true] at hp
  subst hword
  refine ⟨rfl, decodeOfEncodeIsTheCommand i, fun s hp hf => ?_, fun s e hp hf => ?_, fun s hp hne => ?_,
    fun s hp he => ?_⟩ <;> rw [exec_eq_runCommand]
  · exact runCommand_done ((hphases _).mp hp) (hdone s hp hf)
  · have ha := (hphases _).mp hp
    have hr := hraise s e hp hf
    rw [runCommand_raise ha hr, recordError_eq _ _ _ (ruleOf_raise ha hr).2]
    rfl
  · rw [runCommand_sequence (hnot hp) hne, recordError_eq _ _ _ hne]
    rfl
  · exact runCommand_ignored (hnot hp) he

theorem mem_allPhases (p : Phase) : p ∈ allPhases := by cases p <;> decide

/-- A command that every phase accepts and whose rule always completes follows its statement without a check. -/
theorem commandRule_allPhases {i : Instr} {word : Word} {effect : State → State} (hword : encode i = word)
    (haccept : ∀ p, acceptedIn i p = true) (hdone : ∀ s, ruleOf i s = .done (effect s)) :
    CommandRule i word allPhases (fun _ => none) effect :=
  commandRule_of_ruleOf hword (fun p => iff_of_true (mem_allPhases p) (haccept p)) (fun s _ _ => hdone s)
    fun _ e _ he => absurd he.symm (Option.some_ne_none e)

/-- Settles O14: NOP's rule answers the state it is given, and a word with NOP's opcode that is legal is NOP's word. -/
theorem nopDoesNothing : Obligations.NopDoesNothing := by
  refine ⟨commandRule_allPhases (by decide) (fun _ => rfl) fun _ => rfl, fun c hopc hne i hdec => hne ?_⟩
  calc c = encode i := (encodeOfDecodeIsTheWord c i hdec).symm
    _ = encode .nop := by rw [eq_nop_of_opcField_zero hopc hdec]
    _ = 0#32 := by decide

/-- CLEAR gives every specified reset value but BUSY's, which it does not write (40_control.md R75, 10_state.md R40). -/
theorem resetValues_clearBlock {s : State} (hbusy : s.busy = false) : ResetValues (clearBlock s) := by
  have hhist (b : Byte) : histAt (clearBlock s) b = 0 := Vector.getElem_replicate ..
  exact ⟨rfl, rfl, rfl, rfl, rfl, rfl, rfl, rfl, rfl, rfl, hbusy, rfl, rfl, hhist, rfl, rfl, rfl, rfl, rfl, rfl, rfl⟩

/-- Settles O15: CLEAR's rule makes the assignments in every phase, and they are the reset values. -/
theorem clearReturnsToReset : Obligations.ClearReturnsToReset := by
  refine ⟨commandRule_allPhases (by decide) (fun _ => rfl) fun _ => rfl, fun s t hbusy h => ?_⟩
  cases (exec_clear s).symm.trans h
  exact resetValues_clearBlock hbusy

end Sys2Proof.Machine
end

section
/-! SUPPORT. The statements of the frequency counter and the stream parameters (41_histogram.md): FEED and HADD, which
are one operation, SETLEN and SETPAD, and the counting and merge laws, by induction on the lines that add to the
histogram. -/

namespace Sys2Proof.Machine

open Sys2Proof.Claims

section CountOnce

variable {s : State} {i : Instr} {b : Byte} {a : Word}

/-- The state with `a` added to HIST[b] and TOTAL (41_histogram.md R78, R79). -/
def counted (b : Byte) (a : Word) (s : State) : State := setHist b (histAt s b + a) { s with total := s.total + a }

theorem countSymbol_fits (h : s.total.toNat + a.toNat ≤ 0xFFFFFFFF) : countSymbol b a s = .done (counted b a s) :=
  if_neg (by omega)

theorem countSymbol_overflow (h : 0xFFFFFFFF < s.total.toNat + a.toNat) : countSymbol b a s = .raise .overflow :=
  if_pos h

/-- A format B word has its operand in the bits its opcode's word leaves 0 (30_encoding.md R61). -/
theorem wordB_eq_withS (opc b : Byte) : wordB opc b = withS (wordN opc) b := by
  have hb : b.toNat < 2 ^ 24 := b.isLt.trans (by decide)
  apply BitVec.eq_of_toNat_eq
  rw [withS, BitVec.toNat_or, BitVec.toNat_setWidth, toNat_wordB, toNat_wordN, Nat.mod_eq_of_lt (hb.trans (by decide)),
    mul_comm]
  exact Nat.two_pow_add_eq_or_of_lt hb opc.toNat

/-- A command whose rule makes one check follows its statement with that check (40_control.md R72). -/
theorem commandRule_of_check {word : Word} {phases : List Phase} {fails : State → Prop} [DecidablePred fails]
    {e : ErrCode} {effect : State → State} (hword : encode i = word)
    (hphases : ∀ p, p ∈ phases ↔ acceptedIn i p = true) (hdone : ∀ s, ¬fails s → ruleOf i s = .done (effect s))
    (hraise : ∀ s, fails s → ruleOf i s = .raise e) :
    CommandRule i word phases (fun s => if fails s then some e else none) effect := by
  refine commandRule_of_ruleOf hword hphases (fun s _ hf => ?_) fun s e' _ hf => ?_
  · exact hdone s (by simpa using hf)
  · obtain ⟨hs, rfl⟩ : fails s ∧ e = e' := by simpa using hf
    exact hraise s hs

/-- A command that LOAD alone accepts and that adds an amount to one count follows its statement, however its check
that TOTAL would pass 2^32 - 1 is written (41_histogram.md R78, R79). -/
theorem commandRule_count {word : Word} {amount : State → Word} {exceeds : State → Prop} [DecidablePred exceeds]
    (hword : encode i = word) (haccept : ∀ p, acceptedIn i p = (p == .load))
    (hrule : ∀ s, ruleOf i s = countSymbol b (amount s) s)
    (hexceeds : ∀ s, exceeds s ↔ 0xFFFFFFFF < s.total.toNat + (amount s).toNat) :
    CommandRule i word [.load] (fun s => if exceeds s then some .overflow else none)
      (fun s => counted b (amount s) s) :=
  commandRule_of_check hword (by simp [haccept])
    (fun s h => (hrule s).trans (countSymbol_fits (Nat.le_of_not_lt (mt (hexceeds s).mpr h))))
    fun s h => (hrule s).trans (countSymbol_overflow ((hexceeds s).mp h))

/-- The registers' sum in 33 bits passes 2^32 - 1 as their sum in the natural numbers does (41_histogram.md R79). -/
theorem sum33_gt_iff (x y : Word) :
    x.setWidth 33 + y.setWidth 33 > 0xFFFFFFFF#33 ↔ 0xFFFFFFFF < x.toNat + y.toNat := by
  have hx := x.isLt
  have hy := y.isLt
  simp only [gt_iff_lt, BitVec.lt_def, BitVec.toNat_add, BitVec.toNat_setWidth, BitVec.toNat_ofNat]
  omega

end CountOnce

/-- Settles O17: HADD's rule counts ARG, and its check is the check in 33 bits. -/
theorem haddMergesAPartialCount : Obligations.HaddMergesAPartialCount := fun b =>
  commandRule_count (wordB_eq_withS _ b) (fun _ => rfl) (fun _ => rfl) fun s => sum33_gt_iff s.total s.arg

/-- Settles O18: SETLEN's rule has no check. -/
theorem setlenLoadsTheDeclaredLength : Obligations.SetlenLoadsTheDeclaredLength :=
  commandRule_of_ruleOf (by decide) (by simp [acceptedIn]) (fun _ _ _ => rfl) fun _ _ _ he => nomatch he

/-- Settles O19: SETPAD's rule checks ARG and keeps its lowest three bits. -/
theorem setpadLoadsThePadCount : Obligations.SetpadLoadsThePadCount :=
  commandRule_of_check (by decide) (by simp [acceptedIn]) (fun _ h => if_neg (by simpa [BitVec.lt_def] using h))
    fun _ h => if_pos (by simpa [BitVec.lt_def] using h)

section SymbolsCounted

variable (h : Vector Word 256) (b : Byte) (v : Word)

theorem countedSymbols_eq_countP : countedSymbols h = h.countP (· != 0#32) :=
  (nsym_eq_countP { State.reset with hist := h }).symm.trans Vector.countP_toList

/-- Writing a nonzero count makes the symbol counted, and leaves every other as it was (10_state.md R27). -/
theorem countedSymbols_set (hv : v ≠ 0#32) :
    countedSymbols (h.set b.toNat v b.isLt) = countedSymbols h + if countAt h b = 0#32 then 1 else 0 := by
  rw [countedSymbols_eq_countP, countedSymbols_eq_countP, Vector.countP_set b.isLt, countAt]
  by_cases hb : h[b.toNat]'b.isLt = 0#32
  · simp [hb, hv]
  · have hpos : 0 < h.countP (· != 0#32) :=
      Vector.countP_pos_iff.mpr ⟨_, Vector.getElem_mem b.isLt, by simpa using hb⟩
    simpa [hb, hv] using Nat.sub_add_cancel hpos

end SymbolsCounted

/-- Settles O16: FEED's rule counts 1; in the invariant TOTAL is the sum of HIST, so HIST[s] is no larger and its
successor is no 0. -/
theorem feedCountsOneSymbol : Obligations.FeedCountsOneSymbol := by
  intro b
  have hexceeds (s : State) : s.total = 0xFFFFFFFF#32 ↔ 0xFFFFFFFF < s.total.toNat + (1#32).toNat := by bv_omega
  have hrule := commandRule_count (i := .feed b) (wordB_eq_withS _ b) (fun _ => rfl) (fun _ => rfl) hexceeds
  refine ⟨hrule, fun s hinv hp hne => ?_⟩
  have hle : (countAt s.hist b).toNat ≤ s.total.toNat := hinv.totalIsSum ▸ le_histSum s.hist b
  obtain ⟨-, -, hdone, -⟩ := hrule
  refine ⟨hle, _, hdone s (by simp [hp]) (if_neg hne), countedSymbols_set _ _ _ ?_⟩
  change countAt s.hist b + 1#32 ≠ 0
  bv_omega

section Amounts

variable (b : Byte) (ps qs : List (Byte × Option Word)) (p : Byte × Option Word)

/-- The sum of the amounts of a list of lines (41_histogram.md R83). -/
def totalAmount (ps : List (Byte × Option Word)) : Nat := (ps.map countAmount).sum

/-- The sum of the amounts its lines give for a byte (41_histogram.md R83). -/
def amountFor (b : Byte) (ps : List (Byte × Option Word)) : Nat := totalAmount (ps.filter fun p => p.1 == b)

@[simp] theorem totalAmount_append : totalAmount (ps ++ qs) = totalAmount ps + totalAmount qs := by
  simp [totalAmount]

theorem totalAmount_le_append : totalAmount ps ≤ totalAmount (ps ++ qs) := by simp

@[simp] theorem totalAmount_singleton : totalAmount [p] = countAmount p := by simp [totalAmount]

@[simp] theorem amountFor_append : amountFor b (ps ++ qs) = amountFor b ps + amountFor b qs := by simp [amountFor]

@[simp] theorem amountFor_singleton : amountFor b [p] = if p.1 = b then countAmount p else 0 := by
  by_cases h : p.1 = b <;> simp [amountFor, h, totalAmount]

theorem amountFor_le_totalAmount : amountFor b ps ≤ totalAmount ps :=
  (List.filter_sublist.map countAmount).sum_le_sum fun _ _ => Nat.zero_le _

variable {ps qs} in
theorem totalAmount_perm (h : qs.Perm ps) : totalAmount qs = totalAmount ps := (h.map countAmount).sum_eq

variable {ps qs} in
theorem amountFor_perm (h : qs.Perm ps) : amountFor b qs = amountFor b ps := totalAmount_perm (h.filter _)

/-- The lines that FEED a byte sequence. -/
def feedLines (bs : List Byte) : List (Byte × Option Word) := bs.map fun c => (c, none)

theorem totalAmount_feedLines (bs : List Byte) : totalAmount (feedLines bs) = bs.length := by
  simp [totalAmount, feedLines, Function.comp_def, countAmount]

theorem amountFor_feedLines (bs : List Byte) : amountFor b (feedLines bs) = bs.count b := by
  simp [amountFor, totalAmount, feedLines, List.filter_map, Function.comp_def, countAmount, List.count_eq_length_filter]

end Amounts

section CountMany

variable {ps : List (Byte × Option Word)} {p : Byte × Option Word} {s : State} {i : Instr} {a : Word}

/-- In LOAD, with BUSY 0, the histogram holds exactly the amounts of the lines `ps` (41_histogram.md R82, R83). -/
structure HoldsAmounts (ps : List (Byte × Option Word)) (s : State) : Prop where
  phase : s.phase = .load
  notBusy : s.busy = false
  hist : ∀ b, (histAt s b).toNat = amountFor b ps
  total : s.total.toNat = totalAmount ps

/-- The reset values count nothing, whatever the host has pending. -/
theorem holdsAmounts_of_resetValues (h : ResetValues s) (bus : List Access) :
    HoldsAmounts [] { s with bus := bus } := by
  obtain ⟨-, -, -, -, htotal, -, -, -, -, hphase, hbusy, -, -, hhist, -⟩ := h
  exact ⟨hphase, hbusy, fun b => congrArg BitVec.toNat (hhist b), congrArg BitVec.toNat htotal⟩

/-- Counting reads neither ARG nor the host's pending accesses. -/
theorem HoldsAmounts.withHost (h : HoldsAmounts ps s) (arg : Word) (bus : List Access) :
    HoldsAmounts ps { s with arg := arg, bus := bus } :=
  ⟨h.phase, h.notBusy, h.hist, h.total⟩

/-- One more amount is added to its own entry and to TOTAL, and wraps neither while the whole sum fits
(41_histogram.md R78, R79). -/
theorem HoldsAmounts.snoc (h : HoldsAmounts ps s) (hle : totalAmount (ps ++ [p]) ≤ 0xFFFFFFFF)
    (ha : a.toNat = countAmount p) :
    HoldsAmounts (ps ++ [p]) (counted p.1 a s) := by
  have hsum : totalAmount ps + countAmount p ≤ 0xFFFFFFFF := by simpa using hle
  refine ⟨h.phase, h.notBusy, fun b => ?_, ?_⟩
  · have hentry := amountFor_le_totalAmount b ps
    rw [amountFor_append, amountFor_singleton, ← h.hist b]
    rw [← h.hist b] at hentry
    by_cases hb : p.1 = b
    · subst hb
      rw [counted, histAt_setHist_same, BitVec.toNat_add, ha, if_pos rfl]
      exact Nat.mod_eq_of_lt (by omega)
    · rw [counted, histAt_setHist_other _ _ _ _ (Ne.symm hb), if_neg hb]
      rfl
  · show (s.total + a).toNat = _
    rw [BitVec.toNat_add, h.total, ha, totalAmount_append, totalAmount_singleton]
    exact Nat.mod_eq_of_lt (by omega)

/-- A command that adds the amount of a line completes while the whole sum fits. -/
theorem HoldsAmounts.exec_eq (h : HoldsAmounts ps s) (hle : totalAmount (ps ++ [p]) ≤ 0xFFFFFFFF)
    (ha : a.toNat = countAmount p) (haccept : acceptedIn i .load = true) (hrule : ruleOf i s = countSymbol p.1 a s) :
    exec i s = .next (counted p.1 a s) := by
  have hfits : s.total.toNat + a.toNat ≤ 0xFFFFFFFF := by
    rw [h.total, ha]
    simpa using hle
  rw [exec_eq_runCommand]
  exact runCommand_done (h.phase ▸ haccept) (hrule.trans (countSymbol_fits hfits))

/-- FEEDs one after the other count their bytes (41_histogram.md R82). -/
theorem execAll_feeds (bs : List Byte) (h : HoldsAmounts ps s) (hle : totalAmount (ps ++ feedLines bs) ≤ 0xFFFFFFFF) :
    ∃ t, execAll (bs.map .feed) s = .next t ∧ HoldsAmounts (ps ++ feedLines bs) t := by
  induction bs generalizing ps s with
  | nil => exact ⟨s, rfl, by simpa [feedLines] using h⟩
  | cons b bs ih =>
    have hsplit : ps ++ feedLines (b :: bs) = ps ++ [(b, none)] ++ feedLines bs := by simp [feedLines]
    rw [hsplit] at hle ⊢
    have hfirst : totalAmount (ps ++ [(b, none)]) ≤ 0xFFFFFFFF := (totalAmount_le_append _ _).trans hle
    obtain ⟨t, hrun, ht⟩ := ih (h.snoc (a := 1) hfirst rfl) hle
    exact ⟨t, by rw [List.map_cons, execAll, h.exec_eq hfirst rfl rfl rfl]; exact hrun, ht⟩

theorem runSteps_of_step {t : State} (h : step s = .next t) (n : Nat) : runSteps (n + 1) s = runSteps n t := by
  rw [runSteps, h]

/-- A line that adds to the histogram does so in its one or two accesses (30_encoding.md R69, R70). -/
theorem HoldsAmounts.runSteps_line {rest : List Access} (h : HoldsAmounts ps s)
    (hle : totalAmount (ps ++ [p]) ≤ 0xFFFFFFFF) (hbus : s.bus = expandLine (countLine p) ++ rest) :
    ∃ t, t.bus = rest ∧ HoldsAmounts (ps ++ [p]) t ∧
      ∀ n, runSteps ((expandLine (countLine p)).length + n) s = runSteps n t := by
  obtain ⟨b, _ | v⟩ := p
  · have hs := h.withHost s.arg rest
    have hstep := (step_command h.notBusy hbus (decodeOfEncodeIsTheCommand (.feed b))).trans
      (hs.exec_eq hle rfl rfl rfl)
    exact ⟨_, rfl, hs.snoc hle rfl, fun n => by rw [Nat.add_comm]; exact runSteps_of_step hstep n⟩
  · have harg := (step_write (by decide) hbus).trans (writeAccess_arg h.notBusy)
    have hs := h.withHost v rest
    have hstep := (step_command (s := { s with arg := v, bus := cmdAccess (.hadd b) :: rest }) h.notBusy rfl
      (decodeOfEncodeIsTheCommand (.hadd b))).trans (hs.exec_eq hle rfl rfl rfl)
    exact ⟨_, rfl, hs.snoc hle rfl, fun n => by
      rw [Nat.add_comm]; exact (runSteps_of_step harg (n + 1)).trans (runSteps_of_step hstep n)⟩

/-- Lines one after the other add their amounts (41_histogram.md R83). -/
theorem runSteps_countLines (qs : List (Byte × Option Word)) (h : HoldsAmounts ps s)
    (hle : totalAmount (ps ++ qs) ≤ 0xFFFFFFFF) (hbus : s.bus = expandProgram (qs.map countLine)) :
    ∃ t, runSteps (expandProgram (qs.map countLine)).length s = .next t ∧ HoldsAmounts (ps ++ qs) t := by
  induction qs generalizing ps s with
  | nil => exact ⟨s, rfl, by simpa using h⟩
  | cons p qs ih =>
    have hexpand : expandProgram ((p :: qs).map countLine) =
        expandLine (countLine p) ++ expandProgram (qs.map countLine) := rfl
    rw [hexpand] at hbus ⊢
    rw [List.append_cons] at hle ⊢
    have hfirst : totalAmount (ps ++ [p]) ≤ 0xFFFFFFFF := (totalAmount_le_append _ _).trans hle
    obtain ⟨u, hubus, hu, hline⟩ := h.runSteps_line hfirst hbus
    rw [List.length_append, hline]
    exact ih hu hle hubus

theorem runProgram_countLines (hs : ResetValues s) (hle : totalAmount ps ≤ 0xFFFFFFFF) :
    ∃ t, runProgram (ps.map countLine) s = .next t ∧ HoldsAmounts ps t :=
  runSteps_countLines ps (holdsAmounts_of_resetValues hs _) hle rfl

/-- Two histograms with the same amount for every byte are equal. -/
theorem HoldsAmounts.hist_eq {qs : List (Byte × Option Word)} {t : State} (hs : HoldsAmounts ps s)
    (ht : HoldsAmounts qs t) (h : ∀ b, amountFor b ps = amountFor b qs) : s.hist = t.hist := by
  refine Vector.ext fun k hk => ?_
  have hat : histAt s (BitVec.ofNat 8 k) = histAt t (BitVec.ofNat 8 k) :=
    BitVec.eq_of_toNat_eq (by rw [hs.hist, ht.hist, h])
  simpa [histAt, Nat.mod_eq_of_lt hk] using hat

end CountMany

/-- Settles O31: FEEDs add 1 for each byte, and the sum is the length. -/
theorem feedsCountTheSequence : Obligations.FeedsCountTheSequence := by
  intro s bs hreset hlen
  obtain ⟨t, hrun, ht⟩ := execAll_feeds bs (holdsAmounts_of_resetValues hreset s.bus)
    (by simpa [totalAmount_feedLines] using hlen)
  exact ⟨t, hrun, fun b => (ht.hist b).trans (amountFor_feedLines b bs), ht.total.trans (totalAmount_feedLines bs)⟩

/-- Settles O32: a program of lines holds their amounts, and amounts do not depend on the order. -/
theorem mergingPartialCountsAddsThem : Obligations.MergingPartialCountsAddsThem := by
  intro s ps hreset hle
  obtain ⟨t, hrun, ht⟩ := runProgram_countLines hreset hle
  refine ⟨t, hrun, ht.hist, ht.total, fun qs hperm => ?_⟩
  obtain ⟨u, hrun', hu⟩ := runProgram_countLines hreset ((totalAmount_perm hperm).trans_le hle)
  exact ⟨u, hrun', hu.hist_eq ht fun b => amountFor_perm b hperm⟩

end Sys2Proof.Machine
end

section
/-! SUPPORT. What HeapInsert, HeapExtractMin and the allocation of a node leave of the tree memories, whatever the size of
the heap (42_tree_build.md R84, R86, R87), and what a merge does. -/

namespace Sys2Proof.Machine

open Sys2Proof.Claims

section QueueFrames

variable (t : TreeMem) (n : Node) (x : NodeIdx)

/-- Sift-up writes the heap and nothing else. -/
theorem siftUp_eq (fuel i : Nat) (t : TreeMem) : siftUp fuel i t = { t with heap := (siftUp fuel i t).heap } := by
  induction fuel generalizing i t with
  | zero => rfl
  | succ fuel ih =>
    unfold siftUp
    split
    · exact ih _ _
    · rfl

/-- Sift-down writes the heap and nothing else. -/
theorem siftDown_eq (fuel i : Nat) (t : TreeMem) : siftDown fuel i t = { t with heap := (siftDown fuel i t).heap } := by
  induction fuel generalizing i t with
  | zero => rfl
  | succ fuel ih =>
    unfold siftDown
    split
    · rfl
    · split
      · exact ih _ _
      · rfl

/-- HeapInsert writes the heap and HS (42_tree_build.md R86). -/
theorem heapInsert_eq : heapInsert x t = { t with heap := (heapInsert x t).heap, hs := t.hs + 1 } := siftUp_eq ..

/-- HeapExtractMin writes the heap and HS (42_tree_build.md R87). -/
theorem heapRemoveMin_eq : heapRemoveMin t = { t with heap := (heapRemoveMin t).heap, hs := t.hs - 1 } := by
  unfold heapRemoveMin
  dsimp only
  split
  · exact siftDown_eq ..
  · rfl

@[simp] theorem heapRemoveMin_node : (heapRemoveMin t).node = t.node := by rw [heapRemoveMin_eq]
@[simp] theorem heapRemoveMin_nn : (heapRemoveMin t).nn = t.nn := by rw [heapRemoveMin_eq]
@[simp] theorem heapRemoveMin_hs : (heapRemoveMin t).hs = t.hs - 1 := by rw [heapRemoveMin_eq]

@[simp] theorem heapInsert_node : (heapInsert x t).node = t.node := by rw [heapInsert_eq]
@[simp] theorem heapInsert_nn : (heapInsert x t).nn = t.nn := by rw [heapInsert_eq]
@[simp] theorem heapInsert_hs : (heapInsert x t).hs = t.hs + 1 := by rw [heapInsert_eq]

@[simp] theorem insertNew_node : (insertNew n t).node = (allocNode n t).node := heapInsert_node ..
@[simp] theorem insertNew_nn : (insertNew n t).nn = t.nn + 1 := heapInsert_nn ..
@[simp] theorem insertNew_hs : (insertNew n t).hs = t.hs + 1 := heapInsert_hs ..

@[simp] theorem mergeStep_nn : (mergeStep t).nn = t.nn + 1 := by simp [mergeStep]
@[simp] theorem mergeStep_hs : (mergeStep t).hs = t.hs - 2 + 1 := by simp [mergeStep]; omega

@[simp] theorem nodeAt_heapRemoveMin (i : NodeIdx) : nodeAt (heapRemoveMin t) i = nodeAt t i :=
  nodeAt_congr (heapRemoveMin_node t)

/-- An allocation writes the slot at NN only. -/
theorem nodeAt_allocNode_other {i : NodeIdx} (h : i ≠ nextIdx t) : nodeAt (allocNode n t) i = nodeAt t i := by
  have hne : (nextIdx t).val ≠ i.val := fun e => h (Fin.ext e.symm)
  simp [nodeAt, hne]

theorem nodeAt_insertNew_next : nodeAt (insertNew n t) (nextIdx t) = n :=
  (nodeAt_congr (insertNew_node t n)).trans (nodeAt_allocNode_next t n)

theorem nodeAt_insertNew_other {i : NodeIdx} (h : i ≠ nextIdx t) : nodeAt (insertNew n t) i = nodeAt t i :=
  (nodeAt_congr (insertNew_node t n)).trans (nodeAt_allocNode_other t n h)

/-- While the arena has room, an index is the one allocated next exactly if it is NN. -/
theorem eq_nextIdx_iff {t : TreeMem} (h : t.nn < 511) {i : NodeIdx} : i = nextIdx t ↔ i.val = t.nn := by
  rw [Fin.ext_iff, nextIdx_val t h]

end QueueFrames

section Merge

variable {t : TreeMem}

/-- A merge inserts the join of the two entries it extracts (42_tree_build.md R84). -/
theorem mergeStep_eq (t : TreeMem) :
    mergeStep t =
      insertNew (joined t (heapMin t) (heapMin (heapRemoveMin t))) (heapRemoveMin (heapRemoveMin t)) := by
  unfold mergeStep joined
  simp only [nodeAt_heapRemoveMin]

/-- The two entries a merge extracts, and the entries it leaves. -/
theorem heapEntries_perm_merge (h2 : 2 ≤ t.hs) (hs : t.hs ≤ 511) :
    (heapEntries t).Perm
      (heapMin t :: heapMin (heapRemoveMin t) :: heapEntries (heapRemoveMin (heapRemoveMin t))) := by
  obtain ⟨-, -, -, -, hfirst⟩ := heapRemoveMin_spec t (by omega) hs
  obtain ⟨-, -, -, -, hsecond⟩ := heapRemoveMin_spec (heapRemoveMin t) (by simp; omega) (by simp; omega)
  exact ((hsecond.cons _).trans hfirst).symm

/-- A new node no entry names leaves the heap order (10_state.md R33). -/
theorem allocNode_heapOrdered {n : Node} (h : HeapOrdered t) (hnew : ∀ i ∈ heapEntries t, i ≠ nextIdx t) :
    HeapOrdered (allocNode n t) := by
  have hw (k : Nat) (hk : k < t.hs) : slotWeight (allocNode n t) k = slotWeight t k :=
    congrArg nodeWeight (nodeAt_allocNode_other t n (hnew _ (List.mem_map_of_mem (List.mem_range.mpr hk))))
  intro k hk hks
  rw [allocNode_hs] at hks
  rw [hw _ (by omega), hw k hks]
  exact h k hk hks

/-- mergeAll goes on while HS is above 1 (42_tree_build.md R84). -/
theorem mergeAll_succ (h : 1 < t.hs) (fuel : Nat) : mergeAll (fuel + 1) t = mergeAll fuel (mergeStep t) := if_pos h

/-- mergeAll stops at one entry or none (42_tree_build.md R84). -/
theorem mergeAll_stop (h : t.hs ≤ 1) (fuel : Nat) : mergeAll fuel t = t := by
  cases fuel with
  | zero => rfl
  | succ fuel => exact if_neg (Nat.not_lt_of_le h)

end Merge

/-- Settles O34: each extraction takes a lightest entry, by O33, and the new node is at an index no entry names, so the
order holds when it is inserted. -/
theorem mergeTakesTheTwoLightest : Obligations.MergeTakesTheTwoLightest := by
  refine ⟨fun t hord h2 hs hnn hlive => ?_, fun t fuel => ⟨fun h => mergeAll_succ h fuel, fun h => mergeAll_stop h fuel⟩⟩
  obtain ⟨hord₁, hperm₁, hmin₁⟩ := (heapKeepsItsOrder.1 t hord).2 (by omega) hs
  obtain ⟨hord₂, hperm₂, hmin₂⟩ := (heapKeepsItsOrder.1 _ hord₁).2 (by simp; omega) (by simp; omega)
  simp only [nodeAt_heapRemoveMin] at hmin₂
  have hperm := heapEntries_perm_merge h2 hs
  have hnext {i : NodeIdx} : i = nextIdx (heapRemoveMin (heapRemoveMin t)) ↔ i.val = t.nn := by
    simpa using eq_nextIdx_iff (t := heapRemoveMin (heapRemoveMin t)) (by simpa using hnn)
  have hnew : ∀ i ∈ heapEntries (heapRemoveMin (heapRemoveMin t)), i ≠ nextIdx (heapRemoveMin (heapRemoveMin t)) :=
    fun i hi e => Nat.ne_of_lt (hlive i (hperm.symm.subset (by simp [hi]))) (hnext.mp e)
  have hsmall : (heapRemoveMin (heapRemoveMin t)).hs < 511 := by simp; omega
  refine ⟨_, _, _, rfl, rfl, hperm, ?_, ?_, mergeStep_nn t, ?_, ?_, ?_⟩
  · exact hmin₁ _ (hperm.symm.subset (by simp))
  · exact fun i hi => hmin₂ i (hperm₂.subset (List.mem_cons_of_mem _ hi))
  · intro i hi
    obtain rfl := hnext.mpr hi
    rw [mergeStep_eq]
    obtain ⟨-, -, -, -, hentries⟩ := insertNew_spec _ (joined t (heapMin t) (heapMin (heapRemoveMin t))) hsmall
    refine ⟨nodeAt_insertNew_next _ _, hentries, ?_⟩
    simp only [insertNew, allocNode, heapRemoveMin_node, heapRemoveMin_nn]
  · intro i hi
    rw [mergeStep_eq, nodeAt_insertNew_other _ _ (mt hnext.mp hi)]
    simp
  · rw [mergeStep_eq]
    exact heapInsert_heapOrdered _ (allocNode_heapOrdered hord₂ hnew) hsmall

end Sys2Proof.Machine
end

section
/-! SUPPORT. The counted symbols as the statements list them, the leaves they become, and BuildTree case by case
(42_tree_build.md R84, R85). -/

namespace Sys2Proof.Machine

open Sys2Proof.Claims

section CountedSymbols

variable (h : Vector Word 256)

theorem countedSyms_eq_map (ks : List Nat) (hk : ∀ k ∈ ks, k < 256) :
    countedSyms h ks =
      ((ks.map (BitVec.ofNat 8)).filter fun b => countAt h b != 0).map fun b => (b, countAt h b) := by
  induction ks with
  | nil => rfl
  | cons k ks ih =>
    have hk' : k < 256 := hk k (by simp)
    have hget : h[k]?.getD 0 = countAt h (BitVec.ofNat 8 k) := by simp [countAt, hk', Nat.mod_eq_of_lt hk']
    simp only [countedSyms, hget, ih fun m hm => hk m (by simp [hm]), List.map_cons, List.filter_cons]
    split <;> simp_all

/-- The counted symbols with their counts are the counted symbols of the statements, each with its count. -/
theorem symbolsOf_eq_map : symbolsOf h = (countedList h).map fun b => (b, countAt h b) :=
  countedSyms_eq_map h _ (by simp)

theorem symbolsOf_length : (symbolsOf h).length = countedSymbols h := by
  rw [symbolsOf_eq_map, List.length_map, countedList, allBytes, ← List.countP_eq_length_filter, List.countP_map]
  rfl

variable {h}

theorem symbolsOf_eq_nil (hnone : ∀ b, countAt h b = 0) : symbolsOf h = [] :=
  List.eq_nil_iff_forall_not_mem.mpr fun ⟨b, w⟩ hmem =>
    have ⟨hw, hne⟩ := (mem_symbolsOf h b w).mp hmem
    hne (hw.symm.trans (hnone b))

theorem symbolsOf_eq_singleton {b : Byte} (hb : countAt h b ≠ 0) (hother : ∀ a, a ≠ b → countAt h a = 0) :
    symbolsOf h = [(b, countAt h b)] := by
  refine List.perm_singleton.mp ((List.perm_ext_iff_of_nodup (symbolsOf_nodup h).of_map (List.nodup_singleton _)).mpr ?_)
  rintro ⟨a, w⟩
  rw [mem_symbolsOf, List.mem_singleton, Prod.mk.injEq]
  constructor
  · rintro ⟨rfl, hne⟩
    obtain rfl : a = b := by_contra fun hab => hne (hother a hab)
    exact ⟨rfl, rfl⟩
  · rintro ⟨rfl, rfl⟩
    exact ⟨rfl, hb⟩

end CountedSymbols

section Growth

variable {t u v : TreeMem}

/-- A build goes on from `t` to `u`: NN does not fall, and the nodes in use stay. -/
structure Grows (t u : TreeMem) : Prop where
  nn : t.nn ≤ u.nn
  keeps : ∀ i : NodeIdx, i.val < t.nn → nodeAt u i = nodeAt t i

theorem Grows.refl (t : TreeMem) : Grows t t := ⟨le_rfl, fun _ _ => rfl⟩

theorem Grows.trans (h : Grows t u) (k : Grows u v) : Grows t v :=
  ⟨h.nn.trans k.nn, fun i hi => (k.keeps i (hi.trans_le h.nn)).trans (h.keeps i hi)⟩

theorem allocNode_grows (n : Node) (h : t.nn < 511) : Grows t (allocNode n t) :=
  ⟨Nat.le_succ _, fun _ hi => nodeAt_allocNode_other t n (mt (eq_nextIdx_iff h).mp (Nat.ne_of_lt hi))⟩

theorem insertNew_grows (n : Node) (h : t.nn < 511) : Grows t (insertNew n t) :=
  ⟨by simp, fun i hi => (nodeAt_congr (insertNew_node t n)).trans ((allocNode_grows n h).keeps i hi)⟩

theorem heapRemoveMin_grows (t : TreeMem) : Grows t (heapRemoveMin t) := ⟨by simp, by simp⟩

theorem mergeStep_grows (h : t.nn < 511) : Grows t (mergeStep t) :=
  ((heapRemoveMin_grows t).trans (heapRemoveMin_grows _)).trans (insertNew_grows _ (by simpa using h))

/-- NN + HS does not change in a merge, so the arena has room for all of them (42_tree_build.md R92). -/
theorem mergeAll_grows (fuel : Nat) (h : t.nn + t.hs ≤ 512) : Grows t (mergeAll fuel t) := by
  induction fuel generalizing t with
  | zero => exact .refl t
  | succ fuel ih =>
    unfold mergeAll
    split
    · exact (mergeStep_grows (by omega)).trans (ih (by simp; omega))
    · exact .refl t

end Growth

section Leaves

variable {syms : List (Byte × Word)} {t : TreeMem}

/-- One leaf for each symbol of a list, inserted in its order (42_tree_build.md R84). -/
def insertSyms (syms : List (Byte × Word)) (t : TreeMem) : TreeMem :=
  syms.foldl (fun u x => insertNew (.leaf x.1 x.2) u) t

theorem insertLeaves_eq_insertSyms (h : Vector Word 256) (ks : List Nat) (t : TreeMem) :
    insertLeaves h ks t = insertSyms (countedSyms h ks) t := by
  induction ks generalizing t with
  | nil => rfl
  | cons k ks ih =>
    simp only [insertLeaves, countedSyms]
    split <;> exact ih _

theorem insertSyms_nn (syms : List (Byte × Word)) (t : TreeMem) : (insertSyms syms t).nn = t.nn + syms.length := by
  induction syms generalizing t with
  | nil => rfl
  | cons x xs ih =>
    refine (ih _).trans ?_
    simp only [insertNew_nn, List.length_cons]
    omega

theorem insertSyms_hs (syms : List (Byte × Word)) (t : TreeMem) : (insertSyms syms t).hs = t.hs + syms.length := by
  induction syms generalizing t with
  | nil => rfl
  | cons x xs ih =>
    refine (ih _).trans ?_
    simp only [insertNew_hs, List.length_cons]
    omega

theorem insertSyms_grows (h : t.nn + syms.length ≤ 511) : Grows t (insertSyms syms t) := by
  induction syms generalizing t with
  | nil => exact .refl t
  | cons x xs ih =>
    rw [List.length_cons] at h
    exact (insertNew_grows (.leaf x.1 x.2) (by omega)).trans (ih (by rw [insertNew_nn]; omega))

/-- The leaves take the slots from NN on, in the order of the list (42_tree_build.md R84). -/
theorem nodeAt_insertSyms {i : NodeIdx} {j : Nat} {x : Byte × Word} (h : t.nn + syms.length ≤ 511)
    (hj : syms[j]? = some x) (hi : i.val = t.nn + j) : nodeAt (insertSyms syms t) i = .leaf x.1 x.2 := by
  induction syms generalizing t j with
  | nil => simp at hj
  | cons y ys ih =>
    rw [List.length_cons] at h
    have hroom : (insertNew (.leaf y.1 y.2) t).nn + ys.length ≤ 511 := by rw [insertNew_nn]; omega
    cases j with
    | zero =>
      obtain rfl : y = x := by simpa using hj
      obtain rfl : i = nextIdx t := (eq_nextIdx_iff (by omega)).mpr hi
      exact ((insertSyms_grows hroom).keeps _ (by rw [insertNew_nn]; omega)).trans (nodeAt_insertNew_next ..)
    | succ j => exact ih hroom (by simpa using hj) (by rw [insertNew_nn]; omega)

end Leaves

section BuildCases

variable (h : Vector Word 256) (t : TreeMem)

theorem leafHeap_eq_insertSyms : leafHeap h t = insertSyms (symbolsOf h) { t with nn := 0, hs := 0 } := by
  rw [leafHeap, insertSyms, symbolsOf_eq_map, List.foldl_map]

theorem insertLeaves_eq_leafHeap : insertLeaves h (List.range 256) { t with nn := 0, hs := 0 } = leafHeap h t :=
  (insertLeaves_eq_insertSyms ..).trans (leafHeap_eq_insertSyms h t).symm

theorem leafHeap_nn : (leafHeap h t).nn = countedSymbols h := by
  rw [leafHeap_eq_insertSyms, insertSyms_nn, symbolsOf_length, Nat.zero_add]

theorem leafHeap_hs : (leafHeap h t).hs = countedSymbols h := by
  rw [leafHeap_eq_insertSyms, insertSyms_hs, symbolsOf_length, Nat.zero_add]

theorem countedSymbols_le : countedSymbols h ≤ 256 := symbolsOf_length h ▸ symbolsOf_length_le h

variable {h}

/-- BuildTree with no counted symbol (42_tree_build.md R85). -/
theorem buildTree_eq_of_zero (hn : countedSymbols h = 0) : buildTree h t = { leafHeap h t with root := none } := by
  simp only [buildTree, insertLeaves_eq_leafHeap, leafHeap_hs, hn, if_true]

/-- BuildTree with one counted symbol (42_tree_build.md R85). -/
theorem buildTree_eq_of_one (hn : countedSymbols h = 1) : buildTree h t = wrapSingle (leafHeap h t) := by
  simp only [buildTree, insertLeaves_eq_leafHeap, leafHeap_hs, hn, one_ne_zero, if_false, if_true]

/-- BuildTree with two counted symbols or more (42_tree_build.md R84). -/
theorem buildTree_eq_of_two_le (hn : 2 ≤ countedSymbols h) :
    buildTree h t =
      { heapRemoveMin (mergeAll (countedSymbols h) (leafHeap h t)) with
        root := some (heapMin (mergeAll (countedSymbols h) (leafHeap h t))) } := by
  have h0 : countedSymbols h ≠ 0 := by omega
  have h1 : countedSymbols h ≠ 1 := by omega
  simp only [buildTree, insertLeaves_eq_leafHeap, leafHeap_hs, h0, h1, if_false]

/-- The leaves stay where they are while the tree is built over them. -/
theorem buildTree_grows_leafHeap (h : Vector Word 256) (t : TreeMem) : Grows (leafHeap h t) (buildTree h t) := by
  have hle := countedSymbols_le h
  obtain h0 | h1 | h2 : countedSymbols h = 0 ∨ countedSymbols h = 1 ∨ 2 ≤ countedSymbols h := by omega
  · rw [buildTree_eq_of_zero t h0]
    exact ⟨le_rfl, fun _ _ => rfl⟩
  · rw [buildTree_eq_of_one t h1]
    have hgrow := (heapRemoveMin_grows (leafHeap h t)).trans (allocNode_grows
      (.internal (nodeWeight (nodeAt (leafHeap h t) (heapMin (leafHeap h t)))) (some (heapMin (leafHeap h t))) none)
      (by rw [heapRemoveMin_nn, leafHeap_nn]; omega))
    exact ⟨hgrow.nn, hgrow.keeps⟩
  · rw [buildTree_eq_of_two_le t h2]
    have hgrow := (mergeAll_grows (t := leafHeap h t) (countedSymbols h) (by rw [leafHeap_nn, leafHeap_hs]; omega)).trans
      (heapRemoveMin_grows _)
    exact ⟨hgrow.nn, hgrow.keeps⟩

/-- The counted symbols in ascending byte order are the leaves NODE[0] to NODE[n-1] (42_tree_build.md R84). -/
theorem nodeAt_leafHeap (t : TreeMem) {i : NodeIdx} {b : Byte} (hb : (countedList h)[i.val]? = some b) :
    nodeAt (leafHeap h t) i = .leaf b (countAt h b) := by
  rw [leafHeap_eq_insertSyms]
  refine nodeAt_insertSyms (j := i.val) (x := (b, countAt h b)) ?_ ?_ (Nat.zero_add _).symm
  · exact (Nat.zero_add _).trans_le ((symbolsOf_length_le h).trans (by decide))
  · rw [symbolsOf_eq_map, List.getElem?_map, hb]
    rfl

end BuildCases

section CodeTables

variable {h : Vector Word 256} {t : TreeMem}

/-- With no counted symbol the code table is all 0 (42_tree_build.md R88). -/
theorem genCodes_empty (hsyms : symbolsOf h = []) : genCodes (buildTree h t) = CodeTable.reset := by
  obtain ⟨hroot, -, -⟩ := buildTree_empty h t hsyms
  rw [genCodes, hroot]
  rfl

/-- With one counted symbol its code is the walk of its leaf, entered with one bit, 0 (42_tree_build.md R85, R88). -/
theorem genCodes_single {b : Byte} {w : Word} (hsyms : symbolsOf h = [(b, w)]) :
    genCodes (buildTree h t) = (HTree.leaf b w).assign 1 0 CodeTable.reset := by
  obtain ⟨hroot, -, -, hleaf, hnode⟩ := buildTree_single h t hsyms
  rw [genCodes, hroot]
  simp [walkCodes, Config.arenaCap, hleaf, hnode, HTree.assign]

/-- Under a root that represents a tree of the counted symbols, the code table is the walk of that tree
(42_tree_build.md R88, R92). -/
theorem genCodes_of_reps {r : NodeIdx} {T : HTree} (hroot : t.root = some r) (hT : Reps t.node t.nn r T)
    (hleaves : T.leaves.Perm (symbolsOf h)) : genCodes t = T.assign 0 0 CodeTable.reset := by
  have hdepth := T.depth_lt_leaves
  have hlen := hleaves.length_eq
  have hle := symbolsOf_length_le h
  rw [genCodes, hroot]
  exact walkCodes_reps hT _ 0 0 _ (by unfold Config.arenaCap; omega)

end CodeTables

/-- Settles O35: each case of BuildTree, and the leaves at their places under whatever is built over them. -/
theorem buildTreeEdgeCases : Obligations.BuildTreeEdgeCases := by
  intro h t
  refine ⟨fun hnone => ?_, fun b hb hother => ?_, fun hn => ?_, fun i b hb => ?_, leafHeap_nn h t, leafHeap_hs h t⟩
  · obtain ⟨hroot, hnn, -⟩ := buildTree_empty h t (symbolsOf_eq_nil hnone)
    exact ⟨hroot, hnn⟩
  · have hsyms := symbolsOf_eq_singleton hb hother
    obtain ⟨hroot, hnn, -, hleaf, hnode⟩ := buildTree_single h t hsyms
    refine ⟨hnn, hroot, hleaf, hnode, ?_⟩
    rw [genCodes_single hsyms, HTree.assign, codeOf, codeLenAt_setCode_same, codePatAt_setCode_same]
    rfl
  · obtain ⟨hnn, -, hfull, -⟩ := buildTree_many h t (by rwa [symbolsOf_length])
    exact ⟨by rw [hnn, symbolsOf_length], hfull, buildTree_eq_of_two_le t hn⟩
  · have hleaf := nodeAt_leafHeap t hb
    have hi : i.val < (leafHeap h t).nn := by
      rw [leafHeap_nn, ← symbolsOf_length, symbolsOf_eq_map, List.length_map]
      exact (List.getElem?_eq_some_iff.mp hb).1
    exact ⟨hleaf, ((buildTree_grows_leafHeap h t).keeps i hi).trans hleaf⟩

end Sys2Proof.Machine
end

section
/-! SUPPORT. A build depends on what is in use of the tree memories only, and it begins with nothing in use
(42_tree_build.md R91 item 3). -/

namespace Sys2Proof.Machine

open Sys2Proof.Claims

section InUse

variable {t u : TreeMem}

/-- Two tree memories agree in what is in use: NN and HS, the nodes below NN and the heap slots below HS, each of which
names a node in use. -/
structure SameInUse (t u : TreeMem) : Prop where
  nn : t.nn = u.nn
  hs : t.hs = u.hs
  node : ∀ i : NodeIdx, i.val < t.nn → nodeAt t i = nodeAt u i
  heap : ∀ k, k < t.hs → heapAt t k = heapAt u k
  live : ∀ k, k < t.hs → (heapAt t k).val < t.nn

/-- Where nothing is in use, any two agree. -/
theorem sameInUse_empty (t u : TreeMem) : SameInUse { t with nn := 0, hs := 0 } { u with nn := 0, hs := 0 } :=
  ⟨rfl, rfl, by simp, by simp, by simp⟩

/-- ROOT is no part of it. -/
theorem SameInUse.withRoot (h : SameInUse t u) (r q : NodeRef) :
    SameInUse { t with root := r } { u with root := q } :=
  ⟨h.nn, h.hs, h.node, h.heap, h.live⟩

theorem SameInUse.heapMin (h : SameInUse t u) (h0 : 0 < t.hs) : heapMin t = heapMin u := h.heap 0 h0

theorem SameInUse.heapMin_lt (h : SameInUse t u) (h0 : 0 < t.hs) : (Machine.heapMin t).val < t.nn := h.live 0 h0

theorem SameInUse.slotWeight (h : SameInUse t u) {k : Nat} (hk : k < t.hs) : slotWeight t k = slotWeight u k := by
  unfold Machine.slotWeight
  rw [← h.heap k hk, h.node _ (h.live k hk)]

theorem heapAt_setHeap (t : TreeMem) (i k : Nat) (x : NodeIdx) :
    heapAt (setHeap i x t) k = if k = i ∧ i < 511 then x else heapAt t k := by
  split
  next hc =>
    obtain ⟨rfl, hk⟩ := hc
    exact heapAt_setHeap_same t k x hk
  next hc =>
    by_cases hk : k = i
    · subst hk
      simp [heapAt, show ¬k < 511 from fun hlt => hc ⟨rfl, hlt⟩]
    · exact heapAt_setHeap_other t i k x hk

theorem SameInUse.setHeap (h : SameInUse t u) (i : Nat) {x : NodeIdx} (hx : x.val < t.nn) :
    SameInUse (setHeap i x t) (setHeap i x u) := by
  refine ⟨h.nn, h.hs, h.node, fun k hk => ?_, fun k hk => ?_⟩
  · rw [heapAt_setHeap, heapAt_setHeap, h.heap k hk]
  · rw [heapAt_setHeap]
    split
    · exact hx
    · exact h.live k hk

theorem SameInUse.swapHeap (h : SameInUse t u) {i j : Nat} (hi : i < t.hs) (hj : j < t.hs) :
    SameInUse (swapHeap i j t) (swapHeap i j u) := by
  unfold Machine.swapHeap
  rw [← h.heap i hi, ← h.heap j hj]
  exact (h.setHeap i (h.live j hj)).setHeap j (h.live i hi)

theorem SameInUse.siftUp (h : SameInUse t u) (fuel : Nat) {i : Nat} (hi : i < t.hs) :
    SameInUse (siftUp fuel i t) (siftUp fuel i u) := by
  induction fuel generalizing i t u with
  | zero => exact h
  | succ fuel ih =>
    unfold Machine.siftUp
    rw [← h.slotWeight hi, ← h.slotWeight (k := (i - 1) / 2) (by omega)]
    split
    · exact ih (h.swapHeap (by omega) hi) (by rw [swapHeap_hs]; omega)
    · exact h

theorem SameInUse.smallerChild (h : SameInUse t u) {i : Nat} (hi : 2 * i + 1 < t.hs) :
    smallerChild t i = smallerChild u i := by
  unfold Machine.smallerChild
  rw [← h.hs, ← h.slotWeight hi]
  by_cases hr : 2 * i + 2 < t.hs
  · rw [← h.slotWeight hr]
  · rw [if_neg fun hc => hr hc.1, if_neg fun hc => hr hc.1]

theorem SameInUse.siftDown (h : SameInUse t u) (fuel : Nat) {i : Nat} (hi : i < t.hs) :
    SameInUse (siftDown fuel i t) (siftDown fuel i u) := by
  induction fuel generalizing i t u with
  | zero => exact h
  | succ fuel ih =>
    unfold Machine.siftDown
    rw [← h.hs]
    split
    · exact h
    next hchild =>
      have hlt : 2 * i + 1 < t.hs := Nat.lt_of_not_le hchild
      have hc := smallerChild_lt hlt
      rw [← h.smallerChild hlt, ← h.slotWeight hc, ← h.slotWeight hi]
      split
      · exact ih (h.swapHeap hc hi) hc
      · exact h

/-- HeapInsert of a node in use (42_tree_build.md R86). -/
theorem SameInUse.heapInsert (h : SameInUse t u) {x : NodeIdx} (hx : x.val < t.nn) :
    SameInUse (heapInsert x t) (heapInsert x u) := by
  have happend : SameInUse { Machine.setHeap t.hs x t with hs := t.hs + 1 }
      { Machine.setHeap t.hs x u with hs := t.hs + 1 } := by
    refine ⟨h.nn, rfl, h.node, fun k hk => ?_, fun k hk => ?_⟩
    all_goals obtain hlt | hge : k < t.hs ∨ k = t.hs := Nat.lt_succ_iff_lt_or_eq.mp hk
    · exact (h.setHeap t.hs hx).heap k hlt
    · refine (heapAt_setHeap t t.hs k x).trans (Eq.trans ?_ (heapAt_setHeap u t.hs k x).symm)
      split_ifs with hc
      · rfl
      · simp [heapAt, show ¬k < 511 by omega]
    · exact (h.setHeap t.hs hx).live k hlt
    · refine (congrArg Fin.val (heapAt_setHeap t t.hs k x)).trans_lt ?_
      split_ifs with hc
      · exact hx
      · simpa [heapAt, show ¬k < 511 by omega] using Nat.zero_lt_of_lt hx
  unfold Machine.heapInsert
  rw [← h.hs]
  exact happend.siftUp t.hs (Nat.lt_succ_self t.hs)

/-- HeapExtractMin (42_tree_build.md R87). -/
theorem SameInUse.heapRemoveMin (h : SameInUse t u) : SameInUse (heapRemoveMin t) (heapRemoveMin u) := by
  have hless : SameInUse { t with hs := t.hs - 1 } { u with hs := t.hs - 1 } :=
    ⟨h.nn, rfl, h.node, fun k hk => h.heap k (by simp only at hk; omega), fun k hk => h.live k (by simp only at hk; omega)⟩
  unfold Machine.heapRemoveMin
  dsimp only
  rw [← h.hs]
  split
  next hpos =>
    rw [← h.heap (t.hs - 1) (by omega)]
    exact (hless.setHeap 0 (h.live _ (by omega))).siftDown _ hpos
  next => exact hless

theorem SameInUse.nextIdx (h : SameInUse t u) : nextIdx t = nextIdx u := congrArg (Fin.ofNat 511) h.nn

theorem SameInUse.allocNode (h : SameInUse t u) (n : Node) : SameInUse (allocNode n t) (allocNode n u) := by
  refine ⟨congrArg (· + 1) h.nn, h.hs, fun i hi => ?_, h.heap, fun k hk => Nat.lt_succ_of_lt (h.live k hk)⟩
  by_cases hnext : i = Machine.nextIdx t
  · rw [hnext, nodeAt_allocNode_next, h.nextIdx, nodeAt_allocNode_next]
  · rw [nodeAt_allocNode_other _ _ hnext, nodeAt_allocNode_other _ _ (h.nextIdx ▸ hnext)]
    refine h.node i ?_
    rw [allocNode_nn] at hi
    by_cases hroom : t.nn < 511
    · have := mt (eq_nextIdx_iff hroom).mpr hnext
      omega
    · omega

theorem SameInUse.insertNew (h : SameInUse t u) (n : Node) : SameInUse (insertNew n t) (insertNew n u) := by
  unfold Machine.insertNew
  rw [← h.nextIdx]
  exact (h.allocNode n).heapInsert (Nat.lt_succ_of_le (Nat.mod_le _ _))

theorem SameInUse.insertSyms (h : SameInUse t u) (syms : List (Byte × Word)) :
    SameInUse (insertSyms syms t) (insertSyms syms u) := by
  induction syms generalizing t u with
  | nil => exact h
  | cons x xs ih => exact ih (h.insertNew _)

theorem SameInUse.joined (h : SameInUse t u) {a b : NodeIdx} (ha : a.val < t.nn) (hb : b.val < t.nn) :
    joined t a b = joined u a b := by
  unfold Claims.joined
  rw [h.node a ha, h.node b hb]

/-- One merge (42_tree_build.md R84). -/
theorem SameInUse.mergeStep (h : SameInUse t u) (h2 : 1 < t.hs) : SameInUse (mergeStep t) (mergeStep u) := by
  have hrest : 0 < (Machine.heapRemoveMin t).hs := by rw [heapRemoveMin_hs]; omega
  rw [mergeStep_eq, mergeStep_eq, ← h.heapMin (by omega), ← h.heapRemoveMin.heapMin hrest,
    ← h.joined (h.heapMin_lt (by omega)) (by simpa using h.heapRemoveMin.heapMin_lt hrest)]
  exact h.heapRemoveMin.heapRemoveMin.insertNew _

theorem SameInUse.mergeAll (h : SameInUse t u) (fuel : Nat) : SameInUse (mergeAll fuel t) (mergeAll fuel u) := by
  induction fuel generalizing t u with
  | zero => exact h
  | succ fuel ih =>
    unfold Machine.mergeAll
    rw [← h.hs]
    split
    next h2 => exact ih (h.mergeStep h2)
    next => exact h

/-- The merges leave one entry (42_tree_build.md R84). -/
theorem mergeAll_hs {fuel : Nat} (h0 : 0 < t.hs) (hfuel : t.hs ≤ fuel + 1) : (mergeAll fuel t).hs = 1 := by
  induction fuel generalizing t with
  | zero => exact Nat.le_antisymm hfuel h0
  | succ fuel ih =>
    unfold mergeAll
    split
    next h2 => exact ih (by simp) (by simp; omega)
    next h2 => omega

/-- The single leaf under the synthetic node (42_tree_build.md R85). -/
theorem SameInUse.wrapSingle (h : SameInUse t u) (h0 : 0 < t.hs) :
    SameInUse (wrapSingle t) (wrapSingle u) ∧ (wrapSingle t).root = (wrapSingle u).root := by
  unfold Machine.wrapSingle
  dsimp only
  rw [← h.heapMin h0, ← h.node _ (h.heapMin_lt h0), h.heapRemoveMin.nextIdx]
  exact ⟨(h.heapRemoveMin.allocNode _).withRoot _ _, rfl⟩

end InUse

section Determinism

variable (h : Vector Word 256) (t u : TreeMem)

/-- Nothing is in use where the leaves begin (42_tree_build.md R84). -/
theorem leafHeap_sameInUse : SameInUse (leafHeap h t) (leafHeap h u) := by
  rw [leafHeap_eq_insertSyms, leafHeap_eq_insertSyms]
  exact (sameInUse_empty t u).insertSyms _

/-- BuildTree leaves the same in use, and the same ROOT (42_tree_build.md R91 item 3). -/
theorem buildTree_sameInUse :
    SameInUse (buildTree h t) (buildTree h u) ∧ (buildTree h t).root = (buildTree h u).root := by
  have hleaf := leafHeap_sameInUse h t u
  have hhs := leafHeap_hs h t
  obtain h0 | h1 | h2 : countedSymbols h = 0 ∨ countedSymbols h = 1 ∨ 2 ≤ countedSymbols h := by omega
  · rw [buildTree_eq_of_zero t h0, buildTree_eq_of_zero u h0]
    exact ⟨hleaf.withRoot _ _, rfl⟩
  · rw [buildTree_eq_of_one t h1, buildTree_eq_of_one u h1]
    exact hleaf.wrapSingle (by omega)
  · have hmerged := hleaf.mergeAll (countedSymbols h)
    have hone : (mergeAll (countedSymbols h) (leafHeap h t)).hs = 1 := mergeAll_hs (by omega) (by omega)
    rw [buildTree_eq_of_two_le t h2, buildTree_eq_of_two_le u h2, ← hmerged.heapMin (by omega)]
    exact ⟨hmerged.heapRemoveMin.withRoot _ _, rfl⟩

/-- GenCodes reads the tree under ROOT, which is the same (42_tree_build.md R91 item 3). -/
theorem genCodes_buildTree_eq : genCodes (buildTree h t) = genCodes (buildTree h u) := by
  obtain ⟨hsame, hroots⟩ := buildTree_sameInUse h t u
  rcases hsyms : symbolsOf h with _ | ⟨⟨b, w⟩, _ | ⟨x, rest⟩⟩
  · rw [genCodes_empty hsyms, genCodes_empty hsyms]
  · rw [genCodes_single hsyms, genCodes_single hsyms]
  · obtain ⟨-, -, -, r, T, hroot, hT, hleaves⟩ := buildTree_many h t (by simp [hsyms])
    have hT' : Reps (buildTree h u).node (buildTree h u).nn r T :=
      hT.mono hsame.nn.le fun k hk => (hsame.node k hk).symm
    rw [genCodes_of_reps hroot hT hleaves, genCodes_of_reps (hroots ▸ hroot) hT' hleaves]

end Determinism

/-- Settles O36: every operation of the build keeps two tree memories the same in what is in use. -/
theorem buildDependsOnTheHistogramAlone : Obligations.BuildDependsOnTheHistogramAlone := by
  intro h t u
  obtain ⟨hsame, hroot⟩ := buildTree_sameInUse h t u
  exact ⟨hsame.nn, hroot, hsame.node, genCodes_buildTree_eq h t u⟩

end Sys2Proof.Machine
end

section
/-! SUPPORT. The code table as the walk of a tree of the counted symbols: its patterns, its lengths, and the statements
about codes (42_tree_build.md R88, R91). -/

namespace Sys2Proof.Machine

open Sys2Proof.Claims

section Patterns

variable {c : CodeTable} {len : Nat} {pat : Pattern}

/-- Every bit of CODE_PAT at or above CODE_LEN is 0 (10_state.md R35). -/
def PatternsFit (c : CodeTable) : Prop := ∀ b, (codePatAt c b).toNat < 2 ^ (codeLenAt c b).toNat

theorem PatternsFit.getLsbD_eq_false (h : PatternsFit c) {b : Byte} {j : Nat} (hj : (codeLenAt c b).toNat ≤ j) :
    (codePatAt c b).getLsbD j = false :=
  Nat.testBit_lt_two_pow ((h b).trans_le (Nat.pow_le_pow_right (by decide) hj))

theorem patternsFit_reset : PatternsFit CodeTable.reset := fun b => by simp

theorem PatternsFit.setCode (h : PatternsFit c) {l : Byte} (hpat : pat.toNat < 2 ^ l.toNat) (b : Byte) :
    PatternsFit (setCode b l pat c) := by
  intro a
  by_cases hab : a = b
  · subst hab
    rwa [codeLenAt_setCode_same, codePatAt_setCode_same]
  · rw [codeLenAt_setCode_other _ _ _ _ _ hab, codePatAt_setCode_other _ _ _ _ _ hab]
    exact h a

/-- A pattern with one bit appended fits one bit more (42_tree_build.md R88). -/
theorem toNat_push_lt (hpat : pat.toNat < 2 ^ len) (x : Bool) :
    (2 * pat + BitVec.ofNat 256 x.toNat).toNat < 2 ^ (len + 1) := by
  have hx : x.toNat ≤ 1 := x.toNat_le
  have hle : (2 * pat + BitVec.ofNat 256 x.toNat).toNat ≤ 2 * pat.toNat + x.toNat := by
    rw [BitVec.toNat_add, BitVec.toNat_mul, BitVec.toNat_ofNat]
    exact (Nat.mod_le _ _).trans (Nat.add_le_add (Nat.mod_le _ _) (Nat.mod_le _ _))
  rw [pow_succ]
  omega

/-- A walk keeps the patterns within their lengths (42_tree_build.md R88). -/
theorem HTree.assign_patternsFit (T : HTree) (hlen : len + T.depth ≤ 255) (hpat : pat.toNat < 2 ^ len)
    (hc : PatternsFit c) : PatternsFit (T.assign len pat c) := by
  induction T generalizing len pat c with
  | leaf b w =>
    refine hc.setCode ?_ b
    rwa [BitVec.toNat_ofNat, Nat.mod_eq_of_lt (by omega)]
  | node w l r ihl ihr =>
    simp only [HTree.depth] at hlen
    refine ihr (by omega) (toNat_push_lt hpat true) (ihl (by omega) ?_ hc)
    simpa using toNat_push_lt hpat false

end Patterns

section Lengths

variable {T l r : HTree} {d D : Nat} {L : Byte → Nat} {b : Byte} {w : Word}

/-- The symbols of a tree have their depths, counted from `d`, as lengths. -/
def HTree.HasLengths (T : HTree) (d : Nat) (L : Byte → Nat) : Prop := ∀ b p, (b, p) ∈ T.paths → L b = d + p.length

theorem HTree.hasLengths_leaf : (HTree.leaf b w).HasLengths d L ↔ L b = d := by
  simp [HTree.HasLengths, HTree.paths]

theorem HTree.HasLengths.children (h : (HTree.node w l r).HasLengths d L) :
    l.HasLengths (d + 1) L ∧ r.HasLengths (d + 1) L := by
  have hside (x : Bool) {b : Byte} {p : List Bool} (hp : (b, x :: p) ∈ (HTree.node w l r).paths) :
      L b = d + 1 + p.length := by
    rw [h b _ hp, List.length_cons]
    omega
  exact ⟨fun b p hp => hside false (by simp [HTree.paths, hp]), fun b p hp => hside true (by simp [HTree.paths, hp])⟩

/-- A walk writes the depth of each symbol as its length (42_tree_build.md R88). -/
theorem HTree.assign_hasLengths (hn : (T.leaves.map Prod.fst).Nodup) (hd : d + T.depth ≤ 255) (pat : Pattern)
    (c : CodeTable) : T.HasLengths d fun b => (codeLenAt (T.assign d pat c) b).toNat := by
  intro b p hp
  have hle := T.path_length_le hp
  dsimp only
  rw [(assign_path T d pat c b p hn hp).1, BitVec.toNat_ofNat, Nat.mod_eq_of_lt (by omega)]

/-- The Kraft sum of a tree whose root lies at depth `d`, in units of 2^-D: each node passes half of its share to each
child (42_tree_build.md R91 item 4). -/
theorem HTree.HasLengths.kraft (h : T.HasLengths d L) (hD : d + T.depth ≤ D) :
    (T.leaves.map fun x => 2 ^ (D - L x.1)).sum = 2 ^ (D - d) := by
  induction T generalizing d with
  | leaf b w => simp [HTree.leaves, HTree.hasLengths_leaf.mp h]
  | node w l r ihl ihr =>
    obtain ⟨hl, hr⟩ := h.children
    simp only [HTree.depth] at hD
    rw [HTree.leaves, List.map_append, List.sum_append, ihl hl (by omega), ihr hr (by omega), ← two_mul,
      ← pow_succ', show D - (d + 1) + 1 = D - d by omega]

end Lengths

section BuiltCodes

variable (h : Vector Word 256) (t : TreeMem)

/-- Every pattern of a built table, a counted symbol's or not, is 0 above its length (42_tree_build.md R88). -/
theorem genCodes_patternsFit : PatternsFit (genCodes (buildTree h t)) := by
  rcases hsyms : symbolsOf h with _ | ⟨⟨b, w⟩, _ | ⟨x, rest⟩⟩
  · rw [genCodes_empty hsyms]
    exact patternsFit_reset
  · rw [genCodes_single hsyms]
    exact HTree.assign_patternsFit _ (by simp [HTree.depth]) (by decide) patternsFit_reset
  · obtain ⟨-, -, -, r, T, hroot, hT, hleaves⟩ := buildTree_many h t (by simp [hsyms])
    rw [genCodes_of_reps hroot hT hleaves]
    have hdepth := T.depth_lt_leaves
    have hlen := hleaves.length_eq
    have hle := symbolsOf_length_le h
    exact T.assign_patternsFit (by omega) (by decide) patternsFit_reset

/-- The lengths of a built table (10_state.md R35). -/
def builtLength (b : Byte) : Nat := (codeLenAt (genCodes (buildTree h t)) b).toNat

variable {h t}

/-- The single symbol has length 1 (42_tree_build.md R85). -/
theorem builtLength_single {b : Byte} {w : Word} (hsyms : symbolsOf h = [(b, w)]) :
    (HTree.leaf b w).HasLengths 1 (builtLength h t) := by
  unfold builtLength
  rw [genCodes_single hsyms]
  exact HTree.assign_hasLengths (by simp [HTree.leaves]) (by simp [HTree.depth]) _ _

/-- With two symbols or more the lengths are the depths in the tree (42_tree_build.md R88). -/
theorem builtLength_of_reps {r : NodeIdx} {T : HTree} (hroot : (buildTree h t).root = some r)
    (hT : Reps (buildTree h t).node (buildTree h t).nn r T) (hleaves : T.leaves.Perm (symbolsOf h)) :
    T.HasLengths 0 (builtLength h t) := by
  have hdepth := T.depth_lt_leaves
  have hlen := hleaves.length_eq
  have hle := symbolsOf_length_le h
  have hnodup := (hleaves.map Prod.fst).nodup_iff.mpr (symbolsOf_nodup h)
  unfold builtLength
  rw [genCodes_of_reps hroot hT hleaves]
  exact HTree.assign_hasLengths hnodup (by omega) _ _

/-- A sum over the counted bytes is a sum over the counted symbols. -/
theorem sum_counted_eq (h : Vector Word 256) (F : Byte × Word → Nat) :
    (allBytes.map fun b => if countAt h b = 0 then 0 else F (b, countAt h b)).sum = ((symbolsOf h).map F).sum := by
  rw [symbolsOf_eq_map, List.map_map, countedList, List.sum_map_ite]
  simp [Function.comp_def, bne, beq_eq_decide]

end BuiltCodes

/-- Settles O37: the path is the walk's, and each turn of the walk keeps the pattern within its length. -/
theorem codesAreTheTreePaths : Obligations.CodesAreTheTreePaths := fun h t b hb =>
  ⟨((genCodes_spec h t b).1 hb).1, fun _ => (genCodes_patternsFit h t).getLsbD_eq_false⟩

/-- Settles O38: a path to a leaf goes on to no other leaf. -/
theorem codesArePrefixFree : Obligations.CodesArePrefixFree := by
  rintro h t a b hab ha hb ⟨q, hq⟩
  have hpath_a := ((genCodes_spec h t a).1 ha).1
  have hpath_b := ((genCodes_spec h t b).1 hb).1
  rw [← hq] at hpath_b
  exact hab (hpath_a.prefix_unique hpath_b).2

/-- Settles O39: a counted symbol's code is not empty, and any other symbol has none. -/
theorem exactlyTheCountedSymbolsHaveCodes : Obligations.ExactlyTheCountedSymbolsHaveCodes := by
  intro h t b
  obtain ⟨hcounted, hother⟩ := genCodes_spec h t b
  constructor
  · intro hlen h0
    rw [hother h0] at hlen
    exact absurd hlen (by decide)
  · intro hne
    have hlen := (hcounted hne).2
    bv_omega

/-- Settles O40: the Kraft sum of the tree of the counted symbols, whose root lies at depth 0 or, for the single leaf
under the synthetic node, at depth 1. -/
theorem kraftSumOfTheCodes : Obligations.KraftSumOfTheCodes := by
  intro h t
  have hsum := sum_counted_eq h fun x => 2 ^ (255 - builtLength h t x.1)
  refine ⟨fun hn => hsum.trans ?_, fun hn => hsum.trans ?_⟩
  · obtain ⟨-, -, -, r, T, hroot, hT, hleaves⟩ := buildTree_many h t (by rwa [symbolsOf_length])
    have hdepth := T.depth_lt_leaves
    have hlen := hleaves.length_eq
    have hle := symbolsOf_length_le h
    rw [← (hleaves.map _).sum_eq]
    exact (builtLength_of_reps hroot hT hleaves).kraft (by omega)
  · obtain ⟨⟨b, w⟩, hsyms⟩ := List.length_eq_one_iff.mp ((symbolsOf_length h).trans hn)
    rw [hsyms]
    exact (builtLength_single hsyms).kraft (by simp [HTree.depth])

end Sys2Proof.Machine
end

section
/-! SUPPORT. The weights of the internal nodes (42_tree_build.md R91 item 5): a ledger in which each node that is
allocated is paid for by the tree it becomes the root of. -/

namespace Sys2Proof.Machine

open Sys2Proof.Claims

section TreeCost

variable {T : HTree} {d : Nat} {L : Byte → Nat}

/-- The counts of the leaves of a tree, added up. -/
def HTree.weight : HTree → Nat
  | .leaf _ w => w.toNat
  | .node _ l r => l.weight + r.weight

/-- The weights the internal nodes of a tree have by its leaves, added up. -/
def HTree.cost : HTree → Nat
  | .leaf _ _ => 0
  | .node _ l r => l.cost + r.cost + (l.weight + r.weight)

/-- Counts times lengths add up to the cost of the tree, and once more its weight for each step its root lies below ROOT
(42_tree_build.md R91 item 5). -/
theorem HTree.HasLengths.sum_mul (h : T.HasLengths d L) :
    (T.leaves.map fun x => x.2.toNat * L x.1).sum = T.cost + d * T.weight := by
  induction T generalizing d with
  | leaf b w => simp [HTree.leaves, HTree.hasLengths_leaf.mp h, HTree.cost, HTree.weight, Nat.mul_comm]
  | node w l r ihl ihr =>
    obtain ⟨hl, hr⟩ := h.children
    rw [HTree.leaves, List.map_append, List.sum_append, ihl hl, ihr hr, HTree.cost, HTree.weight]
    ring

/-- An arena slot represents one tree only. -/
theorem Reps.unique {node : Vector Node 511} {nn : Nat} {i : NodeIdx} {T T' : HTree} (h : Reps node nn i T)
    (h' : Reps node nn i T') : T = T' := by
  induction h generalizing T' with
  | leaf _ hn =>
    cases h' with
    | leaf _ hn' => cases hn.symm.trans hn'; rfl
    | node _ hn' => cases hn.symm.trans hn'
  | node _ hn _ _ ihl ihr =>
    cases h' with
    | leaf _ hn' => cases hn.symm.trans hn'
    | node _ hn' hl hr =>
      cases hn.symm.trans hn'
      rw [ihl hl, ihr hr]

end TreeCost

section InternalSum

variable {t u : TreeMem}

/-- The weights of the internal nodes in use, added up (42_tree_build.md R91 item 5). -/
def internalSum (t : TreeMem) : Nat :=
  (((List.finRange 511).filter fun i => decide (i.val < t.nn)).map fun i => internalWeight (nodeAt t i)).sum

theorem internalSum_eq_sum (t : TreeMem) :
    internalSum t = ∑ i : NodeIdx, if i.val < t.nn then internalWeight (nodeAt t i) else 0 := by
  rw [Fin.sum_univ_def, List.sum_map_ite]
  simp [internalSum]

theorem internalSum_congr (hnode : t.node = u.node) (hnn : t.nn = u.nn) : internalSum t = internalSum u := by
  simp only [internalSum, hnn, nodeAt_congr hnode]

theorem internalSum_of_nn_zero (h : t.nn = 0) : internalSum t = 0 := by simp [internalSum_eq_sum, h]

theorem internalSum_of_nn_two (h : t.nn = 2) :
    internalSum t = internalWeight (nodeAt t 0) + internalWeight (nodeAt t 1) := by
  rw [internalSum_eq_sum, h, Fin.sum_univ_succ, Fin.sum_univ_succ]
  simp

/-- A new node adds its own weight (42_tree_build.md R84). -/
theorem internalSum_insertNew (n : Node) (h : t.nn < 511) :
    internalSum (insertNew n t) = internalSum t + internalWeight n := by
  have hterm (i : NodeIdx) :
      (if i.val < (insertNew n t).nn then internalWeight (nodeAt (insertNew n t) i) else 0) =
        (if i.val < t.nn then internalWeight (nodeAt t i) else 0) + if i = nextIdx t then internalWeight n else 0 := by
    by_cases hi : i = nextIdx t
    · have hval := (eq_nextIdx_iff h).mp hi
      rw [if_pos (by rw [insertNew_nn]; omega), if_neg (by omega), if_pos hi, hi, nodeAt_insertNew_next, Nat.zero_add]
    · have hval := mt (eq_nextIdx_iff h).mpr hi
      have hiff : i.val < (insertNew n t).nn ↔ i.val < t.nn := by rw [insertNew_nn]; omega
      rw [nodeAt_insertNew_other t n hi, if_neg hi, Nat.add_zero]
      simp only [hiff]
  rw [internalSum_eq_sum, internalSum_eq_sum, Finset.sum_congr rfl fun i _ => hterm i, Finset.sum_add_distrib,
    Finset.sum_ite_eq' Finset.univ (nextIdx t), if_pos (Finset.mem_univ _)]

end InternalSum

section Ledger

variable {t : TreeMem} {f : NodeIdx → HTree} {W : Nat}

/-- A quantity of the live entries, added up. -/
def liveSum (t : TreeMem) (v : NodeIdx → Nat) : Nat := ((liveHeap t).map v).sum

/-- Each live entry represents its tree, and its node has the weight of the leaves of that tree. -/
structure Weighed (t : TreeMem) (f : NodeIdx → HTree) : Prop where
  reps : ∀ i ∈ liveHeap t, Reps t.node t.nn i (f i)
  weight : ∀ i ∈ liveHeap t, (nodeWeight (nodeAt t i)).toNat = (f i).weight

/-- The ledger of a build: the live entries weigh `W` together, and the internal nodes so far are paid for by the costs of
their trees. -/
def Ledger (t : TreeMem) (W : Nat) : Prop :=
  ∃ f, Weighed t f ∧ liveSum t (fun i => (f i).weight) = W ∧ internalSum t = liveSum t fun i => (f i).cost

/-- Entries that leave the heap take nothing from the others. -/
theorem Weighed.of_subset {u : TreeMem} (h : Weighed t f) (hnode : u.node = t.node) (hnn : u.nn = t.nn)
    (hsub : liveHeap u ⊆ liveHeap t) : Weighed u f :=
  ⟨fun i hi => by rw [hnode, hnn]; exact h.reps i (hsub hi), fun i hi => nodeAt_congr hnode ▸ h.weight i (hsub hi)⟩

/-- A new node of the weight of its tree `T`, inserted: one entry more in every sum. -/
theorem Weighed.insertNew {n : Node} {T : HTree} (h : Weighed t f) (hnn : t.nn < 511) (hs : t.hs < 511)
    (hT : Reps (allocNode n t).node (t.nn + 1) (nextIdx t) T) (hw : (nodeWeight n).toNat = T.weight) :
    ∃ g, Weighed (insertNew n t) g ∧
      ∀ v : HTree → Nat, liveSum (insertNew n t) (fun i => v (g i)) = v T + liveSum t fun i => v (f i) := by
  obtain ⟨-, -, -, -, hlive⟩ := insertNew_spec t n hs
  have hold : ∀ i ∈ liveHeap t, i ≠ nextIdx t := fun i hi e =>
    Nat.ne_of_lt (h.reps i hi).lt ((eq_nextIdx_iff hnn).mp e)
  refine ⟨Function.update f (nextIdx t) T, ⟨fun i hi => ?_, fun i hi => ?_⟩, fun v => ?_⟩
  · rw [insertNew_node, insertNew_nn]
    obtain rfl | hi := List.mem_cons.mp (hlive.subset hi)
    · simpa using hT
    · rw [Function.update_of_ne (hold i hi)]
      exact (h.reps i hi).mono (Nat.le_succ _) fun k hk => node_allocNode_below t n hnn k hk
  · obtain rfl | hi := List.mem_cons.mp (hlive.subset hi)
    · rwa [nodeAt_insertNew_next, Function.update_self]
    · rw [nodeAt_insertNew_other _ _ (hold i hi), Function.update_of_ne (hold i hi)]
      exact h.weight i hi
  · rw [liveSum, (hlive.map _).sum_eq, List.map_cons, List.sum_cons, Function.update_self, liveSum]
    congr 2
    exact List.map_congr_left fun i hi => by rw [Function.update_of_ne (hold i hi)]

theorem ledger_empty (t : TreeMem) : Ledger { t with nn := 0, hs := 0 } 0 :=
  ⟨fun _ => .leaf 0 0, ⟨by simp [liveHeap], by simp [liveHeap]⟩, rfl, internalSum_of_nn_zero rfl⟩

/-- A leaf brings its count and costs nothing (42_tree_build.md R84). -/
theorem Ledger.insertLeaf (h : Ledger t W) (b : Byte) (w : Word) (hnn : t.nn < 511) (hs : t.hs < 511) :
    Ledger (insertNew (.leaf b w) t) (w.toNat + W) := by
  obtain ⟨f, hf, hweight, hcost⟩ := h
  have hT : Reps (allocNode (.leaf b w) t).node (t.nn + 1) (nextIdx t) (.leaf b w) :=
    .leaf (by rw [nextIdx_val t hnn]; omega) (nodeAt_allocNode_next t _)
  obtain ⟨g, hg, hsum⟩ := hf.insertNew hnn hs hT rfl
  refine ⟨g, hg, by rw [hsum, hweight]; rfl, ?_⟩
  rw [internalSum_insertNew _ hnn, hsum, hcost]
  exact Nat.add_comm _ _

theorem Ledger.insertSyms {syms : List (Byte × Word)} (h : Ledger t W) (hnn : t.nn + syms.length ≤ 511)
    (hs : t.hs + syms.length ≤ 511) : Ledger (insertSyms syms t) ((syms.map fun x => x.2.toNat).sum + W) := by
  induction syms generalizing t W with
  | nil => rwa [List.map_nil, List.sum_nil, Nat.zero_add]
  | cons x xs ih =>
    rw [List.length_cons] at hnn hs
    rw [List.map_cons, List.sum_cons, Nat.add_comm x.2.toNat, Nat.add_assoc]
    exact ih (h.insertLeaf x.1 x.2 (by omega) (by omega)) (by rw [insertNew_nn]; omega) (by rw [insertNew_hs]; omega)

/-- The join of two entries has the summed weight of their trees while it does not wrap (42_tree_build.md R84). -/
theorem Weighed.nodeWeight_joined {a b : NodeIdx} (h : Weighed t f) (ha : a ∈ liveHeap t) (hb : b ∈ liveHeap t)
    (hfits : (f a).weight + (f b).weight < 2 ^ 32) :
    (nodeWeight (joined t a b)).toNat = (f a).weight + (f b).weight := by
  change (nodeWeight (nodeAt t a) + nodeWeight (nodeAt t b)).toNat = _
  rw [BitVec.toNat_add, h.weight a ha, h.weight b hb, Nat.mod_eq_of_lt hfits]

/-- The join of two represented trees, allocated, represents the tree of the two. -/
theorem Reps.joined {u : TreeMem} {a b : NodeIdx} {A B : HTree} (ha : Reps u.node u.nn a A) (hb : Reps u.node u.nn b B)
    (hnn : u.nn < 511) :
    Reps (allocNode (joined t a b) u).node (u.nn + 1) (nextIdx u) (.node (nodeWeight (joined t a b)) A B) := by
  have hkeep (k : NodeIdx) (hk : k.val < u.nn) := node_allocNode_below u (Claims.joined t a b) hnn k hk
  exact .node (by rw [nextIdx_val u hnn]; omega) (nodeAt_allocNode_next u _) (ha.mono (Nat.le_succ _) hkeep)
    (hb.mono (Nat.le_succ _) hkeep)

/-- A merge pays for its node with the two trees it joins, whose weights do not wrap while the whole weight fits
(42_tree_build.md R84). -/
theorem Ledger.mergeStep (h : Ledger t W) (hW : W < 2 ^ 32) (hnn : t.nn < 511) (h2 : 2 ≤ t.hs) (hs : t.hs ≤ 511) :
    Ledger (mergeStep t) W := by
  obtain ⟨f, hf, hweight, hcost⟩ := h
  have hperm := heapEntries_perm_merge h2 hs
  have hsum (v : NodeIdx → Nat) : liveSum t v =
      v (heapMin t) + (v (heapMin (heapRemoveMin t)) + liveSum (heapRemoveMin (heapRemoveMin t)) v) :=
    (hperm.map v).sum_eq
  rw [mergeStep_eq]
  set a := heapMin t
  set b := heapMin (heapRemoveMin t)
  set u := heapRemoveMin (heapRemoveMin t) with hu
  have hnode : u.node = t.node := by simp [hu]
  have hnn' : u.nn = t.nn := by simp [hu]
  have ha : a ∈ liveHeap t := hperm.symm.subset (by simp)
  have hb : b ∈ liveHeap t := hperm.symm.subset (by simp)
  have hrest : Weighed u f := hf.of_subset hnode hnn' fun i hi =>
    hperm.symm.subset (List.mem_cons_of_mem _ (List.mem_cons_of_mem _ hi))
  have hkeep {i : NodeIdx} (hi : i ∈ liveHeap t) : Reps u.node u.nn i (f i) := by
    rw [hnode, hnn']
    exact hf.reps i hi
  have hjoin := hf.nodeWeight_joined ha hb (by rw [hsum] at hweight; omega)
  obtain ⟨g, hg, hnew⟩ := hrest.insertNew (by omega) (by simp [hu]; omega)
    ((hkeep ha).joined (t := t) (hkeep hb) (by omega)) hjoin
  refine ⟨g, hg, ?_, ?_⟩
  · rw [hnew, ← hweight, hsum, HTree.weight, Nat.add_assoc]
  · have hinternal : internalWeight (joined t a b) = (f a).weight + (f b).weight := hjoin
    rw [internalSum_insertNew _ (by omega), hinternal, hnew, internalSum_congr hnode hnn', hcost, hsum, HTree.cost]
    ring

theorem Ledger.mergeAll (h : Ledger t W) (hW : W < 2 ^ 32) (fuel : Nat) (hsum : t.nn + t.hs ≤ 512) (hs : t.hs ≤ 511) :
    Ledger (mergeAll fuel t) W := by
  induction fuel generalizing t with
  | zero => exact h
  | succ fuel ih =>
    unfold Machine.mergeAll
    split
    next h2 => exact ih (h.mergeStep hW (by omega) h2 hs) (by simp; omega) (by simp; omega)
    next => exact h

/-- With one entry left, the internal nodes are paid for by the one tree. -/
theorem Ledger.internalSum_eq_cost {T : HTree} (h : Ledger t W) (hs : t.hs = 1)
    (hT : Reps t.node t.nn (heapMin t) T) : internalSum t = T.cost := by
  obtain ⟨f, hf, -, hcost⟩ := h
  have hlive : liveHeap t = [heapMin t] := by simp [liveHeap, hs, heapMin]
  rw [hcost, liveSum, hlive, hT.unique (hf.reps _ (by simp [hlive]))]
  simp

end Ledger

section StreamLength

variable {h : Vector Word 256} {t : TreeMem}

/-- A sum over all bytes of a quantity that is 0 for a count of 0 is a sum over the counted symbols. -/
theorem sum_allBytes_eq (h : Vector Word 256) {F : Byte × Word → Nat} (hF : ∀ b, F (b, 0) = 0) :
    (allBytes.map fun b => F (b, countAt h b)).sum = ((symbolsOf h).map F).sum := by
  rw [← sum_counted_eq]
  congr 2
  funext b
  split
  next h0 => rw [h0, hF]
  next => rfl

/-- With two symbols or more the internal nodes of the built tree weigh the cost of the tree it represents
(42_tree_build.md R91 item 5). -/
theorem internalSum_buildTree {r : NodeIdx} {T : HTree} (hn : 2 ≤ countedSymbols h)
    (hW : ((symbolsOf h).map fun x => x.2.toNat).sum < 2 ^ 32) (hroot : (buildTree h t).root = some r)
    (hT : Reps (buildTree h t).node (buildTree h t).nn r T) : internalSum (buildTree h t) = T.cost := by
  have hle := countedSymbols_le h
  have hlen := symbolsOf_length h
  have hnn := leafHeap_nn h t
  have hhs := leafHeap_hs h t
  have hleaves : Ledger (leafHeap h t) ((symbolsOf h).map fun x => x.2.toNat).sum := by
    rw [leafHeap_eq_insertSyms]
    exact (ledger_empty t).insertSyms (by simp only; omega) (by simp only; omega)
  have hmerged := hleaves.mergeAll hW (countedSymbols h) (by omega) (by omega)
  have hone : (mergeAll (countedSymbols h) (leafHeap h t)).hs = 1 := mergeAll_hs (by omega) (by omega)
  rw [buildTree_eq_of_two_le t hn] at hroot hT ⊢
  obtain rfl : heapMin (mergeAll (countedSymbols h) (leafHeap h t)) = r := Option.some.inj hroot
  exact (internalSum_congr (heapRemoveMin_node _) (heapRemoveMin_nn _)).trans
    (hmerged.internalSum_eq_cost hone (by simpa using hT))

end StreamLength

/-- Settles O41: both sums are the cost of the tree of the counted symbols; with the single symbol both are its count,
and with none both are 0. -/
theorem streamLengthIsTheInternalWeight : Obligations.StreamLengthIsTheInternalWeight := by
  intro h t htotal
  change (allBytes.map fun b => (countAt h b).toNat * builtLength h t b).sum = internalSum (buildTree h t)
  rw [sum_allBytes_eq h (F := fun x => x.2.toNat * builtLength h t x.1) (by simp)]
  rw [sum_allBytes_eq h (F := fun x => x.2.toNat) (by simp)] at htotal
  rcases hsyms : symbolsOf h with _ | ⟨⟨b, w⟩, _ | ⟨x, rest⟩⟩
  · obtain ⟨-, hnn, -⟩ := buildTree_empty h t hsyms
    exact (internalSum_of_nn_zero hnn).symm
  · obtain ⟨-, hnn, -, hleaf, hnode⟩ := buildTree_single h t hsyms
    rw [internalSum_of_nn_two hnn, hleaf, hnode]
    refine (builtLength_single (t := t) hsyms).sum_mul.trans ?_
    simp [HTree.cost, HTree.weight, internalWeight]
  · have hn : 2 ≤ (symbolsOf h).length := by simp [hsyms]
    obtain ⟨-, -, -, r, T, hroot, hT, hleaves⟩ := buildTree_many h t hn
    rw [internalSum_buildTree (symbolsOf_length h ▸ hn) (by omega) hroot hT, ← hsyms, ← (hleaves.map _).sum_eq,
      (builtLength_of_reps hroot hT hleaves).sum_mul, Nat.zero_mul, Nat.add_zero]

end Sys2Proof.Machine
end

section
/-! SUPPORT. The statements of BUILDE and BUILDD (42_tree_build.md R89, R90). -/

namespace Sys2Proof.Machine

open Sys2Proof.Claims

theorem buildForDecode_checked {s : State} (h : s.total = s.origLen) :
    buildForDecode s = .done { s with
      tree := buildTree s.hist s.tree, symcnt := 0, bitcnt := 0, cur := (buildTree s.hist s.tree).root,
      ctValid := false, phase := .decode } :=
  if_neg (not_not_intro h)

theorem buildForDecode_corrupt {s : State} (h : s.total ≠ s.origLen) : buildForDecode s = .raise .corrupt := if_pos h

/-- Settles O20: BUILDE's rule has no check, and LOAD alone accepts it. -/
theorem buildeEntersEncode : Obligations.BuildeEntersEncode :=
  commandRule_of_ruleOf (by decide) (by simp [acceptedIn]) (fun _ _ _ => rfl) fun _ _ _ he => nomatch he

/-- Settles O21: BUILDD's rule checks TOTAL against ORIG_LEN and builds the tree where they agree. -/
theorem builddChecksTheLengthAndEntersDecode : Obligations.BuilddChecksTheLengthAndEntersDecode :=
  commandRule_of_check (by decide) (by simp [acceptedIn]) (fun _ h => buildForDecode_checked (not_not.mp h))
    fun _ h => buildForDecode_corrupt h

end Sys2Proof.Machine
end

section
/-! SUPPORT. The statements of PutBit, ENC and FINAL as single commands (43_encode.md R93 to R95). -/

namespace Sys2Proof.Machine

open Sys2Proof.Claims

/-- Settles O42: the byte is BITBUF with its bit 7 - FILL written, pushed when FILL was 7 and kept otherwise. -/
theorem putBitWritesOneBit : Obligations.PutBitWritesOneBit := fun b s =>
  ⟨setBit (7 - s.fill.toNat) b s.bitbuf, fun j hj => getLsbD_setBit _ j b _ (by omega) hj,
    putBit_of_fill_eq b s, putBit_of_fill_ne b s⟩

/-- A command whose rule makes its checks in an order and otherwise completes follows its statement with those checks
(40_control.md R72). -/
theorem commandRule_of_checks {i : Instr} {word : Word} {phases : List Phase} {fails : State → Option ErrCode}
    {effect : State → State} (hword : encode i = word) (hphases : ∀ p, p ∈ phases ↔ acceptedIn i p = true)
    (hrule : ∀ s, ruleOf i s = (fails s).elim (.done (effect s)) .raise) : CommandRule i word phases fails effect :=
  commandRule_of_ruleOf hword hphases (fun s _ hf => by rw [hrule, hf]; rfl) fun s e _ hf => by rw [hrule, hf]; rfl

theorem codeBits_eq_map (n : Nat) (p : Pattern) : codeBits n p = (List.range n).reverse.map fun j => p.getLsbD j := by
  induction n with
  | zero => rfl
  | succ n ih => simp [codeBits, ih, List.range_succ]

theorem putBits_eq_foldl (bs : List Bool) (s : State) : putBits bs s = bs.foldl (fun t b => putBit b t) s := by
  induction bs generalizing s with
  | nil => rfl
  | cons b bs ih => exact ih _

/-- The packer takes the bits P[L-1] down to P[0] of a code (43_encode.md R93). -/
theorem putBits_codeOf (c : CodeTable) (b : Byte) (s : State) :
    putBits (codeOf c b) s = (List.range (codeLenAt c b).toNat).reverse.foldl
      (fun t j => putBit ((codePatAt c b).getLsbD j) t) s := by
  rw [codeOf, codeBits_eq_map, putBits_eq_foldl, List.foldl_map]

/-- Settles O22: ENC's rule makes the three checks in this order and gives the code's bits to the packer. -/
theorem encPacksTheCode : Obligations.EncPacksTheCode := by
  intro b
  refine commandRule_of_checks (wordB_eq_withS _ b) (by simp [acceptedIn]) fun s => ?_
  change encSymbol b s = _
  simp only [encSymbol, fifoRoom, fifoCount, Config.encRoom, Config.outDepth, putBits_symcnt, ← putBits_codeOf]
  split_ifs <;> rfl

/-- Settles O23: FINAL's rule makes the two checks in this order and pushes the partial byte where FILL is not 0. -/
theorem finalFlushesThePartialByte : Obligations.FinalFlushesThePartialByte := by
  refine commandRule_of_checks (by decide) (by simp [acceptedIn]) fun s => ?_
  change (if s.symcnt ≠ s.origLen then _ else if s.fill ≠ 0 ∧ s.fifo.length = 64 then _ else _) = _
  split_ifs <;> rfl

end Sys2Proof.Machine
end

section
/-! SUPPORT. The packing law (43_encode.md R95): ENCs, FINAL and POPs anywhere, over the FIFO with the bytes the host has
taken put back at its front. -/

namespace Sys2Proof.Machine

open Sys2Proof.Claims

section Drained

variable {i : Instr} {is js : List Instr} {s t : State} {out : List Byte}

theorem drained_cons (h : drained (i :: is) s = some (out, t)) :
    ∃ u rest, exec i s = .next u ∧ drained is u = some (rest, t) ∧ out = takenByte i u ++ rest := by
  unfold drained at h
  split at h
  next u hu =>
    obtain ⟨⟨rest, t'⟩, hrest, heq⟩ := Option.map_eq_some_iff.mp h
    cases heq
    exact ⟨u, rest, hu, hrest, rfl⟩
  all_goals cases h

theorem drained_append (h : drained (is ++ js) s = some (out, t)) :
    ∃ front u back, drained is s = some (front, u) ∧ drained js u = some (back, t) ∧ out = front ++ back := by
  induction is generalizing s out with
  | nil => exact ⟨[], s, out, rfl, h, rfl⟩
  | cons i is ih =>
    obtain ⟨v, rest, hv, hrest, rfl⟩ := drained_cons h
    obtain ⟨front, u, back, hfront, hback, rfl⟩ := ih hrest
    exact ⟨takenByte i v ++ front, u, back, by simp [drained, hv, hfront], hback, (List.append_assoc ..).symm⟩

/-- A single command answers a next state and the host takes its byte. -/
theorem drained_singleton (h : drained [i] s = some (out, t)) : exec i s = .next t ∧ out = takenByte i t := by
  obtain ⟨u, rest, hu, hrest, rfl⟩ := drained_cons h
  cases hrest
  exact ⟨hu, List.append_nil _⟩

/-- A command that ends outside ERROR completed (60_exceptions.md R107, R108). -/
theorem completes_of_phase_ne_error (h : exec i s = .next t) (hp : t.phase ≠ .error) : Completes s i t := by
  obtain hc | ⟨-, e, -, rfl⟩ | ⟨he, rfl⟩ := exec_next_cases h
  · exact hc
  · exact absurd rfl hp
  · exact absurd he hp

end Drained

section Untaken

variable (out more : List Byte) (s : State)

/-- The state with the bytes the host has taken put back at the front of its FIFO. -/
def untaken : State := { s with fifo := out ++ s.fifo }

theorem untaken_append : untaken (out ++ more) s = untaken out (untaken more s) := by
  simp [untaken]

/-- PutBit does not look at the bytes that are in the FIFO. -/
theorem putBit_untaken (b : Bool) : putBit b (untaken out s) = untaken out (putBit b s) := by
  by_cases h : s.fill = 7
  · rw [putBit_of_fill_eq b s h, putBit_of_fill_eq b (untaken out s) h]
    simp [untaken]
  · rw [putBit_of_fill_ne b s h, putBit_of_fill_ne b (untaken out s) h]
    rfl

theorem putBits_untaken (bs : List Bool) : putBits bs (untaken out s) = untaken out (putBits bs s) := by
  induction bs generalizing s with
  | nil => rfl
  | cons b bs ih => rw [putBits_cons, putBit_untaken, ih, putBits_cons]

/-- By a POP the host takes the oldest byte, or none from an empty FIFO (45_readback.md R105). -/
theorem takenByte_popByte : takenByte .pop (popByte s) = s.fifo.take 1 := by
  unfold takenByte popByte
  rcases s.fifo with _ | ⟨b, rest⟩
  · simp
  · have hvalid : ((1#1 ++ b).setWidth 32).getLsbD 8 = true := by
      rw [BitVec.getLsbD_setWidth, BitVec.getLsbD_append]
      rfl
    have hbyte : ((1#1 ++ b).setWidth 32).extractLsb' 0 8 = b := by
      ext j hj
      rw [BitVec.getElem_extractLsb', BitVec.getLsbD_setWidth, BitVec.getLsbD_append, Nat.zero_add, if_pos hj,
        BitVec.getLsbD_eq_getElem hj, decide_eq_true (by omega), Bool.true_and]
    exact (if_pos ⟨rfl, hvalid⟩).trans (congrArg (fun x => [x]) hbyte)

/-- POP moves a byte from the FIFO to the host and otherwise writes RESULT only. -/
theorem untaken_popByte :
    untaken (takenByte .pop (popByte s)) (popByte s) = { s with result := (popByte s).result } := by
  rw [takenByte_popByte, popByte_eq]
  simp [untaken, ← List.drop_one]

/-- POPs move bytes from the FIFO to the host and otherwise write RESULT only. -/
theorem untaken_of_drained_pops {pops : List Instr} {s t : State} {out : List Byte} (hpops : ∀ i ∈ pops, i = .pop)
    (h : drained pops s = some (out, t)) : ∃ r, untaken out t = { s with result := r } := by
  induction pops generalizing s out with
  | nil => cases h; exact ⟨_, rfl⟩
  | cons i pops ih =>
    obtain rfl := hpops i (by simp)
    obtain ⟨u, rest, hu, hrest, rfl⟩ := drained_cons h
    cases (exec_pop s).symm.trans hu
    obtain ⟨r, hr⟩ := ih (fun i hi => hpops i (List.mem_cons_of_mem _ hi)) hrest
    refine ⟨r, ?_⟩
    rw [untaken_append, hr]
    exact congrArg (fun v : State => { v with result := r }) (untaken_popByte s)

end Untaken

section Stream

variable {s₀ s t : State} {bs out : List Byte} {b : Byte}

/-- The partial byte that FINAL pushes, where there is one (43_encode.md R94). -/
def partialByte (s : State) : List Byte := if s.fill = 0 then [] else [s.bitbuf]

theorem partialByte_of_fill_eq (h : s.fill = 0) : partialByte s = [] := if_pos h

theorem partialByte_of_fill_ne (h : s.fill ≠ 0) : partialByte s = [s.bitbuf] := if_neg h

/-- What FINAL does when it completes (43_encode.md R94). -/
theorem Completes.final_eq (h : Completes s .final t) :
    s.phase = .encode ∧ t.fifo = s.fifo ++ partialByte s ∧ t.bitcnt = s.bitcnt ∧
      t.pad.toNat = (8 - s.fill.toNat) % 8 := by
  cases h with
  | flush hp _ hfill => exact ⟨hp, by rw [partialByte_of_fill_ne hfill]; rfl, rfl, BitVec.toNat_ofNat ..⟩
  | aligned hp _ hfill => exact ⟨hp, by simp [partialByte_of_fill_eq hfill], rfl, by simp [hfill]⟩

/-- With the partial byte the packed bits fill whole bytes, the last one over zeros (20_memory.md R46). -/
theorem PackedBits.flushed {base : List Byte} {cs : List Bool} (h : PackedBits base cs s) :
    ∃ ps : List Byte, s.fifo ++ partialByte s = base ++ ps ∧ ps.length = (cs.length + 7) / 8 ∧
      ∀ k j, k < ps.length → j < 8 → (ps[k]?.getD 0).getLsbD (7 - j) = cs[8 * k + j]?.getD false := by
  obtain ⟨⟨ps, hfifo, hlen, hbits⟩, hfill, hbuf⟩ := h
  by_cases h0 : s.fill = 0
  · have : cs.length % 8 = 0 := by simpa [h0] using hfill.symm
    exact ⟨ps, by simp [partialByte_of_fill_eq h0, hfifo], by omega, hbits⟩
  · have hne : s.fill.toNat ≠ 0 := fun e => h0 (BitVec.eq_of_toNat_eq e)
    refine ⟨ps ++ [s.bitbuf], by simp [partialByte_of_fill_ne h0, hfifo], by simp; omega, fun k j hk hj => ?_⟩
    obtain hlt | rfl : k < ps.length ∨ k = ps.length := by simp at hk; omega
    · rw [List.getElem?_append_left hlt, hbits k j hlt hj]
    · rw [List.getElem?_concat_length, hlen]
      exact hbuf j hj

/-- What ENCs of the bytes `bs` with POPs among them, in which the host took `out`, have made of `s₀` as BUILDE leaves it:
the bits packed, BITCNT and SYMCNT, which does not pass ORIG_LEN. -/
structure Encoded (s₀ : State) (bs out : List Byte) (s : State) : Prop where
  codes : s.codes = s₀.codes
  packed : PackedBits s₀.fifo (codeString s₀.codes bs) (untaken out s)
  bitcnt : s.bitcnt = BitVec.ofNat 64 (codeString s₀.codes bs).length
  symcnt : s.symcnt.toNat = bs.length
  bound : s.symcnt.toNat ≤ s.origLen.toNat

theorem Encoded.start (hsymcnt : s.symcnt = 0) (hbitcnt : s.bitcnt = 0) (hbuf : s.bitbuf = 0) (hfill : s.fill = 0) :
    Encoded s [] [] s where
  codes := rfl
  packed := ⟨⟨[], by simp [untaken], by simp [codeString], nofun⟩, by simp [untaken, hfill, codeString],
    by simp [untaken, hbuf, codeString]⟩
  bitcnt := hbitcnt
  symcnt := by simp [hsymcnt]
  bound := by simp [hsymcnt]

theorem codeString_concat (c : CodeTable) (bs : List Byte) (b : Byte) :
    codeString c (bs ++ [b]) = codeString c bs ++ codeOf c b := by
  simp [codeString]

theorem codeString_length_le (c : CodeTable) (bs : List Byte) : (codeString c bs).length ≤ 255 * bs.length := by
  induction bs with
  | nil => rfl
  | cons b bs ih =>
    have hcode : (codeOf c b).length ≤ 255 := by
      rw [codeOf, codeBits_length]
      exact Nat.le_of_lt_succ (codeLenAt c b).isLt
    simp only [codeString, List.flatMap_cons, List.length_append, List.length_cons] at ih ⊢
    omega

theorem Encoded.enc (h : Encoded s₀ bs out s) (hout : s.symcnt ≠ s.origLen) :
    Encoded s₀ (bs ++ [b]) out { putBits (codeOf s.codes b) s with symcnt := s.symcnt + 1 } where
  codes := (putBits_codes ..).trans h.codes
  packed := by
    have hp := putBits_packed (codeOf s.codes b) h.packed
    rw [putBits_untaken, h.codes, ← codeString_concat, ← h.codes] at hp
    rw [← h.codes]
    exact ⟨hp.pushed, hp.fill, hp.buf⟩
  bitcnt := by
    rw [codeString_concat, List.length_append, BitVec.ofNat_add, ← h.bitcnt, ← h.codes]
    exact putBits_bitcnt ..
  symcnt := by
    have hle := h.bound
    rw [List.length_append, ← h.symcnt]
    simp only [List.length_singleton]
    bv_omega
  bound := by
    have hle := h.bound
    simp only [putBits_origLen]
    bv_omega

theorem Encoded.pop (h : Encoded s₀ bs out s) : Encoded s₀ bs (out ++ takenByte .pop (popByte s)) (popByte s) := by
  obtain ⟨hcodes, hpacked, hbitcnt, hsymcnt, hbound⟩ := h
  have hback : PackedBits s₀.fifo (codeString s₀.codes bs) (untaken (out ++ takenByte .pop (popByte s)) (popByte s)) := by
    rw [untaken_append, untaken_popByte]
    exact ⟨hpacked.pushed, hpacked.fill, hpacked.buf⟩
  refine ⟨?_, hback, ?_, ?_, ?_⟩ <;> rw [popByte_eq] <;> assumption

/-- BITCNT does not wrap: fewer than 2^32 codes of at most 255 bits. -/
theorem Encoded.bitcnt_toNat (h : Encoded s₀ bs out s) : s.bitcnt.toNat = (codeString s₀.codes bs).length := by
  have hlen := codeString_length_le s₀.codes bs
  have hcount := h.symcnt
  have hlt := s.symcnt.isLt
  rw [h.bitcnt, BitVec.toNat_ofNat, Nat.mod_eq_of_lt (by omega)]

/-- ENCs and POPs that end in ENCODE have encoded every byte: an ENC that failed would have ended in ERROR. The induction
is on the last command, so that each state before it is in ENCODE too. -/
theorem Encoded.of_drained {is : List Instr} (hstart : Encoded s₀ [] [] s₀)
    (his : ∀ i ∈ is, i = .pop ∨ ∃ b, i = .enc b) (h : drained is s₀ = some (out, s)) (hp : s.phase = .encode) :
    Encoded s₀ (is.filterMap encodedByte) out s := by
  induction is using List.reverseRecOn generalizing out s with
  | nil => cases h; exact hstart
  | append_singleton is i ih =>
    obtain ⟨front, u, back, hfront, hback, rfl⟩ := drained_append h
    obtain ⟨hexec, rfl⟩ := drained_singleton hback
    have hbefore := ih (fun j hj => his j (List.mem_append_left _ hj)) hfront
    obtain rfl | ⟨b, rfl⟩ := his i (by simp)
    · cases (exec_pop u).symm.trans hexec
      have hpu : u.phase = .encode := by rwa [popByte_eq] at hp
      simpa [encodedByte, List.filterMap_cons] using (hbefore hpu).pop
    · cases completes_of_phase_ne_error hexec (by simp [hp]) with
      | enc hpu _ hout _ => simpa [encodedByte, takenByte, List.filterMap_cons] using (hbefore hpu).enc hout

end Stream

/-- Settles O43: the ENCs pack their codes into the FIFO with the taken bytes put back, FINAL adds the partial byte, and
the POPs after it only move bytes to the host. -/
theorem encsAndFinalPackTheCodes : Obligations.EncsAndFinalPackTheCodes := by
  intro s t is pops out hp hsymcnt hbitcnt hbuf hfill his hpops h hdone
  obtain ⟨front, u, back, hfront, hback, rfl⟩ := drained_append h
  obtain ⟨v, rest, hexec, hrest, hback⟩ := drained_cons hback
  obtain rfl : back = rest := hback
  obtain ⟨r, hr⟩ := untaken_of_drained_pops hpops hrest
  have hfifo : back ++ t.fifo = v.fifo := (congrArg State.fifo hr :)
  have hphase : t.phase = v.phase := (congrArg State.phase hr :)
  have hpad : t.pad = v.pad := (congrArg State.pad hr :)
  have hcount : t.bitcnt = v.bitcnt := (congrArg State.bitcnt hr :)
  obtain ⟨hpu, hvfifo, hvcount, hvpad⟩ :=
    (completes_of_phase_ne_error hexec (by simp [← hphase, hdone])).final_eq
  have henc := Encoded.of_drained (.start hsymcnt hbitcnt hbuf hfill) his hfront hpu
  obtain ⟨ps, hps, hlen, hbits⟩ := henc.packed.flushed
  refine ⟨ps, ?_, hlen, hbits, ?_, ?_⟩
  · rw [List.append_assoc, hfifo, hvfifo, ← List.append_assoc]
    exact hps
  · rw [hcount, hvcount, henc.bitcnt_toNat]
  · rw [hpad, hvpad]
    exact congrArg (fun n => (8 - n) % 8) henc.packed.fill

end Sys2Proof.Machine
end

section
/-! SUPPORT. The statements of DecodeBit, DFEED, DLAST and DEND as single commands (44_decode.md R96 to R100). -/

namespace Sys2Proof.Machine

open Sys2Proof.Claims

section OneStep

variable {x : Bool} {s : State} {i nxt : NodeIdx} {w v : Word} {l r l' r' : NodeRef} {b : Byte}

/-- Where CUR names no internal node the step of the walk is stuck (entry 7). -/
theorem decodeBit_of_not_internal (h : isInternal s.tree s.cur = false) : decodeBit x s = .stuck .walkNotInternal := by
  unfold isInternal at h
  unfold decodeBit
  split
  next hcur => rw [hcur] at h; cases h
  next => rfl
  next => rfl

/-- A missing child is a corrupt stream (44_decode.md R96). -/
theorem decodeBit_of_no_child (hcur : s.cur = some i) (hn : nodeAt s.tree i = .internal w l r)
    (hx : (if x then r else l) = none) : decodeBit x s = .raise .corrupt := by
  simp [decodeBit, hcur, hn, hx]

/-- At a leaf the symbol is pushed and CUR returns to ROOT (44_decode.md R96). -/
theorem decodeBit_of_leaf (hcur : s.cur = some i) (hn : nodeAt s.tree i = .internal w l r)
    (hx : (if x then r else l) = some nxt) (hnxt : nodeAt s.tree nxt = .leaf b v) :
    decodeBit x s = .done (walked [b] 1 s.tree.root s) := by
  simp [decodeBit, hcur, hn, hx, hnxt, walked, fifoPush]

/-- At an internal node CUR moves there (44_decode.md R96). -/
theorem decodeBit_of_internal (hcur : s.cur = some i) (hn : nodeAt s.tree i = .internal w l r)
    (hx : (if x then r else l) = some nxt) (hnxt : nodeAt s.tree nxt = .internal v l' r') :
    decodeBit x s = .done (walked [] 1 (some nxt) s) := by
  simp [decodeBit, hcur, hn, hx, hnxt, walked]

end OneStep

/-- Settles O44: what the child is decides the step, and no step is taken from anything but an internal node. -/
theorem decodeBitTakesOneStep : Obligations.DecodeBitTakesOneStep := by
  refine ⟨fun x s => decodeBit_of_not_internal, fun x s i w l r hcur hn => ⟨decodeBit_of_no_child hcur hn, ?_, ?_⟩⟩
  · exact fun nxt sym v => decodeBit_of_leaf hcur hn
  · intro nxt v l' r' hx hnxt
    rw [decodeBit_of_internal hcur hn hx hnxt]
    simp [walked]

section ExecOutcomes

variable {i : Instr} {s t : State} {e : ErrCode}

/-- An accepted command whose rule completes answers the rule's state (40_control.md R72). -/
theorem exec_of_done (ha : acceptedIn i s.phase = true) (h : ruleOf i s = .done t) : exec i s = .next t :=
  (exec_eq_runCommand i s).trans (runCommand_done ha h)

/-- An accepted command whose rule raises records the error with its word (60_exceptions.md R107). -/
theorem exec_of_raise (ha : acceptedIn i s.phase = true) (h : ruleOf i s = .raise e) :
    exec i s = .next (errorRecorded e (encode i) s) := by
  rw [exec_eq_runCommand, runCommand_raise ha h, recordError_eq _ _ _ (ruleOf_raise ha h).2]
  rfl

/-- An accepted command whose rule is stuck faults (entry 7). -/
theorem exec_of_stuck {f : Fault} (ha : acceptedIn i s.phase = true) (h : ruleOf i s = .stuck f) :
    exec i s = .fault f := by
  simp [exec_eq_runCommand, runCommand, ha, h]

/-- Outside ERROR a command that is not accepted records SEQUENCE (40_control.md R72). -/
theorem exec_of_not_accepted (ha : acceptedIn i s.phase = false) (hp : s.phase ≠ .error) :
    exec i s = .next (errorRecorded .sequence (encode i) s) := by
  rw [exec_eq_runCommand, runCommand_sequence ha hp, recordError_eq _ _ _ hp]
  rfl

/-- In ERROR a command that is not accepted is ignored (60_exceptions.md R108). -/
theorem exec_ignored (ha : acceptedIn i s.phase = false) (hp : s.phase = .error) : exec i s = .next s :=
  (exec_eq_runCommand i s).trans (runCommand_ignored ha hp)

end ExecOutcomes

section StreamBytes

variable {b : Byte} {n : Nat} {s t : State} {e : ErrCode} {f : Fault}

/-- The first bits of a byte, listed from bit 7 down (20_memory.md R46). -/
theorem take_bits_eq_byteBits (b : Byte) (hn : n ≤ 8) :
    ([7, 6, 5, 4, 3, 2, 1, 0].map fun j => b.getLsbD j).take n = byteBits b n := by
  change (byteBits b 8).take n = byteBits b n
  rw [byteBits, ← List.map_take, List.take_range, Nat.min_eq_left hn, byteBits]

/-- Without room for a symbol per bit nothing is unpacked (44_decode.md R97). -/
theorem feedBits_of_full (h : 64 - s.fifo.length < 8) : feedBits b n s = .raise .overrun := if_pos h

/-- With room the bits run through the walk (44_decode.md R97). -/
theorem feedBits_of_room (h : 64 - s.fifo.length ≥ 8) : feedBits b n s = walkBits (byteBits b n) (markExcess s) :=
  (feedBits_eq b n s).trans (if_neg (Nat.not_lt.mpr h))

theorem feedLast_of_full (h : 64 - s.fifo.length < 8) : feedLast b s = .raise .overrun := by
  rw [feedLast, feedBits_of_full h]

section Room

variable (h : 64 - s.fifo.length ≥ 8)
include h

/-- The stream ends after the walk of the final byte (44_decode.md R99). -/
theorem feedLast_of_walk_done (hw : walkBits (byteBits b (8 - s.pad.toNat)) (markExcess s) = .done t) :
    feedLast b s = endStream t := by
  rw [feedLast, feedBits_of_room h, hw]

theorem feedLast_of_walk_raise (hw : walkBits (byteBits b (8 - s.pad.toNat)) (markExcess s) = .raise e) :
    feedLast b s = .raise e := by
  rw [feedLast, feedBits_of_room h, hw]

theorem feedLast_of_walk_stuck (hw : walkBits (byteBits b (8 - s.pad.toNat)) (markExcess s) = .stuck f) :
    feedLast b s = .stuck f := by
  rw [feedLast, feedBits_of_room h, hw]

end Room

/-- While symbols are outstanding a stream does not end (44_decode.md R99, R100). -/
theorem endStream_truncated (h : s.symcnt.toNat < s.origLen.toNat) : endStream s = .raise .truncated := if_pos h

theorem endStream_complete (h : s.origLen.toNat ≤ s.symcnt.toNat) : endStream s = .done { s with phase := .decDone } :=
  if_neg (Nat.not_lt.mpr h)

theorem accepted_dfeed_iff : acceptedIn (.dfeed b) s.phase = true ↔ s.phase = .decode := by simp [acceptedIn]

theorem accepted_dlast_iff : acceptedIn (.dlast b) s.phase = true ↔ s.phase = .decode := by simp [acceptedIn]

end StreamBytes

/-- Settles O24: in DECODE the rule is the check of the room and then the walk of the eight bits. -/
theorem dfeedUnpacksAByte : Obligations.DfeedUnpacksAByte := by
  intro b
  have hword : encode (.dfeed b) = withS 0x40000000#32 b := wordB_eq_withS _ b
  rw [← hword]
  refine ⟨rfl, fun s hp hroom => ?_, fun s t hp hroom hw => ?_, fun s e hp hroom hw => ?_, fun s f hp hroom hw => ?_,
    fun s hp hne => ?_, fun s hp => ?_⟩
  · exact exec_of_raise (accepted_dfeed_iff.mpr hp) (feedBits_of_full hroom)
  · exact exec_of_done (accepted_dfeed_iff.mpr hp) ((feedBits_of_room hroom).trans hw)
  · exact exec_of_raise (accepted_dfeed_iff.mpr hp) ((feedBits_of_room hroom).trans hw)
  · exact exec_of_stuck (accepted_dfeed_iff.mpr hp) ((feedBits_of_room hroom).trans hw)
  · exact exec_of_not_accepted (by simp [acceptedIn, hp]) hne
  · exact exec_ignored (by simp [acceptedIn, hp]) hp

/-- Settles O25: as DFEED, and where the walk completes the end of the stream decides. -/
theorem dlastUnpacksTheFinalByte : Obligations.DlastUnpacksTheFinalByte := by
  intro b
  have hword : encode (.dlast b) = withS 0x41000000#32 b := wordB_eq_withS _ b
  have hbits (s : State) := take_bits_eq_byteBits (n := 8 - s.pad.toNat) b (by omega)
  simp only [hbits, ← hword]
  refine ⟨trivial, fun s hp hroom => ?_, fun s t hp hroom hw => ⟨fun hlt => ?_, fun hge => ?_⟩, fun s e hp hroom hw => ?_,
    fun s f hp hroom hw => ?_, fun s hp hne => ?_, fun s hp => ?_⟩
  · exact exec_of_raise (accepted_dlast_iff.mpr hp) (feedLast_of_full hroom)
  · exact exec_of_raise (accepted_dlast_iff.mpr hp) ((feedLast_of_walk_done hroom hw).trans (endStream_truncated hlt))
  · exact exec_of_done (accepted_dlast_iff.mpr hp) ((feedLast_of_walk_done hroom hw).trans (endStream_complete hge))
  · exact exec_of_raise (accepted_dlast_iff.mpr hp) (feedLast_of_walk_raise hroom hw)
  · exact exec_of_stuck (accepted_dlast_iff.mpr hp) (feedLast_of_walk_stuck hroom hw)
  · exact exec_of_not_accepted (by simp [acceptedIn, hp]) hne
  · exact exec_ignored (by simp [acceptedIn, hp]) hp

/-- Settles O26: DEND's rule is the end of a stream, which makes one check. -/
theorem dendEndsAStream : Obligations.DendEndsAStream :=
  commandRule_of_check (by decide) (by simp [acceptedIn]) (fun _ h => endStream_complete (Nat.le_of_not_lt h))
    fun _ h => endStream_truncated h

end Sys2Proof.Machine
end

section
/-! SUPPORT. The walk in a state of the invariant (44_decode.md R96, R97): it never stands on a leaf, and it meets a missing
child in the tree of a single symbol only. So every admitted access has a next state. -/

namespace Sys2Proof.Machine

open Sys2Proof.Claims

section WalkEnds

variable {bs : List Bool} {x : Bool} {s t u : State} {e : ErrCode}

/-- Two states agree in all that the walk reads (44_decode.md R96, R97). -/
structure SameWalk (s t : State) : Prop where
  tree : t.tree = s.tree
  cur : t.cur = s.cur
  symcnt : t.symcnt = s.symcnt
  origLen : t.origLen = s.origLen

theorem SameWalk.walked (h : SameWalk s t) (syms : List Byte) (n : Nat) (cur : NodeRef) :
    SameWalk (walked syms n cur s) (walked syms n cur t) :=
  ⟨h.tree, rfl, congrArg (· + _) h.symcnt, h.origLen⟩

/-- A step of the walk does the same to every state that agrees in what it reads. -/
theorem decodeBit_done_sameWalk (h : decodeBit x s = .done u) :
    ∃ syms cur, u = walked syms 1 cur s ∧ ∀ t, SameWalk s t → decodeBit x t = .done (walked syms 1 cur t) := by
  obtain ⟨i, w, l, r, nxt, hcur, hn, hx, ⟨b, v, hv, rfl⟩ | ⟨v, l', r', hv, rfl⟩⟩ := decodeBit_done_cases h
  · refine ⟨[b], s.tree.root, rfl, fun t ht => ?_⟩
    rw [← ht.tree] at hn hv ⊢
    exact decodeBit_of_leaf (ht.cur.trans hcur) hn hx hv
  · refine ⟨[], some nxt, rfl, fun t ht => ?_⟩
    rw [← ht.tree] at hn hv
    exact decodeBit_of_internal (ht.cur.trans hcur) hn hx hv

/-- With no symbol outstanding every bit is ignored (44_decode.md R97). -/
theorem walkBits_of_complete (bs : List Bool) (h : s.symcnt = s.origLen) : walkBits bs s = .done s := by
  cases bs with
  | nil => rfl
  | cons x bs => exact if_pos h

/-- A walk that stops before its last bit has decoded every symbol (44_decode.md R97). -/
theorem walkBits_consumes (h : walkBits bs s = .done t) :
    t.symcnt = t.origLen ∨ t.bitcnt = s.bitcnt + BitVec.ofNat 64 bs.length := by
  induction bs generalizing s with
  | nil => cases h; exact .inr (by simp)
  | cons x bs ih =>
    unfold walkBits at h
    split at h
    next hall => cases h; exact .inl hall
    next =>
      split at h
      next u hu =>
        have hcount : u.bitcnt = s.bitcnt + 1 := by
          obtain ⟨-, -, rfl, -⟩ := decodeBit_done_sameWalk hu
          rfl
        refine (ih h).imp_right fun ht => ?_
        rw [ht, hcount, List.length_cons, BitVec.add_assoc, BitVec.ofNat_add, BitVec.add_comm 1]
        rfl
      next => cases h
      next => cases h

/-- Only a missing child raises an error (44_decode.md R96). -/
theorem decodeBit_raise_cases (h : decodeBit x s = .raise e) :
    ∃ i w l r, s.cur = some i ∧ nodeAt s.tree i = .internal w l r ∧ (if x then r else l) = none := by
  unfold decodeBit at h
  split at h
  next w l r hcur =>
    obtain ⟨i, hi, hn⟩ := Option.map_eq_some_iff.mp hcur
    split at h
    next hnone => exact ⟨i, w, l, r, hi, hn, hnone⟩
    next => split at h <;> cases h
  next => cases h
  next => cases h

end WalkEnds

section Children

/-- Every internal node that bits lead to from ROOT has the child to which the bit `x` descends. -/
def HasChildren (t : TreeMem) (x : Bool) : Prop :=
  ∀ p i w l r, NodePath t t.root p (some i) → nodeAt t i = .internal w l r → (if x then r else l) ≠ none

/-- A walk whose bits find their children raises nothing. -/
theorem walkBits_ne_raise {bs : List Bool} {s : State} (hchild : ∀ x ∈ bs, HasChildren s.tree x)
    (hpath : ∃ p, NodePath s.tree s.tree.root p s.cur) (e : ErrCode) : walkBits bs s ≠ .raise e := by
  induction bs generalizing s with
  | nil => nofun
  | cons x bs ih =>
    intro h
    unfold walkBits at h
    split at h
    next => cases h
    next hne =>
      split at h
      next u hu =>
        have htree : u.tree = s.tree := by
          obtain ⟨-, -, rfl, -⟩ := decodeBit_done_sameWalk hu
          rfl
        have hstep : walkBits [x] s = .done u := by simp [walkBits, hne, hu]
        exact ih (fun y hy => htree ▸ hchild y (List.mem_cons_of_mem x hy)) (walkBits_nodePath hstep hpath) h
      next hraise =>
        obtain ⟨i, w, l, r, hcur, hn, hnone⟩ := decodeBit_raise_cases hraise
        obtain ⟨p, hp⟩ := hpath
        exact hchild x (List.mem_cons_self ..) p i w l r (hcur ▸ hp) hn hnone
      next => cases h

/-- Bits lead from the top of a represented tree to the tops of its subtrees only. -/
theorem NodePath.reps {t : TreeMem} {r q : NodeRef} {p : List Bool} (h : NodePath t r p q) {i : NodeIdx} {T : HTree}
    (hr : r = some i) (hT : Reps t.node t.nn i T) : ∃ j T', q = some j ∧ Reps t.node t.nn j T' := by
  induction h generalizing i T with
  | here => exact ⟨i, T, hr, hT⟩
  | left hn _ ih =>
    cases hr
    cases hT with
    | leaf _ hleaf => cases hn.symm.trans hleaf
    | node _ hnode hl _ => cases hn.symm.trans hnode; exact ih rfl hl
  | right hn _ ih =>
    cases hr
    cases hT with
    | leaf _ hleaf => cases hn.symm.trans hleaf
    | node _ hnode _ hr => cases hn.symm.trans hnode; exact ih rfl hr

/-- A built tree lacks a child only as the right child of the node over a single symbol (42_tree_build.md R85). -/
theorem buildTree_hasChildren {h : Vector Word 256} (t : TreeMem) {x : Bool} (hx : countedSymbols h ≠ 1 ∨ x = false) :
    HasChildren (buildTree h t) x := by
  intro p i w l r hp hn
  rcases hsyms : symbolsOf h with _ | ⟨⟨b, v⟩, _ | ⟨y, rest⟩⟩
  · rw [(buildTree_empty h t hsyms).1] at hp
    cases hp
  · have hone : countedSymbols h = 1 := by simp [← symbolsOf_length, hsyms]
    obtain rfl : x = false := hx.resolve_left (not_not_intro hone)
    obtain ⟨hroot, -, -, hleaf, hnode⟩ := buildTree_single h t hsyms
    rw [hroot] at hp
    cases hp with
    | here => cases hn.symm.trans hnode; exact Option.some_ne_none _
    | left htop hp =>
      cases htop.symm.trans hnode
      cases hp with
      | here => cases hn.symm.trans hleaf
      | left hlow => cases hlow.symm.trans hleaf
      | right hlow => cases hlow.symm.trans hleaf
    | right htop hp =>
      cases htop.symm.trans hnode
      cases hp
  · obtain ⟨-, -, -, top, T, hroot, hT, -⟩ := buildTree_many h t (by simp [hsyms])
    obtain ⟨j, T', hj, hreps⟩ := hp.reps hroot hT
    cases hj
    cases hreps with
    | leaf _ hleaf => cases hn.symm.trans hleaf
    | node _ hnode _ _ => cases hn.symm.trans hnode; cases x <;> exact Option.some_ne_none _

end Children

section UnderInvariant

variable {s t : State} {bs : List Bool} {i : Instr} (h : Inv s)
include h

/-- While ORIG_LEN is 0 no symbol is outstanding. -/
theorem Inv.complete_of_origLen_zero (h0 : s.origLen = 0) : s.symcnt = s.origLen := by
  have hle := h.symcntBound
  bv_omega

/-- The walk always stands on an internal node (44_decode.md R96). -/
theorem Inv.walkBits_ne_stuck (hp : s.phase = .decode) (bs : List Bool) (f : Fault) :
    walkBits bs (Claims.markExcess s) ≠ .stuck f := by
  by_cases h0 : s.origLen = 0
  · rw [walkBits_of_complete bs (s := Claims.markExcess s) (h.complete_of_origLen_zero h0)]
    nofun
  · obtain ⟨hcur, hroot, -⟩ := h.walkReady hp h0
    exact (walkBits_ready (s := Claims.markExcess s) hcur hroot).1 f

/-- The walk completes unless a 1 bit can meet the missing child of a one-symbol tree (44_decode.md R96). -/
theorem Inv.walkBits_completes (hp : s.phase = .decode) (hbs : ∀ x ∈ bs, countedSymbols s.hist ≠ 1 ∨ x = false) :
    ∃ t, walkBits bs (Claims.markExcess s) = .done t := by
  by_cases h0 : s.origLen = 0
  · exact ⟨_, walkBits_of_complete bs (s := Claims.markExcess s) (h.complete_of_origLen_zero h0)⟩
  · obtain ⟨u, hu⟩ := h.treeOfHist (by simp [hp, treeBuilt])
    obtain ⟨-, -, hpath⟩ := h.walkReady hp h0
    have hchild : ∀ x ∈ bs, HasChildren (Claims.markExcess s).tree x := fun x hx => hu ▸ buildTree_hasChildren u (hbs x hx)
    cases hw : walkBits bs (Claims.markExcess s) with
    | done t => exact ⟨t, rfl⟩
    | raise e => exact absurd hw (walkBits_ne_raise hchild hpath e)
    | stuck f => exact absurd hw (h.walkBits_ne_stuck hp bs f)

/-- A walk that raises an error meets the missing child of a one-symbol tree. -/
theorem Inv.countedSymbols_of_raise (hp : s.phase = .decode) {e : ErrCode}
    (hw : walkBits bs (Claims.markExcess s) = .raise e) : countedSymbols s.hist = 1 := by
  by_contra hne
  obtain ⟨t, ht⟩ := h.walkBits_completes hp (bs := bs) fun _ _ => .inl hne
  rw [hw] at ht
  cases ht

/-- An error other than SEQUENCE that a command leaves recorded is the one its rule raised (60_exceptions.md R107). -/
theorem Inv.rule_raised (hp : s.phase ≠ .error) {e : ErrCode} (hexec : exec i s = .next t) (ht : t.errcode = e)
    (he : e ≠ .none) (hseq : e ≠ .sequence) : ruleOf i s = .raise e := by
  have hnone : t.phase = .error := by
    by_contra hne
    exact he (ht ▸ (exec_inv h hexec).errcodeIff.mpr hne)
  have hcases := hexec
  rw [exec_eq_runCommand] at hcases
  obtain ⟨ha, hr⟩ | ⟨e', -, hr, rfl⟩ | ⟨-, herr, -⟩ | ⟨-, -, rfl⟩ := runCommand_next_cases hcases
  · exact absurd hnone ((completes_of_rule_done ha hr).phase_ne_error hp)
  · rw [recordError_eq _ _ _ hp] at ht
    rwa [← ht]
  · exact absurd herr hp
  · rw [recordError_eq _ _ _ hp] at ht
    exact absurd ht.symm hseq

end UnderInvariant

section CorruptBytes

variable {b : Byte} {n : Nat} {s : State}

theorem feedBits_corrupt (h : feedBits b n s = .raise .corrupt) :
    walkBits (byteBits b n) (markExcess s) = .raise .corrupt := by
  rw [feedBits_eq] at h
  split at h
  · cases h
  · exact h

theorem feedLast_corrupt (h : feedLast b s = .raise .corrupt) :
    walkBits (byteBits b (8 - s.pad.toNat)) (markExcess s) = .raise .corrupt := by
  unfold feedLast at h
  split at h
  next => cases endStream_raise h
  next hf => cases h; exact feedBits_corrupt hf
  next => cases h

end CorruptBytes

/-- Settles O47: the error recorded is the walk's, which meets a missing child. -/
theorem corruptStreamMeansOneSymbol : Obligations.CorruptStreamMeansOneSymbol := by
  intro b s t h hp hexec ht
  have hne : s.phase ≠ .error := by simp [hp]
  obtain hexec | hexec := hexec
  · exact h.countedSymbols_of_raise hp (feedBits_corrupt (h.rule_raised hne hexec ht nofun nofun))
  · exact h.countedSymbols_of_raise hp (feedLast_corrupt (h.rule_raised hne hexec ht nofun nofun))

theorem eq_false_of_mem_byteBits_zero {x : Bool} {n : Nat} (hx : x ∈ byteBits 0#8 n) : x = false := by
  obtain ⟨j, -, rfl⟩ := List.mem_map.mp hx
  exact BitVec.getLsbD_zero

/-- Settles O45: under these hypotheses every bit of the byte finds its child, so the walk completes, and a walk that
stops early has decoded every symbol. -/
theorem dfeedCompletes : Obligations.DfeedCompletes := by
  intro b s h hp hroom hb
  obtain ⟨t, ht⟩ := h.walkBits_completes hp (bs := byteBits b 8) fun x hx =>
    hb.imp_right fun h0 => eq_false_of_mem_byteBits_zero (h0 ▸ hx)
  obtain ⟨syms, n, heq, hsyms, hn, hle⟩ := walkBits_done_cases ht h.symcntBound
  rw [byteBits_length] at hn
  have hexec : exec (.dfeed b) s = .next t :=
    exec_of_done (accepted_dfeed_iff.mpr hp) ((feedBits_of_room (by omega)).trans ht)
  refine ⟨syms, n, t.cur, hexec.trans (congrArg _ heq), hsyms, hn, hle, fun hlt => ?_⟩
  have hstop := walkBits_consumes ht
  have hlen := s.origLen.isLt
  rw [byteBits_length, heq] at hstop
  simp only [walked, markExcess] at hstop hle
  bv_omega

section EveryAccess

variable {s : State} {i : Instr} {f : Fault}

/-- Only the walk of a stream byte can be stuck (entry 7). -/
theorem walkBits_stuck_of_rule (h : ruleOf i s = .stuck f) :
    ∃ b bits, (i = .dfeed b ∨ i = .dlast b) ∧ walkBits bits (markExcess s) = .stuck f := by
  have hfeed {b : Byte} {n : Nat} (hf : feedBits b n s = .stuck f) :
      walkBits (byteBits b n) (markExcess s) = .stuck f := by
    rw [feedBits_eq] at hf
    split at hf
    · cases hf
    · exact hf
  cases i with
  | nop | clear | setlen | builde | hrd | clrd | cbrd | pop => cases h
  | feed b | hadd b => simp only [ruleOf, countSymbol] at h; split at h <;> cases h
  | setpad => simp only [ruleOf, setPad] at h; split at h <;> cases h
  | buildd => simp only [ruleOf, buildForDecode] at h; split at h <;> cases h
  | enc b => simp only [ruleOf, encSymbol] at h; split_ifs at h
  | final => simp only [ruleOf, finishStream] at h; split_ifs at h
  | dend => simp only [ruleOf, endStream] at h; split at h <;> cases h
  | dfeed b => exact ⟨b, _, .inl rfl, hfeed h⟩
  | dlast b =>
    simp only [ruleOf, feedLast] at h
    split at h
    next => unfold endStream at h; split at h <;> cases h
    next => cases h
    next hf => cases h; exact ⟨b, _, .inr rfl, hfeed hf⟩

variable (h : Inv s)
include h

/-- Every command has a next state (44_decode.md R96). -/
theorem Inv.exec_next (i : Instr) : ∃ t, exec i s = .next t := by
  cases hexec : exec i s with
  | next t => exact ⟨t, rfl⟩
  | fault f =>
    rw [exec_eq_runCommand] at hexec
    obtain ⟨ha, hr⟩ := runCommand_fault hexec
    obtain ⟨b, bits, hi, hw⟩ := walkBits_stuck_of_rule hr
    have hp : s.phase = .decode := by
      obtain rfl | rfl := hi
      · exact accepted_dfeed_iff.mp ha
      · exact accepted_dlast_iff.mp ha
    exact absurd hw (h.walkBits_ne_stuck hp bits f)
  | refused r =>
    rw [exec_eq_runCommand] at hexec
    exact absurd hexec runCommand_not_refused

/-- Every word written to CMD has a next state (40_control.md R72). -/
theorem Inv.issueCommand_next (c : Word) : ∃ t, issueCommand c s = .next t := by
  unfold issueCommand
  split
  · exact ⟨_, rfl⟩
  · exact h.exec_next _

/-- Every admitted access has a next state: BUSY reads 0 (20_memory.md R43, 70_reset_and_hazards.md R119). -/
theorem Inv.performAccess_next {a : Access} (ha : a.wellFormed = true) : ∃ t, performAccess a s = .next t := by
  unfold performAccess
  rw [if_pos ha]
  cases a with
  | read w off => exact ⟨_, rfl⟩
  | write w off v =>
    simp only [writeAccess, h.notBusy]
    split
    · exact ⟨_, rfl⟩
    · exact h.issueCommand_next v
    · exact ⟨_, rfl⟩
  | reset => exact ⟨_, rfl⟩

end EveryAccess

/-- Settles O60: an admitted access has a next state, and any other is refused as such. -/
theorem noFaultAndOnlyBadAccessesRefused : Obligations.NoFaultAndOnlyBadAccessesRefused := by
  intro s h
  rcases hbus : s.bus with _ | ⟨a, rest⟩
  · have hstep : step s = .next s := by simp [step, hostStep, hbus]
    rw [hstep]
    exact ⟨nofun, nofun⟩
  · cases ha : a.wellFormed with
    | true =>
      have hrest : Inv { s with bus := rest } := h.of_unconstrained _ _ _ _ rest _ _
      obtain ⟨t, ht⟩ := hrest.performAccess_next ha
      rw [step_of_bus hbus, ht]
      exact ⟨nofun, nofun⟩
    | false =>
      rw [step_not_admitted hbus ha]
      refine ⟨nofun, fun r hr => ?_⟩
      cases hr
      exact ⟨rfl, a, rest, rfl, ha⟩

end Sys2Proof.Machine
end

section
/-! SUPPORT. The walk of the codes of the outstanding symbols gives the symbols back (44_decode.md R97, R99, R101). -/

namespace Sys2Proof.Machine

open Sys2Proof.Claims

section Codes

variable {s : State} {t : TreeMem} {bs : List Byte}

/-- A symbol is outstanding, so EXCESS is not set (44_decode.md R97). -/
theorem markExcess_of_outstanding (h : s.symcnt ≠ s.origLen) : markExcess s = s := by simp [markExcess, h]

theorem codeString_cons (c : CodeTable) (b : Byte) (bs : List Byte) :
    codeString c (b :: bs) = codeOf c b ++ codeString c bs := List.flatMap_cons

/-- The walk emits the symbols one after the other, each along its path from ROOT, and then ignores the rest. -/
theorem walkBits_codeString (tail : List Bool) (htree : s.tree = buildTree s.hist t) (hcur : s.cur = s.tree.root)
    (hbs : ∀ b ∈ bs, histAt s b ≠ 0) (hlen : s.origLen.toNat = s.symcnt.toNat + bs.length) :
    walkBits (codeString (genCodes s.tree) bs ++ tail) s =
      .done (walked bs (codeString (genCodes s.tree) bs).length s.tree.root s) := by
  induction bs generalizing s with
  | nil =>
    have hall : s.symcnt = s.origLen := BitVec.eq_of_toNat_eq hlen.symm
    rw [walkBits_of_complete _ hall, ← hcur]
    exact congrArg _ (walked_nil s).symm
  | cons b bs ih =>
    rw [List.length_cons] at hlen
    have hout : s.symcnt ≠ s.origLen := fun he => by rw [he] at hlen; omega
    obtain ⟨hpath, hcode⟩ := (genCodes_spec s.hist t b).1 (hbs b (List.mem_cons_self ..))
    rw [← htree] at hpath hcode
    have hne : codeOf (genCodes s.tree) b ≠ [] := by
      rw [← List.length_pos_iff, codeOf, codeBits_length]
      bv_omega
    have hnext : (walked [b] (codeOf (genCodes s.tree) b).length s.tree.root s).origLen.toNat =
        (walked [b] (codeOf (genCodes s.tree) b).length s.tree.root s).symcnt.toNat + bs.length := by
      have hlt := s.origLen.isLt
      simp only [walked, List.length_singleton]
      bv_omega
    rw [codeString_cons, List.append_assoc, walkBits_codePath hpath _ s rfl hcur hout hne, List.length_append]
    refine (ih (s := walked [b] (codeOf (genCodes s.tree) b).length s.tree.root s) htree rfl
      (fun a ha => hbs a (List.mem_cons_of_mem b ha)) hnext).trans (congrArg _ ?_)
    rw [walked_walked]
    rfl

/-- The symbols emitted, SYMCNT reaches ORIG_LEN. -/
theorem walked_eq_of_complete (n : Nat) (cur : NodeRef) (hlen : s.origLen.toNat = s.symcnt.toNat + bs.length) :
    walked bs n cur s =
      { s with fifo := s.fifo ++ bs, symcnt := s.origLen, bitcnt := s.bitcnt + BitVec.ofNat 64 n, cur := cur } := by
  have hsym : s.symcnt + BitVec.ofNat 32 bs.length = s.origLen := by
    have hlt := s.origLen.isLt
    bv_omega
  rw [walked, hsym]

end Codes

/-- Settles O48: the walk's state, in which CUR is ROOT again. -/
theorem walkDecodesTheCodes : Obligations.WalkDecodesTheCodes := by
  intro s t bs tail htree hcur hbs hlen
  rw [walkBits_codeString tail htree hcur hbs hlen, walked_eq_of_complete _ _ hlen, ← hcur]

/-- Settles O46: the walk of the final byte emits the outstanding symbols, or none, and no symbol is left. -/
theorem dlastCompletes : Obligations.DlastCompletes := by
  intro b s h hp hroom
  have hends {t : State} (hw : walkBits (byteBits b (8 - s.pad.toNat)) (markExcess s) = .done t)
      (hall : t.symcnt = t.origLen) : exec (.dlast b) s = .next { t with phase := .decDone } :=
    exec_of_done (accepted_dlast_iff.mpr hp)
      ((feedLast_of_walk_done (by omega) hw).trans (endStream_complete (hall ▸ le_rfl)))
  refine ⟨fun bs tail hcur hne hbs hlen hbits => ?_, fun hall => ?_⟩
  · obtain ⟨t, htree⟩ := h.treeOfHist (by simp [hp, treeBuilt])
    have hpos := List.length_pos_iff.mpr hne
    have hout : s.symcnt ≠ s.origLen := fun he => by rw [he] at hlen; omega
    have hw := walkBits_codeString tail htree hcur hbs hlen
    rw [← hbits, walked_eq_of_complete _ _ hlen, ← hcur] at hw
    exact hends ((congrArg _ (markExcess_of_outstanding hout)).trans hw) rfl
  · refine (hends (walkBits_of_complete _ (s := markExcess s) hall) hall).trans ?_
    simp [markExcess, hall]

end Sys2Proof.Machine
end

section
/-! SUPPORT. The host between two accesses (20_memory.md R53, R57): one lemma for each thing P1 and P2 do with the window,
over the states with no access pending that satisfy the invariant. -/

namespace Sys2Proof.Machine

open Sys2Proof.Claims

/-- The host has no access pending, and the block is in a state of the invariant. -/
structure Waiting (s : State) : Prop where
  inv : Inv s
  bus : s.bus = []

/-- `s` with the FIFO the host has left, its last RESULT and what it has observed. -/
def polled (fifo : List Byte) (result : Word) (observed : List Word) (s : State) : State :=
  { s with fifo := fifo, result := result, observed := observed }

section Accesses

variable {s t : State} {a : Access} {i : Instr}

/-- An access with a next state gives the host that state. -/
theorem hostAccess_of_next (h : performAccess a { s with bus := [] } = .next t) : hostAccess a s = some t := by
  have hstep : step { s with bus := [a] } = .next t := (step_of_bus rfl).trans h
  rw [hostAccess, hstep]

/-- A command issued while BUSY reads 0 takes its effect (20_memory.md R53). -/
theorem hostCommand_of_exec (hbusy : s.busy = false) (h : exec i { s with bus := [] } = .next t) :
    hostCommand i s = some t :=
  hostAccess_of_next
    ((writeAccess_cmd (s := { s with bus := [] }) hbusy (decodeOfEncodeIsTheCommand i)).trans h)

/-- P1 and P2 begin with CLEAR and a look at STATUS, whatever the state before (95_test_vectors.md). -/
theorem hostStart (hbusy : s.busy = false) :
    ∃ t v u, hostCommand .clear s = some t ∧ hostRead .status t = some (v, u) ∧ Waiting u ∧ HoldsAmounts [] u := by
  have hclear : hostCommand .clear s = some (clearBlock { s with bus := [] }) :=
    hostCommand_of_exec hbusy (exec_clear _)
  have hcounts : HoldsAmounts [] (clearBlock { s with bus := [] }) :=
    holdsAmounts_of_resetValues (resetValues_clearBlock (s := { s with bus := [] }) hbusy) []
  have hread := hostRead_of_not_busy (clearBlock { s with bus := [] }) .status hbusy
  refine ⟨_, _, _, hclear, hread, ⟨?_, rfl⟩, hcounts.phase, hcounts.notBusy, hcounts.hist, hcounts.total⟩
  exact (inv_clearBlock (s := { s with bus := [] }) hbusy).of_unconstrained ..

namespace Waiting

theorem bus_eq (h : Waiting s) : { s with bus := [] } = s := by rw [← h.bus]

/-- A command with a next state leaves the host waiting again. -/
theorem command (h : Waiting s) (hexec : exec i s = .next t) : hostCommand i s = some t ∧ Waiting t := by
  obtain ⟨-, -, -, -, -, -, hbus, -, -⟩ := streamRegisterWriters i s t hexec
  exact ⟨hostCommand_of_exec h.inv.notBusy (h.bus_eq ▸ hexec), exec_inv h.inv hexec, hbus.trans h.bus⟩

/-- One command for each byte of a list (95_test_vectors.md). -/
theorem commands {f : Byte → Instr} {bs : List Byte} (h : Waiting s) (hrun : execAll (bs.map f) s = .next t) :
    hostCommands f bs s = some t ∧ Waiting t := by
  induction bs generalizing s with
  | nil => cases hrun; exact ⟨rfl, h⟩
  | cons b bs ih =>
    rw [List.map_cons, execAll] at hrun
    split at hrun
    next u hu =>
      obtain ⟨hcommand, hwait⟩ := h.command hu
      rw [hostCommands, hcommand, Option.bind_some]
      exact ih hwait hrun
    next => cases hrun
    next => cases hrun

/-- A write of ARG (10_state.md R21). -/
theorem writeArg (h : Waiting s) (v : Word) :
    hostWrite .arg v s = some { s with arg := v } ∧ Waiting { s with arg := v } := by
  have hwrite : performAccess (wrAccess .arg v) s = .next { s with arg := v } := writeAccess_arg h.inv.notBusy
  exact ⟨hostAccess_of_next (h.bus_eq ▸ hwrite), h.inv.of_unconstrained .., h.bus⟩

theorem afterRead_eq (h : Waiting s) (r : Reg) :
    afterRead r s = polled s.fifo s.result (s.observed ++ [readReg r s]) s := by
  rw [afterRead, polled, ← h.bus]

/-- Reads and POPs keep the invariant: the FIFO only gets shorter. -/
theorem polled (h : Waiting s) {taken fifo : List Byte} (hfifo : s.fifo = taken ++ fifo) (result : Word)
    (observed : List Word) : Waiting (polled fifo result observed s) := by
  have hinv := h.inv.of_unconstrained s.errcmd s.arg result s.pad s.bus observed s.freeReads
  refine ⟨{ hinv with fifoBound := ?_, loadFresh := fun hp => ?_ }, h.bus⟩
  · have hle := h.inv.fifoBound
    rw [hfifo, List.length_append] at hle
    exact (Nat.le_add_left _ _).trans hle
  · obtain ⟨hnil, hrest⟩ := h.inv.loadFresh hp
    exact ⟨(List.append_eq_nil_iff.mp (hfifo.symm.trans hnil)).2, hrest⟩

/-- A read (20_memory.md R45). -/
theorem read (h : Waiting s) (r : Reg) : hostRead r s = some (readReg r s, afterRead r s) ∧ Waiting (afterRead r s) := by
  refine ⟨hostRead_of_not_busy s r h.inv.notBusy, ?_⟩
  rw [h.afterRead_eq]
  exact h.polled (List.nil_append _).symm ..

theorem outCount (h : Waiting s) : outCountOf (readReg .status s) = s.fifo.length := by
  obtain ⟨-, -, -, -, -, -, -, -, -, -, -, hcount, -⟩ := statusFields s
  exact hcount h.inv.fifoBound

end Waiting

/-- A POP of a nonempty FIFO leaves the oldest byte in RESULT[7:0] (45_readback.md R105). -/
theorem popByte_result {b : Byte} {fifo : List Byte} (h : s.fifo = b :: fifo) :
    (popByte s).result.extractLsb' 0 8 = b := by
  have htaken := takenByte_popByte s
  unfold takenByte at htaken
  split at htaken
  · simpa [h] using htaken
  · simp [h] at htaken

/-- The host takes the oldest byte by a POP and a read of RESULT (45_readback.md R105). -/
theorem Waiting.pop (h : Waiting s) {b : Byte} {fifo : List Byte} (hfifo : s.fifo = b :: fifo) :
    ∃ t v r o, hostCommand .pop s = some t ∧ hostRead .result t = some (v, Machine.polled fifo r o s) ∧
      v.extractLsb' 0 8 = b ∧ Waiting (Machine.polled fifo r o s) := by
  obtain ⟨hpop, hwait⟩ := h.command (exec_pop s)
  obtain ⟨hread, hwait'⟩ := hwait.read .result
  have hnext : afterRead .result (popByte s) =
      Machine.polled fifo (popByte s).result (s.observed ++ [(popByte s).result]) s := by
    rw [hwait.afterRead_eq, popByte_eq, hfifo]
    rfl
  rw [hnext] at hread hwait'
  exact ⟨_, _, _, _, hpop, hread, popByte_result hfifo, hwait'⟩

/-- Draining takes bytes in order until at most `limit` are left (95_test_vectors.md). -/
theorem Waiting.drain (h : Waiting s) (limit : Nat) {fuel : Nat} (hfuel : s.fifo.length < fuel) (out : List Byte) :
    ∃ taken fifo r o, s.fifo = taken ++ fifo ∧ fifo.length ≤ limit ∧
      hostDrain limit fuel out s = some (out ++ taken, Machine.polled fifo r o s) := by
  induction fuel generalizing s out with
  | zero => cases hfuel
  | succ fuel ih =>
    obtain ⟨hread, hwait⟩ := h.read .status
    rw [h.afterRead_eq] at hread hwait
    rw [hostDrain, hread, Option.bind_some]
    dsimp only
    rw [h.outCount]
    by_cases hle : s.fifo.length ≤ limit
    · rw [if_neg (Nat.not_lt.mpr hle)]
      exact ⟨[], s.fifo, _, _, rfl, hle, by rw [List.append_nil]⟩
    · rw [if_pos (Nat.lt_of_not_le hle)]
      obtain ⟨b, fifo, hfifo⟩ := List.exists_cons_of_length_pos (Nat.zero_lt_of_lt (Nat.lt_of_not_le hle))
      obtain ⟨t, v, r, o, hpop, hresult, hv, hwait'⟩ := hwait.pop hfifo
      have hshorter : fifo.length < fuel := by
        rw [hfifo, List.length_cons] at hfuel
        omega
      obtain ⟨taken, rest, r', o', hrest, hlimit, hdrain⟩ := ih hwait' hshorter (out ++ [b])
      rw [hpop, Option.bind_some, hresult, Option.bind_some]
      refine ⟨b :: taken, rest, r', o', hfifo.trans (congrArg (b :: ·) hrest), hlimit, ?_⟩
      rw [hv]
      refine hdrain.trans ?_
      rw [List.append_assoc]
      rfl

/-- The 256 bounds of P1 and P2 suffice: the FIFO holds at most OUT_DEPTH bytes. -/
theorem Waiting.fifo_lt (h : Waiting s) : s.fifo.length < 256 := Nat.lt_of_le_of_lt h.inv.fifoBound (by decide)

/-- P1 reads the counts (45_readback.md R102). -/
theorem Waiting.readCounts (h : Waiting s) (ks : List Nat) (acc : List Word) :
    ∃ result observed, hostReadCounts ks acc s =
      some (acc ++ ks.map fun k => histAt s (BitVec.ofNat 8 k), Machine.polled s.fifo result observed s) := by
  induction ks generalizing s acc with
  | nil => exact ⟨s.result, s.observed, by rw [hostReadCounts, List.map_nil, List.append_nil]; rfl⟩
  | cons k ks ih =>
    have hexec : exec (.hrd (BitVec.ofNat 8 k)) s = .next { s with result := histAt s (BitVec.ofNat 8 k) } :=
      exec_of_done rfl rfl
    obtain ⟨hcommand, hwait⟩ := h.command hexec
    obtain ⟨hread, hwait'⟩ := hwait.read .result
    rw [hwait.afterRead_eq] at hread hwait'
    obtain ⟨r, o, hrest⟩ := ih hwait' (acc ++ [histAt s (BitVec.ofNat 8 k)])
    refine ⟨r, o, ?_⟩
    rw [hostReadCounts, hcommand, Option.bind_some, hread, Option.bind_some]
    refine hrest.trans ?_
    rw [List.append_assoc]
    rfl

end Accesses

section Loops

variable {limit : Nat} {f : Byte → Instr} {P : List Byte → List Byte → State → Prop} {bs out : List Byte} {s : State}

/-- `P rest out s` is kept by the loop of P1 and P2 over a list of bytes, `rest` being still to come and `out` taken from
the FIFO: by taking bytes, and by the command of the next byte where the FIFO is drained to `limit`. -/
structure StreamLoop (limit : Nat) (f : Byte → Instr) (P : List Byte → List Byte → State → Prop) : Prop where
  waiting : ∀ {rest out s}, P rest out s → Waiting s
  polled : ∀ {rest out s} {taken fifo : List Byte} (r o), P rest out s → s.fifo = taken ++ fifo →
    P rest (out ++ taken) (polled fifo r o s)
  command : ∀ {b rest out s}, P (b :: rest) out s → s.fifo.length ≤ limit → ∃ t, exec (f b) s = .next t ∧ P rest out t

/-- Draining between two commands. -/
theorem StreamLoop.drain (hP : StreamLoop limit f P) (h : P bs out s) :
    ∃ out' t, hostDrain limit 256 out s = some (out', t) ∧ P bs out' t ∧ t.fifo.length ≤ limit := by
  have hwait := hP.waiting h
  obtain ⟨taken, fifo, r, o, hfifo, hle, hdrain⟩ := hwait.drain limit hwait.fifo_lt out
  exact ⟨_, _, hdrain, hP.polled r o h hfifo, hle⟩

/-- The loop runs to the end of the list. -/
theorem StreamLoop.run (hP : StreamLoop limit f P) (h : P bs out s) :
    ∃ out' t, hostStream limit f bs out s = some (out', t) ∧ P [] out' t := by
  induction bs generalizing out s with
  | nil => exact ⟨out, s, rfl, h⟩
  | cons b bs ih =>
    obtain ⟨out₁, s₁, hdrain, h₁, hle⟩ := hP.drain h
    obtain ⟨s₂, hexec, h₂⟩ := hP.command h₁ hle
    obtain ⟨hcommand, -⟩ := (hP.waiting h₁).command hexec
    obtain ⟨out', t, hrun, ht⟩ := ih h₂
    refine ⟨out', t, ?_, ht⟩
    rw [hostStream, hdrain, Option.bind_some]
    dsimp only
    rw [hcommand, Option.bind_some]
    exact hrun

end Loops

end Sys2Proof.Machine
end

section
/-! SUPPORT. The packed stream as a list of bits (20_memory.md R46), and the walk of a list of bits piece by piece
(44_decode.md R97, R101). -/

namespace Sys2Proof.Machine

open Sys2Proof.Claims

section PackedStream

variable {cs : List Bool} {front ps : List Byte} {last v : Byte} {n pad : Nat}

/-- The bytes `ps` hold the bits `cs`, first bit at bit 7, the last byte filled up with `pad` zeros (20_memory.md R46,
43_encode.md R94). -/
structure PackedStream (cs : List Bool) (ps : List Byte) (pad : Nat) : Prop where
  length : ps.length = (cs.length + 7) / 8
  bits : ∀ k j, k < ps.length → j < 8 → (ps[k]?.getD 0).getLsbD (7 - j) = cs[8 * k + j]?.getD false
  pad : pad = (8 - cs.length % 8) % 8

/-- A byte whose bits are the first of a list. -/
theorem byteBits_eq_take (hbits : ∀ j, j < n → v.getLsbD (7 - j) = cs[j]?.getD false) (hn : n ≤ cs.length) :
    byteBits v n = cs.take n := by
  refine List.ext_getElem (by simp [hn]) fun j hj _ => ?_
  have hj : j < n := by simpa using hj
  have hget : cs[j]? = some (cs[j]'(by omega)) := List.getElem?_eq_getElem (by omega)
  simp [byteBits, hbits j hj, hget]

/-- Past its first byte a packed stream is the packed stream of the remaining bits. -/
theorem PackedStream.tail (h : PackedStream cs (v :: ps) pad) (h8 : 8 ≤ cs.length) :
    PackedStream (cs.drop 8) ps pad := by
  obtain ⟨hlength, hbits, hpad⟩ := h
  rw [List.length_cons] at hlength
  refine ⟨by rw [List.length_drop]; omega, fun k j hk hj => ?_, by rw [List.length_drop]; omega⟩
  have hshift := hbits (k + 1) j (by rw [List.length_cons]; omega) hj
  rw [List.getElem?_cons_succ] at hshift
  rw [hshift, List.getElem?_drop]
  congr 2
  omega

/-- The bits of a packed stream: all of every byte but the last, and of that the first 8 - PAD (44_decode.md R98, R99). -/
theorem PackedStream.bits_eq (h : PackedStream cs (front ++ [last]) pad) :
    cs = front.flatMap (byteBits · 8) ++ byteBits last (8 - pad) := by
  induction front generalizing cs with
  | nil =>
    obtain ⟨hlength, hbits, hpad⟩ := h
    simp only [List.nil_append, List.length_singleton] at hlength hbits
    have hn : 8 - pad = cs.length := by omega
    rw [hn, byteBits_eq_take (cs := cs) (fun j hj => ?_) le_rfl]
    · simp
    · simpa using hbits 0 j Nat.one_pos (by omega)
  | cons v front ih =>
    have hlength := h.length
    simp only [List.cons_append, List.length_cons, List.length_append] at hlength
    have hfirst : byteBits v 8 = cs.take 8 :=
      byteBits_eq_take (fun j hj => by simpa using h.bits 0 j (by simp) hj) (by omega)
    have hrest := ih (h.tail (by omega))
    rw [List.flatMap_cons, List.append_assoc, ← hrest, hfirst, List.take_append_drop]

/-- No bits are packed in no bytes. -/
theorem PackedStream.eq_nil (h : PackedStream cs [] pad) : cs = [] := by
  have hlength := h.length
  rw [List.length_nil] at hlength
  exact List.eq_nil_of_length_eq_zero (by omega)

theorem PackedStream.pad_lt (h : PackedStream cs ps pad) : pad < 8 := h.pad ▸ Nat.mod_lt _ (by decide)

/-- A stream without bytes has no pad (20_memory.md R52). -/
theorem PackedStream.pad_of_nil (h : PackedStream cs [] pad) : pad = 0 := by
  rw [h.pad, h.eq_nil]
  rfl

end PackedStream

section Pieces

variable {xs ys bs : List Bool} {syms : List Byte} {s t u : State}

/-- A walk that consumes nothing leaves CUR where it is. -/
theorem walked_nil_of_sameWalk (h : SameWalk s t) : walked [] 0 s.cur t = t := by rw [← h.cur, walked_nil]

/-- A walk does the same to every state that agrees in what it reads. -/
theorem walkBits_done_sameWalk (h : walkBits bs s = .done u) :
    ∃ syms n cur, u = walked syms n cur s ∧ ∀ t, SameWalk s t → walkBits bs t = .done (walked syms n cur t) := by
  induction bs generalizing s with
  | nil => cases h; exact ⟨[], 0, _, (walked_nil _).symm, fun t ht => congrArg _ (walked_nil_of_sameWalk ht).symm⟩
  | cons x bs ih =>
    by_cases hall : s.symcnt = s.origLen
    · rw [walkBits_of_complete _ hall] at h
      cases h
      refine ⟨[], 0, _, (walked_nil _).symm, fun t ht => ?_⟩
      rw [walked_nil_of_sameWalk ht]
      exact walkBits_of_complete _ (ht.symcnt.trans (hall.trans ht.origLen.symm))
    · rw [walkBits, if_neg hall] at h
      split at h
      next m hm =>
        obtain ⟨syms, cur, rfl, hstep⟩ := decodeBit_done_sameWalk hm
        obtain ⟨syms', n, cur', rfl, hrest⟩ := ih h
        refine ⟨syms ++ syms', 1 + n, cur', walked_walked .., fun t ht => ?_⟩
        have hne : t.symcnt ≠ t.origLen := by rwa [ht.symcnt, ht.origLen]
        rw [walkBits, if_neg hne, hstep t ht]
        exact (hrest _ (ht.walked ..)).trans (congrArg _ (walked_walked ..))
      next => cases h
      next => cases h

/-- A walk of two lists of bits one after the other completes in two walks. -/
theorem walkBits_append_done (h : walkBits (xs ++ ys) s = .done u) :
    ∃ m, walkBits xs s = .done m ∧ walkBits ys m = .done u := by
  induction xs generalizing s with
  | nil => exact ⟨s, rfl, h⟩
  | cons x xs ih =>
    by_cases hall : s.symcnt = s.origLen
    · rw [walkBits_of_complete _ hall] at h
      cases h
      exact ⟨_, walkBits_of_complete _ hall, walkBits_of_complete _ hall⟩
    · rw [List.cons_append, walkBits, if_neg hall] at h
      split at h
      next m hm =>
        obtain ⟨v, hxs, hys⟩ := ih h
        exact ⟨v, by rw [walkBits, if_neg hall, hm]; exact hxs, hys⟩
      next => cases h
      next => cases h

/-- The walk of `bits` from `s` pushes `syms`, which are all the outstanding symbols. -/
structure WalksTo (bits : List Bool) (syms : List Byte) (s : State) : Prop where
  walk : ∃ n cur, walkBits bits s = .done (walked syms n cur s)
  all : s.origLen.toNat = s.symcnt.toNat + syms.length

/-- It depends only on what the walk reads. -/
theorem WalksTo.congr (h : WalksTo bs syms s) (ht : SameWalk s t) : WalksTo bs syms t := by
  obtain ⟨⟨n, cur, hw⟩, hall⟩ := h
  obtain ⟨syms', n', cur', heq, hsame⟩ := walkBits_done_sameWalk hw
  obtain rfl : syms = syms' := List.append_cancel_left (congrArg State.fifo heq :)
  exact ⟨⟨n', cur', hsame t ht⟩, by rw [ht.origLen, ht.symcnt, hall]⟩

/-- The walk of the first bits leaves the walk of the others. -/
theorem WalksTo.split (h : WalksTo (xs ++ ys) syms s) :
    ∃ front back n cur, syms = front ++ back ∧ walkBits xs s = .done (walked front n cur s) ∧
      WalksTo ys back (walked front n cur s) := by
  obtain ⟨⟨n, cur, hw⟩, hall⟩ := h
  obtain ⟨m, hxs, hys⟩ := walkBits_append_done hw
  obtain ⟨front, n₁, cur₁, rfl⟩ := walkBits_done_walked hxs
  obtain ⟨back, n₂, cur₂, heq⟩ := walkBits_done_walked hys
  have hfifo : s.fifo ++ syms = s.fifo ++ front ++ back := congrArg State.fifo heq
  rw [List.append_assoc] at hfifo
  obtain rfl := List.append_cancel_left hfifo
  refine ⟨front, back, n₁, cur₁, rfl, hxs, ⟨n₂, cur₂, hys.trans (congrArg _ heq)⟩, ?_⟩
  rw [List.length_append] at hall
  have hlt := s.origLen.isLt
  simp only [walked]
  bv_omega

/-- Without bits there is no symbol to push. -/
theorem WalksTo.eq_nil (h : WalksTo [] syms s) : syms = [] := by
  obtain ⟨⟨n, cur, hw⟩, -⟩ := h
  have heq : s = walked syms n cur s := by injection hw
  exact List.append_right_eq_self.mp (congrArg State.fifo heq).symm

end Pieces

end Sys2Proof.Machine
end

section
/-! SUPPORT. P1, Compress (95_test_vectors.md): what it makes of a byte list is a container of the counts and of the packed
codes. -/

namespace Sys2Proof.Machine

open Sys2Proof.Claims

section Counts

variable (h : Vector Word 256) (b : Byte)

/-- The counts in byte-value order. -/
theorem toList_eq_map_countAt : h.toList = allBytes.map (countAt h) := by
  refine List.ext_getElem (by simp [allBytes]) fun k hk _ => ?_
  have hk : k < 256 := by simpa using hk
  simp [allBytes, countAt, Nat.mod_eq_of_lt hk]

theorem histSum_eq_sum_allBytes : histSum h = (allBytes.map fun b => (countAt h b).toNat).sum := by
  rw [histSum, toList_eq_map_countAt, List.map_map]
  rfl

/-- The code table of a histogram, whatever the tree memories held before the build (42_tree_build.md R91 item 3). -/
def histCodes (h : Vector Word 256) : CodeTable := genCodes (buildTree h TreeMem.reset)

theorem genCodes_eq_histCodes (t : TreeMem) : genCodes (buildTree h t) = histCodes h := genCodes_buildTree_eq h t _

/-- `c` is the container of the bytes `bytes`, whose counts are `h` (20_memory.md R48). -/
structure Compressed (bytes : List Byte) (h : Vector Word 256) (c : Container) : Prop where
  counts : c.counts = allBytes.map (countAt h)
  counted : ∀ b, (countAt h b).toNat = bytes.count b
  sum : histSum h = bytes.length
  origLen : c.origLen.toNat = bytes.length
  stream : PackedStream (codeString (histCodes h) bytes) c.stream c.pad.toNat

end Counts

section Encoding

variable {s₀ s t : State} {bytes rest done out taken fifo : List Byte}

/-- Reads and POPs do not touch what has been encoded: the bytes they take go to the host. -/
theorem Encoded.polled (h : Encoded s₀ done out s) (hfifo : s.fifo = taken ++ fifo) (r : Word) (o : List Word) :
    Encoded s₀ done (out ++ taken) (polled fifo r o s) := by
  obtain ⟨hcodes, hpacked, hbitcnt, hsymcnt, hbound⟩ := h
  refine ⟨hcodes, ⟨?_, hpacked.fill, hpacked.buf⟩, hbitcnt, hsymcnt, hbound⟩
  have hall : (untaken (out ++ taken) (Machine.polled fifo r o s)).fifo = (untaken out s).fifo := by
    simp [untaken, Machine.polled, hfifo]
  rw [hall]
  exact hpacked.pushed

/-- P1 in ENCODE, entered by BUILDE in `s₀`: of `bytes` the bytes `rest` are still to be encoded, and the host has taken
`out`. -/
structure Encoding (s₀ : State) (bytes rest out : List Byte) (s : State) : Prop where
  waiting : Waiting s
  phase : s.phase = .encode
  total : s.total.toNat = bytes.length
  encoded : ∃ done, bytes = done ++ rest ∧ Encoded s₀ done out s

/-- ORIG_LEN is the number of bytes (42_tree_build.md R89). -/
theorem Encoding.origLen (h : Encoding s₀ bytes rest out s) : s.origLen.toNat = bytes.length := by
  obtain ⟨-, hlen, -⟩ := h.waiting.inv.encodePhase h.phase
  rw [hlen, h.total]

/-- With a code, an outstanding symbol and room for the longest code ENC completes (43_encode.md R93). -/
theorem encSymbol_of_checks {b : Byte} (hcode : codeLenAt s.codes b ≠ 0) (hout : s.symcnt ≠ s.origLen)
    (hroom : Config.encRoom ≤ fifoRoom s) :
    encSymbol b s = .done { putBits (codeOf s.codes b) s with symcnt := s.symcnt + 1 } := by
  rw [encSymbol, if_neg hcode, if_neg hout, if_neg (Nat.not_lt.mpr hroom), ← putBits_symcnt]

/-- P1's loop encodes byte after byte: each has a code, one symbol is outstanding for each, and a FIFO drained to 32 bytes
has room (43_encode.md R93). -/
theorem encoding_streamLoop (hcodes : ∀ b ∈ bytes, codeLenAt s₀.codes b ≠ 0) :
    StreamLoop 32 .enc (Encoding s₀ bytes) where
  waiting h := h.waiting
  polled r o h hfifo := by
    obtain ⟨done, hbytes, henc⟩ := h.encoded
    exact ⟨h.waiting.polled hfifo r o, h.phase, h.total, done, hbytes, henc.polled hfifo r o⟩
  command {b rest out s} h hle := by
    obtain ⟨done, hbytes, henc⟩ := h.encoded
    have hcode : codeLenAt s.codes b ≠ 0 := henc.codes ▸ hcodes b (by simp [hbytes])
    have hout : s.symcnt ≠ s.origLen := by
      intro he
      have horig := h.origLen
      rw [← he, henc.symcnt, hbytes] at horig
      simp at horig
    have hroom : Config.encRoom ≤ fifoRoom s := by
      simp only [Config.encRoom, fifoRoom, fifoCount, Config.outDepth]
      omega
    have hexec := exec_of_done (i := .enc b) (by simp [acceptedIn, h.phase]) (encSymbol_of_checks hcode hout hroom)
    refine ⟨_, hexec, (h.waiting.command hexec).2, ?_, ?_, done ++ [b], by simp [hbytes], henc.enc hout⟩
    · exact (putBits_phase ..).trans h.phase
    · exact (congrArg BitVec.toNat (putBits_total ..)).trans h.total

/-- With every symbol encoded and room for the partial byte FINAL completes (43_encode.md R94). -/
theorem finishStream_of_checks (hall : s.symcnt = s.origLen) (hroom : fifoCount s ≠ Config.outDepth) :
    ∃ t, finishStream s = .done t ∧ t.phase = .encDone := by
  rw [finishStream, if_neg (not_not_intro hall), if_neg fun hfull => hroom hfull.2]
  split
  · exact ⟨_, rfl, rfl⟩
  · exact ⟨_, rfl, rfl⟩

/-- FINAL completes after the last byte and leaves the packed codes, PAD and TOTAL for the host (43_encode.md R94). -/
theorem Encoding.final (h : Encoding s₀ bytes [] out s) (hfifo : s₀.fifo = []) (hle : s.fifo.length ≤ 32) :
    ∃ t, exec .final s = .next t ∧ t.phase = .encDone ∧ t.total = s.total ∧
      PackedStream (codeString s₀.codes bytes) (out ++ t.fifo) t.pad.toNat := by
  obtain ⟨done, hbytes, henc⟩ := h.encoded
  obtain rfl : bytes = done := by simpa using hbytes
  have hall : s.symcnt = s.origLen := BitVec.eq_of_toNat_eq (henc.symcnt.trans h.origLen.symm)
  obtain ⟨t, hdone, hphase⟩ := finishStream_of_checks hall fun hfull => by
    simp only [fifoCount, Config.outDepth] at hfull
    omega
  have hexec : exec .final s = .next t := exec_of_done (by simp [acceptedIn, h.phase]) hdone
  have hc := completes_of_phase_ne_error hexec (by rw [hphase]; nofun)
  obtain ⟨-, htfifo, -, htpad⟩ := hc.final_eq
  obtain ⟨ps, hps, hlength, hbits⟩ := henc.packed.flushed
  refine ⟨t, hexec, hphase, hc.total_eq nofun nofun nofun, ?_⟩
  have hout : out ++ (s.fifo ++ partialByte s) = ps := by
    rw [hfifo, List.nil_append] at hps
    exact (List.append_assoc ..).symm.trans hps
  rw [htfifo, htpad, hout]
  exact ⟨hlength, hbits, congrArg (fun n => (8 - n) % 8) henc.packed.fill⟩

/-- BUILDE after the FEEDs of all bytes starts the encoding (42_tree_build.md R89). -/
theorem encoding_buildForEncode (hwait : Waiting (buildForEncode s)) (hs : HoldsAmounts (feedLines bytes) s) :
    Encoding (buildForEncode s) bytes bytes [] (buildForEncode s) where
  waiting := hwait
  phase := rfl
  total := hs.total.trans (totalAmount_feedLines bytes)
  encoded := ⟨[], rfl, .start rfl rfl rfl rfl⟩

/-- Every byte that was fed has a code (42_tree_build.md R91 item 2). -/
theorem codeLenAt_buildForEncode (hs : HoldsAmounts (feedLines bytes) s) :
    ∀ b ∈ bytes, codeLenAt (buildForEncode s).codes b ≠ 0 := by
  intro b hb
  refine ((genCodes_spec s.hist s.tree b).1 fun h0 => ?_).2
  have hcount : (countAt s.hist b).toNat = bytes.count b := (hs.hist b).trans (amountFor_feedLines b bytes)
  have hpos := List.count_pos_iff.mpr hb
  rw [countAt, h0] at hcount
  simp at hcount
  omega

end Encoding

/-- P1 ends with the container of its input, and no error is raised (44_decode.md R101). -/
theorem compress_compressed {bytes : List Byte} {s : State} (hlen : bytes.length ≤ 4294967295) (hbusy : s.busy = false) :
    ∃ h c, compress bytes s = some (.ok (serialize c)) ∧ Compressed bytes h c := by
  obtain ⟨s₁, v, s₂, hclear, hstatus, hwait₂, hs₂⟩ := hostStart hbusy
  obtain ⟨s₃, hrun, hs₃⟩ := execAll_feeds bytes hs₂ (by simpa [totalAmount_feedLines] using hlen)
  obtain ⟨hfeed, hwait₃⟩ := hwait₂.commands hrun
  have hexec : exec .builde s₃ = .next (buildForEncode s₃) := exec_of_done (by simp [acceptedIn, hs₃.phase]) rfl
  obtain ⟨hbuilde, hwait₄⟩ := hwait₃.command hexec
  obtain ⟨r, o, hcounts⟩ := hwait₄.readCounts (List.range 256) []
  have hloop := encoding_streamLoop (codeLenAt_buildForEncode hs₃)
  have hstart : Encoding _ bytes bytes [] _ :=
    hloop.polled r o (encoding_buildForEncode hwait₄ hs₃) (List.nil_append _).symm
  obtain ⟨out₅, s₅, hstream, h₅⟩ := hloop.run hstart
  obtain ⟨out₆, s₆, hdrain, h₆, hle₆⟩ := hloop.drain h₅
  obtain ⟨s₇, hexec₇, hphase, htotal, hpacked⟩ := h₆.final (hwait₃.inv.loadFresh hs₃.phase).1 hle₆
  obtain ⟨hfinal, hwait₇⟩ := h₆.waiting.command hexec₇
  obtain ⟨taken, fifo, r', o', hfifo, hle, hlast⟩ := hwait₇.drain 0 hwait₇.fifo_lt out₆
  have hwait₈ := hwait₇.polled hfifo r' o'
  have hgood (good : State → Option HostEnd) := hostFinish_good _ .compressing good hwait₈.inv.notBusy
    (show s₇.phase ≠ .error by rw [hphase]; nofun)
  obtain ⟨-, hwait₉⟩ := hwait₈.read .status
  obtain ⟨hreadTotal, hwait₁₀⟩ := hwait₉.read .total
  obtain ⟨hreadPad, -⟩ := hwait₁₀.read .pad
  obtain rfl : fifo = [] := List.eq_nil_of_length_eq_zero (Nat.le_zero.mp hle)
  rw [List.append_nil] at hfifo
  refine ⟨s₃.hist,
    { origLen := s₇.total, pad := (s₇.pad.setWidth 32).extractLsb' 0 8, counts := allBytes.map (countAt s₃.hist),
      stream := out₆ ++ taken }, ?_, ?_⟩
  · simp only [compress, hclear, hstatus, hfeed, hbuilde, hcounts, hstream, hdrain, hfinal, hlast, hgood, hreadTotal,
      hreadPad, Option.bind_some, Option.map_some]
    rw [allBytes, List.map_map]
    rfl
  · refine ⟨rfl, fun b => (hs₃.hist b).trans (amountFor_feedLines b bytes), ?_, ?_, ?_⟩
    · exact hwait₃.inv.totalIsSum.symm.trans (hs₃.total.trans (totalAmount_feedLines bytes))
    · exact (congrArg BitVec.toNat htotal).trans h₆.total
    · have hpad : ((s₇.pad.setWidth 32).extractLsb' 0 8).toNat = s₇.pad.toNat := by
        have := s₇.pad.isLt
        simp
        omega
      dsimp only
      rw [hpad, ← hfifo, ← genCodes_eq_histCodes s₃.hist s₃.tree]
      exact hpacked

end Sys2Proof.Machine
end

section
/-! SUPPORT. P2, Decompress (95_test_vectors.md), on a container that P1 makes, and the round-trip law (44_decode.md R101). -/

namespace Sys2Proof.Machine

open Sys2Proof.Claims

section Loading

variable {h : Vector Word 256} {ps : List (Byte × Option Word)} {s : State} {b : Byte}

theorem mem_allBytes (b : Byte) : b ∈ allBytes := List.mem_map.mpr ⟨b.toNat, by simpa using b.isLt, by simp⟩

theorem allBytes_nodup : allBytes.Nodup := by
  refine List.Nodup.map_on (fun j hj k hk he => ?_) List.nodup_range
  rw [List.mem_range] at hj hk
  have hnat := congrArg BitVec.toNat he
  simp only [BitVec.toNat_ofNat] at hnat
  omega

/-- The line that loads one count of a container: HADDV (95_test_vectors.md). -/
def loadLine (p : Nat × Word) : Byte × Option Word := (BitVec.ofNat 8 p.1, some p.2)

/-- The lines that load all counts of a histogram. -/
def countLines (h : Vector Word 256) : List (Byte × Option Word) := allBytes.map fun b => (b, some (countAt h b))

theorem map_loadLine_counts (h : Vector Word 256) :
    ((List.range 256).zip (allBytes.map (countAt h))).map loadLine = countLines h := by
  refine List.ext_getElem (by simp [countLines, allBytes]) fun k _ _ => ?_
  simp [countLines, allBytes, loadLine]

theorem totalAmount_countLines (h : Vector Word 256) : totalAmount (countLines h) = histSum h := by
  rw [histSum_eq_sum_allBytes, totalAmount, countLines, List.map_map]
  rfl

theorem amountFor_countLines (b : Byte) (h : Vector Word 256) : amountFor b (countLines h) = (countAt h b).toNat := by
  have hone : allBytes.filter (· == b) = [b] := by
    rw [List.filter_beq, List.count_eq_one_of_mem allBytes_nodup (mem_allBytes b)]
    rfl
  have hfilter : (countLines h).filter (fun p => p.1 == b) = [(b, some (countAt h b))] := by
    rw [countLines, List.filter_map]
    exact congrArg (List.map _) hone
  rw [amountFor, hfilter, totalAmount_singleton]
  rfl

/-- A count of 0 adds nothing. -/
theorem HoldsAmounts.snoc_zero (hs : HoldsAmounts ps s) (b : Byte) : HoldsAmounts (ps ++ [(b, some 0)]) s := by
  have hzero : countAmount (b, some 0) = 0 := rfl
  refine ⟨hs.phase, hs.notBusy, fun a => ?_, ?_⟩
  · rw [amountFor_append, amountFor_singleton, hzero, ite_self]
    exact hs.hist a
  · rw [totalAmount_append, totalAmount_singleton, hzero]
    exact hs.total

/-- The counts of a container are loaded one after the other while their sum fits (41_histogram.md R79). -/
theorem Waiting.loadCounts (pairs : List (Nat × Word)) (hwait : Waiting s) (hs : HoldsAmounts ps s)
    (hle : totalAmount (ps ++ pairs.map loadLine) ≤ 0xFFFFFFFF) :
    ∃ t, hostLoadCounts pairs s = some t ∧ Waiting t ∧ HoldsAmounts (ps ++ pairs.map loadLine) t := by
  induction pairs generalizing ps s with
  | nil => exact ⟨s, rfl, hwait, by simpa using hs⟩
  | cons p pairs ih =>
    obtain ⟨k, v⟩ := p
    rw [List.map_cons, List.append_cons] at hle ⊢
    rw [hostLoadCounts]
    by_cases h0 : v = 0
    · subst h0
      rw [if_pos rfl]
      exact ih hwait (hs.snoc_zero _) hle
    · have hfirst : totalAmount (ps ++ [loadLine (k, v)]) ≤ 0xFFFFFFFF := (totalAmount_le_append _ _).trans hle
      obtain ⟨harg, hwait₁⟩ := hwait.writeArg v
      have hs₁ := hs.withHost v s.bus
      obtain ⟨hhadd, hwait₂⟩ := hwait₁.command (hs₁.exec_eq (i := .hadd (BitVec.ofNat 8 k)) hfirst rfl rfl rfl)
      rw [if_neg h0, harg, Option.bind_some, hhadd, Option.bind_some]
      exact ih hwait₂ (hs₁.snoc hfirst rfl) hle

/-- With the amounts of its counts the histogram is the container's. -/
theorem HoldsAmounts.hist_eq_of_countLines (hs : HoldsAmounts (countLines h) s) : s.hist = h := by
  refine Vector.ext fun k hk => ?_
  have hat : countAt s.hist (BitVec.ofNat 8 k) = countAt h (BitVec.ofNat 8 k) :=
    BitVec.eq_of_toNat_eq ((hs.hist _).trans (amountFor_countLines _ h))
  simpa [countAt, Nat.mod_eq_of_lt hk] using hat

end Loading

section Decoding

variable {bytes stream rest out : List Byte} {last : Byte} {pad : BitVec 3} {h : Vector Word 256} {c : Container}
  {s t : State} {cs : List Bool}

/-- The state in which BUILDD leaves the block before a stream: nothing is decoded yet (42_tree_build.md R90). -/
structure ReadyToDecode (cs : List Bool) (bytes : List Byte) (pad : BitVec 3) (s : State) : Prop where
  waiting : Waiting s
  phase : s.phase = .decode
  fifo : s.fifo = []
  padEq : s.pad = pad
  walk : WalksTo cs bytes s

/-- The codes of the bytes lead the walk through the bytes (44_decode.md R101). -/
theorem walksTo_codes (hhist : s.hist = h) (htree : s.tree = buildTree h t.tree) (hcur : s.cur = s.tree.root)
    (hcounted : ∀ b, (countAt h b).toNat = bytes.count b) (hall : s.origLen.toNat = s.symcnt.toNat + bytes.length) :
    WalksTo (codeString (histCodes h) bytes) bytes s := by
  subst hhist
  have hbytes : ∀ b ∈ bytes, histAt s b ≠ 0 := by
    intro b hb h0
    have hpos := List.count_pos_iff.mpr hb
    have hcount := hcounted b
    rw [countAt, ← histAt, h0] at hcount
    simp at hcount
    omega
  have hw := walkBits_codeString [] htree hcur hbytes hall
  rw [List.append_nil, htree, genCodes_eq_histCodes] at hw
  exact ⟨⟨_, _, hw⟩, hall⟩

/-- SETLENV (30_encoding.md R70). -/
theorem Waiting.setlen (hwait : Waiting s) (hp : s.phase = .load) (v : Word) :
    ∃ t, hostWrite .arg v s = some t ∧ hostCommand .setlen t = some { s with arg := v, origLen := v } ∧
      Waiting { s with arg := v, origLen := v } := by
  obtain ⟨harg, hwait₁⟩ := hwait.writeArg v
  have hexec : exec .setlen { s with arg := v } = .next { s with arg := v, origLen := v } :=
    exec_of_done (by simp [acceptedIn, hp]) rfl
  exact ⟨_, harg, hwait₁.command hexec⟩

/-- SETPADV of the PAD byte of a container (30_encoding.md R70). -/
theorem Waiting.setpad (hwait : Waiting s) (hp : s.phase = .load) {p : Byte} (hle : p.toNat ≤ 7) :
    ∃ t, hostWrite .arg (p.setWidth 32) s = some t ∧
      hostCommand .setpad t = some { s with arg := p.setWidth 32, pad := p.setWidth 3 } ∧
      Waiting { s with arg := p.setWidth 32, pad := p.setWidth 3 } := by
  obtain ⟨harg, hwait₁⟩ := hwait.writeArg (p.setWidth 32)
  have hfits : ¬(p.setWidth 32).toNat > 7 := by
    rw [BitVec.toNat_setWidth]
    omega
  have hpad : (p.setWidth 32).extractLsb' 0 3 = p.setWidth 3 :=
    BitVec.eq_of_toNat_eq (by simp)
  have hexec : exec .setpad { s with arg := p.setWidth 32 } =
      .next { s with arg := p.setWidth 32, pad := p.setWidth 3 } :=
    exec_of_done (by simp [acceptedIn, hp]) ((if_neg hfits).trans (by rw [hpad]))
  exact ⟨_, harg, hwait₁.command hexec⟩

/-- BUILDD with the counts and ORIG_LEN of the container (42_tree_build.md R90). -/
theorem Compressed.buildd (hc : Compressed bytes h c) (hwait : Waiting s) (hs : HoldsAmounts (countLines h) s)
    (hlen : s.origLen = c.origLen) :
    ∃ t, hostCommand .buildd s = some t ∧ ReadyToDecode (codeString (histCodes h) bytes) bytes s.pad t := by
  have htotal : s.total = s.origLen :=
    BitVec.eq_of_toNat_eq (by rw [hs.total, totalAmount_countLines, hc.sum, hlen, hc.origLen])
  have hexec : exec .buildd s = .next { s with
      tree := buildTree s.hist s.tree, symcnt := 0, bitcnt := 0, cur := (buildTree s.hist s.tree).root,
      ctValid := false, phase := .decode } :=
    exec_of_done (by simp [acceptedIn, hs.phase]) (buildForDecode_checked htotal)
  obtain ⟨hcommand, hwait'⟩ := hwait.command hexec
  refine ⟨_, hcommand, hwait', rfl, (hwait.inv.loadFresh hs.phase).1, rfl, ?_⟩
  have hhist := hs.hist_eq_of_countLines
  refine walksTo_codes (t := s) hhist (congrArg (buildTree · s.tree) hhist) rfl hc.counted ?_
  simpa [hlen] using hc.origLen

/-- P2 loads ORIG_LEN and PAD and builds the tree (95_test_vectors.md). -/
theorem Compressed.readyToDecode (hc : Compressed bytes h c) (hwait : Waiting s) (hs : HoldsAmounts (countLines h) s) :
    ∃ s₁ s₂ s₃ s₄ t, hostWrite .arg c.origLen s = some s₁ ∧ hostCommand .setlen s₁ = some s₂ ∧
      hostWrite .arg (c.pad.setWidth 32) s₂ = some s₃ ∧ hostCommand .setpad s₃ = some s₄ ∧
      hostCommand .buildd s₄ = some t ∧
      ReadyToDecode (codeString (histCodes h) bytes) bytes (c.pad.setWidth 3) t := by
  obtain ⟨s₁, horig, hsetlen, hwait₂⟩ := hwait.setlen hs.phase c.origLen
  obtain ⟨s₃, harg, hsetpad, hwait₄⟩ := hwait₂.setpad hs.phase (Nat.le_of_lt_succ hc.stream.pad_lt)
  obtain ⟨t, hbuildd, hready⟩ := hc.buildd hwait₄ ⟨hs.phase, hs.notBusy, hs.hist, hs.total⟩ rfl
  exact ⟨s₁, _, s₃, _, t, horig, hsetlen, harg, hsetpad, hbuildd, hready⟩

/-- P2 in DECODE, the bytes `rest` and then `last` still to be unpacked: of `bytes`, the host has taken `out`, and the walk
of the remaining bits pushes what is neither taken nor in the FIFO. -/
structure Decoding (bytes : List Byte) (last : Byte) (pad : BitVec 3) (rest out : List Byte) (s : State) : Prop where
  waiting : Waiting s
  phase : s.phase = .decode
  padEq : s.pad = pad
  walk : ∃ syms, bytes = out ++ s.fifo ++ syms ∧
    WalksTo (rest.flatMap (byteBits · 8) ++ byteBits last (8 - pad.toNat)) syms s

/-- P2's loop unpacks byte after byte: the walk of each completes, and a FIFO drained to 56 bytes has room for a symbol per
bit (44_decode.md R98). -/
theorem decoding_streamLoop : StreamLoop 56 .dfeed (Decoding bytes last pad) where
  waiting h := h.waiting
  polled r o h hfifo := by
    obtain ⟨syms, hbytes, hw⟩ := h.walk
    refine ⟨h.waiting.polled hfifo r o, h.phase, h.padEq, syms, ?_, hw.congr ⟨rfl, rfl, rfl, rfl⟩⟩
    rw [hbytes, hfifo, ← List.append_assoc]
    rfl
  command {b rest out s} h hle := by
    obtain ⟨syms, hbytes, hw⟩ := h.walk
    rw [List.flatMap_cons, List.append_assoc] at hw
    obtain ⟨front, back, n, cur, rfl, hfirst, hrest⟩ := (hw.congr (t := markExcess s) ⟨rfl, rfl, rfl, rfl⟩).split
    have hexec : exec (.dfeed b) s = .next (walked front n cur (markExcess s)) :=
      exec_of_done (accepted_dfeed_iff.mpr h.phase) ((feedBits_of_room (by omega)).trans hfirst)
    refine ⟨_, hexec, (h.waiting.command hexec).2, h.phase, h.padEq, back, ?_, hrest⟩
    rw [hbytes, ← List.append_assoc, List.append_assoc out]
    rfl

/-- DLAST decodes the rest of the input (44_decode.md R99). -/
theorem Decoding.dlast (h : Decoding bytes last pad [] out s) (hle : s.fifo.length ≤ 56) :
    ∃ t, exec (.dlast last) s = .next t ∧ t.phase = .decDone ∧ bytes = out ++ t.fifo := by
  obtain ⟨syms, hbytes, hw⟩ := h.walk
  obtain ⟨⟨n, cur, hwalk⟩, hall⟩ := hw.congr (t := markExcess s) ⟨rfl, rfl, rfl, rfl⟩
  rw [List.flatMap_nil, List.nil_append, ← h.padEq, walked_eq_of_complete _ _ hall] at hwalk
  have hrule := (feedLast_of_walk_done (by omega) hwalk).trans (endStream_complete le_rfl)
  exact ⟨_, exec_of_done (accepted_dlast_iff.mpr h.phase) hrule, rfl, hbytes.trans (List.append_assoc ..)⟩

/-- P2 feeds the whole stream and reaches DEC_DONE with all bytes decoded (44_decode.md R98 to R100). -/
theorem ReadyToDecode.feedStream (h : ReadyToDecode cs bytes pad s) (hstream : PackedStream cs stream pad.toNat) :
    ∃ out t, hostFeedStream stream s = some (out, t) ∧ Waiting t ∧ t.phase = .decDone ∧ bytes = out ++ t.fifo := by
  obtain ⟨hwait, hphase, hfifo, hpad, hw⟩ := h
  rcases List.eq_nil_or_concat stream with rfl | ⟨front, last, rfl⟩
  · obtain rfl := hstream.eq_nil
    obtain rfl := hw.eq_nil
    have hexec : exec .dend s = .next { s with phase := .decDone } :=
      exec_of_done (by simp [acceptedIn, hphase]) (endStream_complete hw.all.le)
    obtain ⟨hcommand, hwait'⟩ := hwait.command hexec
    exact ⟨[], _, by simp [hostFeedStream, hcommand], hwait', rfl, hfifo.symm⟩
  · rw [List.concat_eq_append] at hstream ⊢
    rw [hstream.bits_eq] at hw
    have hstart : Decoding bytes last pad front [] s := ⟨hwait, hphase, hpad, bytes, by simp [hfifo], hw⟩
    obtain ⟨out₁, s₁, hrun, h₁⟩ := decoding_streamLoop.run hstart
    obtain ⟨out₂, s₂, hdrain, h₂, hle⟩ := decoding_streamLoop.drain h₁
    obtain ⟨t, hexec, htphase, hbytes⟩ := h₂.dlast hle
    obtain ⟨hcommand, hwait'⟩ := h₂.waiting.command hexec
    exact ⟨out₂, t, by simp [hostFeedStream, hrun, hdrain, hcommand], hwait', htphase, hbytes⟩

/-- P2 gives back the input of a container that P1 made, and no error is raised (44_decode.md R101). -/
theorem Compressed.decompress_eq (hc : Compressed bytes h c) (hbusy : s.busy = false) :
    decompress (serialize c) s = some (.ok bytes) := by
  have hlength : c.counts.length = 256 := by rw [hc.counts]; simp [allBytes]
  have hpad := hc.stream.pad_lt
  have hparse : parseContainer (serialize c) = .ok c := by
    refine (containerParsesBack c hlength (by omega) fun hnil => BitVec.eq_of_toNat_eq ?_).1
    exact (hnil ▸ hc.stream).pad_of_nil
  have hsum : totalAmount (countLines h) ≤ 0xFFFFFFFF := by
    have hlt := c.origLen.isLt
    rw [totalAmount_countLines, hc.sum, ← hc.origLen]
    omega
  obtain ⟨s₁, v, s₂, hclear, hstatus, hwait₂, hs₂⟩ := hostStart hbusy
  rw [← map_loadLine_counts, ← hc.counts] at hsum
  obtain ⟨s₃, hload, hwait₃, hs₃⟩ := hwait₂.loadCounts _ hs₂ hsum
  rw [hc.counts, List.nil_append, map_loadLine_counts] at hs₃
  obtain ⟨s₄, s₅, s₆, s₇, s₈, horig, hsetlen, harg, hsetpad, hbuildd, hready⟩ := hc.readyToDecode hwait₃ hs₃
  have hpad3 : (c.pad.setWidth 3).toNat = c.pad.toNat := by
    rw [BitVec.toNat_setWidth]
    omega
  obtain ⟨out, s₉, hfeed, hwait₉, hphase, hbytes⟩ := hready.feedStream (hpad3 ▸ hc.stream)
  obtain ⟨taken, fifo, r, o, hfifo, hle, hdrain⟩ := hwait₉.drain 0 hwait₉.fifo_lt out
  obtain rfl : fifo = [] := List.eq_nil_of_length_eq_zero (Nat.le_zero.mp hle)
  have hgood (good : State → Option HostEnd) := hostFinish_good _ .loadingContainer good
    (hwait₉.polled hfifo r o).inv.notBusy (show s₉.phase ≠ .error by rw [hphase]; nofun)
  rw [List.append_nil] at hfifo
  rw [hbytes, hfifo]
  simp only [decompress, hparse, hclear, hstatus, hload, horig, hsetlen, harg, hsetpad, hbuildd, hfeed, hdrain, hgood,
    Option.bind_some]

end Decoding

/-- Settles O49: P1 makes the container of the bytes, whatever state it starts from, and P2 gives back the bytes of such a
container. -/
theorem decompressOfCompressIsTheInput : Obligations.DecompressOfCompressIsTheInput := by
  intro bytes s u hlen hs hu
  obtain ⟨h, c, hcompress, hc⟩ := compress_compressed hlen hs
  exact ⟨_, hcompress, hc.decompress_eq hu⟩

end Sys2Proof.Machine
end

section
/-! SUPPORT. The statements of the read-back commands HRD, CLRD, CBRD and POP (45_readback.md): every phase accepts them
and their rules make no check, so each statement turns on the command's word and the value RESULT takes. -/

namespace Sys2Proof.Machine

open Sys2Proof.Claims

section ReadbackWords

variable {c : Word} {i : Instr} (opc b : Byte) (k : BitVec 3) (p : Pattern)

theorem wordN_eq_shiftLeft : wordN opc = opc.setWidth 32 <<< 24 :=
  calc wordN opc
    _ = (wordN opc).setWidth 32 := (BitVec.setWidth_eq _).symm
    _ = opc.setWidth 32 <<< 24 ||| 0#32 := BitVec.setWidth_append_eq_shiftLeft_setWidth_or
    _ = opc.setWidth 32 <<< 24 := BitVec.or_zero

/-- A format BK word has its operands in the bits its opcode's word leaves 0 (30_encoding.md R62). -/
theorem wordBK_eq_withS_or : wordBK opc b k = withS (wordN opc) b ||| k.setWidth 32 <<< 8 :=
  calc wordBK opc b k
    _ = (wordBK opc b k).setWidth 32 := (BitVec.setWidth_eq _).symm
    _ = opc.setWidth 32 <<< 24 ||| 0#32 ||| k.setWidth 32 <<< 8 ||| b.setWidth 32 :=
      BitVec.setWidth_append_append_append_eq_shiftLeft_setWidth_or
    _ = wordN opc ||| b.setWidth 32 ||| k.setWidth 32 <<< 8 := by
      rw [BitVec.or_zero, ← wordN_eq_shiftLeft]
      ac_rfl

/-- CBRD's is the only row of opcode 0x52, and its format is BK (30_encoding.md R64, R66). -/
theorem reservedZero_bk_of_opcField_cbrd (hopc : opcField c = 0x52#8) (hdec : decode c = .ok i) :
    reservedZero .bk c = true := by
  obtain ⟨f, hrow, hres⟩ := decode_eq_ok_iff.mp hdec
  rw [hopc] at hrow
  cases hrow
  exact hres

/-- Word k of a pattern is its bits from 32k up (45_readback.md R104). -/
theorem patternWord_eq_ushiftRight : patternWord p k = (p >>> (32 * k.toNat)).setWidth 32 :=
  BitVec.setWidth_ushiftRight_eq_extractLsb.symm

/-- POP's "valid" bit above the byte is 0x100 or-ed with the byte (45_readback.md R105). -/
theorem valid_append_eq_or : (1#1 ++ b).setWidth 32 = 0x100#32 ||| b.setWidth 32 :=
  BitVec.setWidth_append_eq_shiftLeft_setWidth_or

end ReadbackWords

/-- Settles O27: HRD's rule has no check and reads HIST[s]. -/
theorem hrdReadsAHistogramEntry : Obligations.HrdReadsAHistogramEntry := fun b =>
  commandRule_allPhases (wordB_eq_withS _ b) (fun _ => rfl) fun _ => rfl

/-- Settles O28: CLRD's rule has no check and reads CODE_LEN[s] under CT_VALID. -/
theorem clrdReadsACodeLength : Obligations.ClrdReadsACodeLength := fun b =>
  commandRule_allPhases (wordB_eq_withS _ b) (fun _ => rfl) fun _ => rfl

/-- Settles O29: a legal word with CBRD's opcode has 0 in [23:11], and CBRD's rule has no check and reads the pattern's
word under CT_VALID. -/
theorem cbrdReadsAPatternWord : Obligations.CbrdReadsAPatternWord := by
  constructor
  · intro c hopc hne i hdec
    exact hne (eq_of_beq (reservedZero_bk_of_opcField_cbrd hopc hdec))
  · intro b k
    refine commandRule_allPhases (wordBK_eq_withS_or _ b k) (fun _ => rfl) fun s => ?_
    rw [← patternWord_eq_ushiftRight]
    rfl

/-- Settles O30: POP's rule has no check, and the FIFO is empty or has an oldest byte. -/
theorem popTakesTheOldestByte : Obligations.PopTakesTheOldestByte := by
  refine commandRule_allPhases (by decide) (fun _ => rfl) fun s => congrArg Result.done ?_
  rcases hfifo : s.fifo with _ | ⟨b, rest⟩
  · simp [popByte, hfifo]
  · simp [popByte, hfifo, valid_append_eq_or]

end Sys2Proof.Machine
end

section
/-! SUPPORT. The statements of errors (60_exceptions.md): an error entry changes the error record and PHASE alone (R107),
which commands ERROR ignores (R108), and what leaves ERROR (R109). -/

namespace Sys2Proof.Machine

open Sys2Proof.Claims

section ErrorRecord

variable {i : Instr} {s t : State}

/-- But for CLEAR no command that completes writes ERRCODE or ERRCMD (10_state.md R19, R20). -/
theorem Completes.errorRecord_eq (h : Completes s i t) (hi : i ≠ .clear) :
    t.errcode = s.errcode ∧ t.errcmd = s.errcmd := by
  cases h with
  | clear => exact absurd rfl hi
  | enc => exact ⟨putBits_errcode .., putBits_errcmd ..⟩
  | pop => rw [popByte_eq]; exact ⟨rfl, rfl⟩
  | _ => exact ⟨rfl, rfl⟩

/-- A command that begins and ends in ERROR keeps the first error's record (60_exceptions.md R107, R108). -/
theorem exec_keeps_errorRecord (h : exec i s = .next t) (hs : s.phase = .error) (ht : t.phase = .error) :
    t.errcode = s.errcode ∧ t.errcmd = s.errcmd := by
  obtain hc | ⟨hs', -⟩ | ⟨-, rfl⟩ := exec_next_cases h
  · refine hc.errorRecord_eq ?_
    rintro rfl
    cases hc
    cases ht
  · exact absurd hs hs'
  · exact ⟨rfl, rfl⟩

/-- A decoded command that enters ERROR is an error entry with its own word (40_control.md R72). -/
theorem exec_enters_error {c : Word} (hdec : decode c = .ok i) (h : exec i s = .next t) (hs : s.phase ≠ .error)
    (ht : t.phase = .error) : ∃ e, e ≠ .none ∧ e ≠ .busy ∧ t = errorRecorded e c s := by
  obtain ⟨hentry, -⟩ := flagWriters i s t h
  rw [← encodeOfDecodeIsTheWord c i hdec]
  exact (hentry hs).mp ht

end ErrorRecord

/-- Settles O51: a word either runs its command or is illegal, and an illegal word is an error entry outside ERROR and
nothing in ERROR. -/
theorem errorsArePrecise : Obligations.ErrorsArePrecise := by
  intro c s t h
  obtain ⟨i, hdec, hexec⟩ | ⟨hs, rfl⟩ | ⟨hs, rfl⟩ := issueCommand_next_cases h
  · exact ⟨exec_enters_error hdec hexec, exec_keeps_errorRecord hexec⟩
  · exact ⟨fun _ _ => ⟨.illegal, nofun, nofun, rfl⟩, fun hs' => absurd hs' hs⟩
  · exact ⟨fun hs' => absurd hs hs', fun _ _ => ⟨rfl, rfl⟩⟩

/-- The column ERROR of the acceptance matrix (30_encoding.md R68): the six commands of 60_exceptions.md R108. -/
theorem acceptedIn_error_eq_false {i : Instr} (hnop : i ≠ .nop) (hclear : i ≠ .clear) (hpop : i ≠ .pop)
    (hhrd : ∀ b, i ≠ .hrd b) (hclrd : ∀ b, i ≠ .clrd b) (hcbrd : ∀ b k, i ≠ .cbrd b k) :
    acceptedIn i .error = false := by
  cases i with
  | nop => exact absurd rfl hnop
  | clear => exact absurd rfl hclear
  | pop => exact absurd rfl hpop
  | hrd b => exact absurd rfl (hhrd b)
  | clrd b => exact absurd rfl (hclrd b)
  | cbrd b k => exact absurd rfl (hcbrd b k)
  | _ => rfl

/-- Settles O52: the other commands are not accepted in ERROR. -/
theorem errorPhaseIgnoresCommands : Obligations.ErrorPhaseIgnoresCommands := by
  rintro i s hs ⟨hnop, hclear, hpop, hhrd, hclrd, hcbrd⟩
  have hreject : acceptedIn i s.phase = false := hs ▸ acceptedIn_error_eq_false hnop hclear hpop hhrd hclrd hcbrd
  exact exec_ignored hreject hs

section LeavingError

variable {s t : State}

theorem readAccess_phase (off : Byte) (s : State) : (readAccess off s).phase = s.phase := by
  unfold readAccess
  split <;> rfl

/-- The only word that leaves ERROR is CLEAR's (60_exceptions.md R109). -/
theorem issueCommand_leaves_error {c : Word} (h : issueCommand c s = .next t) (hs : s.phase = .error)
    (ht : t.phase ≠ .error) : c = encode .clear ∧ t = clearBlock s := by
  obtain ⟨i, hdec, hexec⟩ | ⟨hs', -⟩ | ⟨-, rfl⟩ := issueCommand_next_cases h
  · obtain ⟨-, hleave, -⟩ := flagWriters i s t hexec
    cases hleave hs ht
    cases (exec_clear s).symm.trans hexec
    exact ⟨(encodeOfDecodeIsTheWord c _ hdec).symm, rfl⟩
  · exact absurd hs hs'
  · exact absurd hs ht

/-- A write that leaves ERROR is a write of CLEAR's word to CMD. -/
theorem writeAccess_leaves_error {off : Byte} {v : Word} (h : writeAccess off v s = .next t) (hs : s.phase = .error)
    (ht : t.phase ≠ .error) : off = regOffset .cmd ∧ v = encode .clear ∧ t = clearBlock s := by
  unfold writeAccess at h
  split at h
  next => split at h <;> cases h; exact absurd hs ht
  next hreg =>
    split at h
    · cases h
    · exact ⟨eq_regOffset_of_regAt hreg, issueCommand_leaves_error h hs ht⟩
  next => cases h; exact absurd hs ht

/-- An access that leaves ERROR is a reset or the write of CLEAR's word to CMD (60_exceptions.md R109). -/
theorem performAccess_leaves_error {a : Access} (h : performAccess a s = .next t) (hs : s.phase = .error)
    (ht : t.phase ≠ .error) :
    (a = .reset ∧ t = resetBlock s) ∨ (a = .write .word (regOffset .cmd) (encode .clear) ∧ t = clearBlock s) := by
  unfold performAccess at h
  split at h
  next hadm =>
    cases a with
    | read w off => cases h; exact absurd ((readAccess_phase off s).trans hs) ht
    | write w off v =>
      obtain ⟨rfl, -⟩ := admitted_iff.mp hadm
      obtain ⟨rfl, rfl, rfl⟩ := writeAccess_leaves_error h hs ht
      exact .inr ⟨rfl, rfl⟩
    | reset => cases h; exact .inl ⟨rfl, rfl⟩
  next => cases h

end LeavingError

/-- Settles O53: the step performs an access that leaves ERROR, and with BUSY 0 a reset and CLEAR both give the reset
values. -/
theorem onlyClearAndResetLeaveError : Obligations.OnlyClearAndResetLeaveError := by
  intro s t hinv hstep hs ht
  cases hbus : s.bus with
  | nil =>
    have hidle : step s = .next s := by simp [step, hostStep, hbus]
    cases hidle.symm.trans hstep
    exact absurd hs ht
  | cons a rest =>
    obtain ⟨rfl, rfl⟩ | ⟨rfl, rfl⟩ := performAccess_leaves_error ((step_of_bus hbus).symm.trans hstep) hs ht
    · exact ⟨⟨rest, .inl rfl⟩, resetValues_resetBlock _⟩
    · have hword : encode .clear = 0x01000000#32 := by decide
      exact ⟨⟨rest, .inr (by rw [hword]; rfl)⟩, resetValues_clearBlock hinv.notBusy⟩

end Sys2Proof.Machine
end

section
/-! SUPPORT. The statement of the hazard of a busy block (70_reset_and_hazards.md R119): what a read gives and which writes
are refused while BUSY = 1. -/

namespace Sys2Proof.Machine

open Sys2Proof.Claims

section BusyAccesses

variable {s : State} {off : Byte} {v : Word} {rest : List Access}

/-- An aligned read completes, BUSY being 0 or 1 (20_memory.md R43, R45). -/
theorem step_read_eq_readAccess (ha : off.toNat % 4 = 0) (hbus : s.bus = .read .word off :: rest) :
    step s = .next (readAccess off { s with bus := rest }) := by
  have hadm : (Access.read .word off).wellFormed = true := admitted_iff.mpr ⟨rfl, ha⟩
  rw [step_of_bus hbus, performAccess, if_pos hadm]

/-- A read that BUSY does not hide observes the offset's value (70_reset_and_hazards.md R119). -/
theorem readAccess_of_readable (h : readableWhileBusy off = true) :
    readAccess off s = { s with observed := s.observed ++ [readOffset off s] } := by
  rw [readAccess, if_neg (by simp [h])]

/-- A read adds one value to what the host observed, and moves at most the count of free values (20_memory.md R45). -/
theorem exists_readAccess_eq (off : Byte) (s : State) :
    ∃ u n, readAccess off s = { s with observed := s.observed ++ [u], freeReads := n } := by
  unfold readAccess
  split
  · exact ⟨Config.busyRead s.freeReads off, s.freeReads + 1, rfl⟩
  · exact ⟨readOffset off s, s.freeReads, rfl⟩

/-- A write of ARG or CMD while BUSY = 1 is refused (70_reset_and_hazards.md R119). -/
theorem writeAccess_busy (hbusy : s.busy = true) (hoff : off = regOffset .arg ∨ off = regOffset .cmd) :
    writeAccess off v s = .refused .writeWhileBusy := by
  obtain rfl | rfl := hoff <;> simp [writeAccess, hbusy]

end BusyAccesses

/-- Settles O11: the writes are refused by the register they name, and BUSY hides neither ID nor PARAMS nor STATUS from a
read. -/
theorem busyHazard : Obligations.BusyHazard := by
  intro s off v rest hbusy
  refine ⟨fun hoff hbus => ?_, fun hoff hv hbus => ?_, fun ha hbus => ?_⟩
  · have ha : off.toNat % 4 = 0 := by obtain rfl | rfl := hoff <;> rfl
    rw [step_write ha hbus]
    exact writeAccess_busy hbusy hoff
  · have hreadable : readableWhileBusy off = true := by obtain rfl | rfl | rfl := hoff <;> rfl
    obtain ⟨r, rfl, rfl⟩ := exists_reg_of_mem_windowReads hv
    rw [step_read_eq_readAccess (regOffset_bounds r).1 hbus, readAccess_of_readable hreadable,
      readOffset_host _ s rest s.observed, readOffset_regOffset]
  · obtain ⟨u, n, hread⟩ := exists_readAccess_eq off { s with bus := rest }
    exact ⟨u, n, (step_read_eq_readAccess ha hbus).trans (congrArg _ hread)⟩

end Sys2Proof.Machine
end
